-- ==== Sys2Proof/Word.lean ====
section
/-! DEFINITION. The types of rule R8 of spec/00_scope.md that every layer shares. All numbers are unsigned (R7). -/

namespace Sys2Proof

/-- A byte or symbol, 0 to 255 (R8). -/
abbrev Byte := BitVec 8

/-- A command word (R70, `CMD_BITS`). -/
abbrev CmdWord := BitVec 16

/-- An occurrence count, `W_CNT` bits (R8). -/
abbrev Count := BitVec 64

/-- A node weight, also the symbol counter, `W_SUM` bits (R8). -/
abbrev Weight := BitVec 72

/-- A node index, `IDX_BITS` bits (R8). -/
abbrev NodeIdx := BitVec 9

/-- A branch decision (R8). Its bit is 1 for `Left`, 0 for `Right`. -/
inductive Decision where
  | left
  | right
deriving DecidableEq, Repr

/-- A path: the decisions from the root to a leaf, the one taken at the root first (R8). -/
abbrev Path := List Decision

end Sys2Proof
end

