-- ==== Sys2Proof/Syntax.lean ====
section
/-! DEFINITION. The commands of rule R74 of spec/30_encoding.md: one constructor per row of spec/opcode_table.json.
An operand has the type of its field (R72, R73), so no constructor holds an operand its field cannot. -/

namespace Sys2Proof

/-- The eighteen commands (R74). -/
inductive Instr where
  | fscan
  | qbuild
  | qins (idx : NodeIdx)
  | qext
  | tjoin
  | treduce
  | sderive
  | wbit (d : Decision)
  | wsym (sym : Byte)
  | wflush
  | rinit
  | rnext
  | hwrite
  | hread
  | encode
  | decode
  | clr
  | srew
deriving DecidableEq, Repr

/-- The four formats (R72), which differ in the use of `arg`. -/
inductive Format where
  | n  -- no operand
  | i  -- a node index
  | b  -- a byte value
  | d  -- a decision
deriving DecidableEq, Repr

end Sys2Proof
end

