-- ==== Sys2Proof/WellFormed.lean ====
section
/-! DEFINITION. Which operand fields are well formed: the must-be-zero bits of rule R72 of spec/30_encoding.md.
The decoder uses the same check, so a word it accepts has a well-formed operand field. -/

namespace Sys2Proof

/-- The must-be-zero bits of `arg` are zero: all nine in format N, none in I, bit 8 in B, bits 8 to 1 in D (R72). -/
def Format.argOk : Format → BitVec 9 → Bool
  | .n, arg => arg == 0#9
  | .i, _ => true
  | .b, arg => arg.getLsbD 8 == false
  | .d, arg => arg.extractLsb' 1 8 == 0#8

/-- The format of a command (R74). -/
def Instr.format : Instr → Format
  | .qins _ => .i
  | .wbit _ => .d
  | .wsym _ => .b
  | .fscan | .qbuild | .qext | .tjoin | .treduce | .sderive | .wflush | .rinit | .rnext
  | .hwrite | .hread | .encode | .decode | .clr | .srew => .n

/-- The operand field a command carries (R72, R73; a decision is 1 for `Left`). -/
def Instr.arg : Instr → BitVec 9
  | .qins idx => idx
  | .wbit .left => 1#9
  | .wbit .right => 0#9
  | .wsym sym => sym.setWidth 9
  | .fscan | .qbuild | .qext | .tjoin | .treduce | .sderive | .wflush | .rinit | .rnext
  | .hwrite | .hread | .encode | .decode | .clr | .srew => 0#9

/-- A command is well formed when its operand field passes its format's check (R72). -/
def Instr.wellFormed (i : Instr) : Bool := i.format.argOk i.arg

end Sys2Proof
end

