-- ==== Sys2Proof/Decode.lean ====
section
/-! DEFINITION. The decoder and the encoder of command words (rules R71 to R76 of spec/30_encoding.md). Decoding is
total: a word is a command or is reserved, for a reason with a name. -/

namespace Sys2Proof

/-- Why a word is reserved: the three ways rule R75 lists. -/
inductive ReservedWhy where
  | unassignedGroup     -- `grp` = 0 or 9 to 15
  | unassignedFunction  -- an `fn` not listed in an assigned group
  | operandBitsNotZero  -- a must-be-zero bit of `arg` is set
deriving DecidableEq, Repr

/-- What a word decodes to (R76: decode is total). -/
inductive Decoded where
  | instr (i : Instr)
  | reserved (why : ReservedWhy)
deriving DecidableEq, Repr

/-- The decision an operand or payload bit stands for: 1 is `Left` (R8, R73). -/
def decisionOf (bit : Bool) : Decision := if bit then .left else .right

/-- The bit of a decision: `Left` = 1 (R8). -/
def Decision.bit : Decision → Bool
  | .left => true
  | .right => false

/-- The command `i` when the operand field passes its format's check, else a reserved word (R75). -/
def checked (f : Format) (arg : BitVec 9) (i : Instr) : Decoded :=
  if f.argOk arg then .instr i else .reserved .operandBitsNotZero

/-- Decoding from the three fields `grp`, `fn`, `arg` (R71, R74). -/
def decodeFields (grp fn : Nat) (arg : BitVec 9) : Decoded :=
  match grp with
  | 1 => match fn with
    | 0 => checked .n arg .fscan
    | _ => .reserved .unassignedFunction
  | 2 => match fn with
    | 0 => checked .n arg .qbuild
    | 1 => checked .i arg (.qins arg)
    | 2 => checked .n arg .qext
    | _ => .reserved .unassignedFunction
  | 3 => match fn with
    | 0 => checked .n arg .tjoin
    | 1 => checked .n arg .treduce
    | _ => .reserved .unassignedFunction
  | 4 => match fn with
    | 0 => checked .n arg .sderive
    | _ => .reserved .unassignedFunction
  | 5 => match fn with
    | 0 => checked .d arg (.wbit (decisionOf (arg.getLsbD 0)))
    | 1 => checked .b arg (.wsym (arg.extractLsb' 0 8))
    | 2 => checked .n arg .wflush
    | _ => .reserved .unassignedFunction
  | 6 => match fn with
    | 0 => checked .n arg .rinit
    | 1 => checked .n arg .rnext
    | _ => .reserved .unassignedFunction
  | 7 => match fn with
    | 0 => checked .n arg .hwrite
    | 1 => checked .n arg .hread
    | 2 => checked .n arg .encode
    | 3 => checked .n arg .decode
    | _ => .reserved .unassignedFunction
  | 8 => match fn with
    | 0 => checked .n arg .clr
    | 1 => checked .n arg .srew
    | _ => .reserved .unassignedFunction
  | _ => .reserved .unassignedGroup

/-- The decoder: `grp` is bits 15 to 12, `fn` bits 11 to 9, `arg` bits 8 to 0 (R71). -/
def decode (w : CmdWord) : Decoded :=
  decodeFields (w.extractLsb' 12 4).toNat (w.extractLsb' 9 3).toNat (w.extractLsb' 0 9)

/-- The word of a command with operand bits 0: the column `word` of rule R74. -/
def Instr.word : Instr → CmdWord
  | .fscan => 0x1000#16
  | .qbuild => 0x2000#16
  | .qins _ => 0x2200#16
  | .qext => 0x2400#16
  | .tjoin => 0x3000#16
  | .treduce => 0x3200#16
  | .sderive => 0x4000#16
  | .wbit _ => 0x5000#16
  | .wsym _ => 0x5200#16
  | .wflush => 0x5400#16
  | .rinit => 0x6000#16
  | .rnext => 0x6200#16
  | .hwrite => 0x7000#16
  | .hread => 0x7200#16
  | .encode => 0x7400#16
  | .decode => 0x7600#16
  | .clr => 0x8000#16
  | .srew => 0x8200#16

/-- The bits of a word that must match `word`: the column `mask` of rule R74. -/
def Format.mask : Format → CmdWord
  | .n => 0xFFFF#16
  | .i => 0xFE00#16
  | .b => 0xFF00#16
  | .d => 0xFFFE#16

/-- The encoder: the row's word with the operand in the low bits (R74). -/
def encode (i : Instr) : CmdWord := i.word ||| i.arg.setWidth 16

/-- A word matches the row of a command's mnemonic: under the row's mask it is the row's word (R74). -/
def matchesRow (w : CmdWord) (i : Instr) : Bool := (w &&& i.format.mask) == i.word

/-- The instruction the decoder reads from a word given as the opcode table numbers its bits. A command is one
16-bit word (R71), so the bits at and above `nbits` are 0 and those above 15 are not part of it. -/
def decodeTableWord (nbits w : Nat) : Option Instr :=
  match decode (BitVec.ofNat 16 (w % 2 ^ nbits)) with
  | .instr i => some i
  | .reserved _ => none

end Sys2Proof
end

