-- ==== Sys2Proof/Config.lean ====
section
/-! DEFINITION. The parameters of rule R6 of spec/00_scope.md, all fixed for this hardware. There is no free
value here: what the spec leaves to the host (rule R48, U6, U8, U15) is plain data in State, the field `replies`
of `HostSide` (log entry 2). The open parameters PORT_PROTOCOL and BUS_MAP are not modelled (log entry 23). -/

namespace Sys2Proof.Config

/-- `NSYM_MAX`: the number of possible distinct symbols (R6). -/
abbrev nsymMax : Nat := 256

/-- `CNT_BYTES`: the bytes of one serialised occurrence count (R6, D3). -/
abbrev cntBytes : Nat := 8

/-- `NODE_MAX`: the node records of `TM`, 256 leaves and 255 internal nodes (R6). -/
abbrev nodeMax : Nat := 511

/-- `PATH_MAX`: the longest path in branch decisions (R6). -/
abbrev pathMax : Nat := 255

/-- The node index that names no node (R8: "511 is never a node"). -/
abbrev noNode : BitVec 9 := 511#9

/-- The first internal-node slot, the reset value of `NEXT` (R8, R16). -/
abbrev firstInternal : BitVec 9 := 256#9

/-- The width the model gives a value on the read port: that of the widest entry (R59, log entry 19). -/
abbrev portBits : Nat := 264

end Sys2Proof.Config
end

