-- ==== Sys2Proof/Machine/State.lean ====
section
/-! DEFINITION. The state of the machine as plain data: the CORE's registers and memories (spec/10_state.md, rules
R13 to R23), the host-side streams a step reads and writes (R27), and what the host does (rules R48, R70, R232). -/

namespace Sys2Proof.Machine

/-- `PHASE`, `STATUS[2:1]` (R14). The reserved value 3 is never taken and has no constructor (log entry 18). -/
inductive Phase where
  | idle
  | queue
  | tree
deriving DecidableEq, Repr

/-- The fields of `STATUS` (R13). The 8-bit register is the view `statusBits`. -/
structure Status where
  /-- A fault has been raised and not cleared. -/
  fault : Bool
  /-- Rule R14. -/
  phase : Phase
  /-- `ST` holds the table of the tree at `ROOT`. -/
  stv : Bool
  /-- The reader has been initialised by `RINIT`. -/
  rv : Bool
  /-- `RNEXT` has returned "end of message". -/
  eom : Bool
  /-- `OUTB` holds the byte the last `RNEXT` decoded. -/
  outv : Bool
  /-- `XN` holds the node the last `QEXT` extracted. -/
  xnv : Bool
deriving DecidableEq, Repr

/-- A node record of `TM` with `v` = 1 (R21): a leaf or an internal node (log entry 11). -/
inductive Node where
  | leaf (sym : Byte) (w : Weight)
  | internal (w : Weight) (l r : NodeIdx)
deriving DecidableEq, Repr

/-- A memory of whole entries (R41): pairs of an index and an entry, in one canonical form (log entry 13). -/
abbrev Memory (α : Type) := List (Nat × α)

/-- The registers and memories of the CORE (R13 to R23). `QLEN`, `QM`, `NSYM` and `TOTAL` are views (log entry 10). -/
structure CoreState where
  /-- Register 0, `STATUS` (R13). -/
  status : Status
  /-- Register 1, `ERR` (R15). -/
  err : BitVec 4
  /-- Register 2, `ERRINFO` (R15). -/
  errinfo : BitVec 32
  /-- The queue `Q`, minimum first (R23): `QLEN` is its length, `QM` its entries. -/
  queue : List NodeIdx
  /-- Register 4, `ROOT` (R16). -/
  root : NodeIdx
  /-- Register 5, `NEXT` (R16). -/
  nextNode : NodeIdx
  /-- Register 6, `XN` (R17). -/
  xn : NodeIdx
  /-- Register 7, `OUTB` (R17). -/
  outb : Byte
  /-- Register 8, `WACC` (R18). -/
  wacc : Byte
  /-- Register 9, `WCNT` (R18). -/
  wcnt : BitVec 3
  /-- Register 10, `RACC` (R19). -/
  racc : Byte
  /-- Register 11, `RCNT` (R19). -/
  rcnt : BitVec 3
  /-- Register 12, `RREM` (R19). -/
  rrem : Weight
  /-- `FT`, the frequency table (R20): an unlisted byte has count 0. -/
  ft : Memory Count
  /-- `TM`, the tree memory (R21): an unlisted index has `v` = 0. -/
  tm : Memory Node
  /-- `ST`, the symbol table (R22): an unlisted byte has `v` = 0 (log entry 12). -/
  st : Memory Path
deriving DecidableEq, Repr

/-- What the host does with one stream request: the free input of rule R48. -/
inductive HostReply where
  /-- The request is served as R45 to R47 say. -/
  | serves
  /-- The request fails with `code` (U15). `pos` is where the source stands after a failed `SrcRead` or `SrcRewind`
  (U8), `reached` says whether the byte of a failed `SnkWrite` reached the sink (U6). -/
  | fails (code : BitVec 32) (pos : Nat) (reached : Bool)
  /-- The reset input is asserted before the request is answered: the command is abandoned (R220; log entry 7). -/
  | resets
  /-- The request is never answered (R231). -/
  | never
deriving DecidableEq, Repr

/-- What the host does next. -/
inductive HostEvent where
  /-- It presents a command word (R70). -/
  | command (w : CmdWord)
  /-- It presents a command word and asserts the reset input before the answer, after the last stream request the
  command makes, if it makes any: the command is abandoned (R220; log entry 7). -/
  | commandReset (w : CmdWord)
  /-- It asserts the reset input while no command runs (R220). -/
  | reset
  /-- It gives the CORE another source, standing at `pos`, and another sink (R226; program P4). -/
  | streams (bytes : List Byte) (pos : Nat) (sink : List Byte)
deriving DecidableEq, Repr

/-- The answer to a command (R70). -/
inductive Answer where
  | done
  | fault (code : BitVec 4)
  | refused
deriving DecidableEq, Repr

/-- The host side (R27) and the model's own input and output fields (log entries 2, 5, 9). -/
structure HostSide where
  /-- `SRC.bytes` (R27). -/
  src : List Byte
  /-- `SRC.pos` (R27). -/
  pos : Nat
  /-- `SNK`, oldest byte first (R27). -/
  snk : List Byte
  /-- The replies to the coming stream requests, next first; a request past the end is served (log entry 2). -/
  replies : List HostReply
  /-- What the host does next, first first (R232; log entry 5). -/
  script : List HostEvent
  /-- The answers given, oldest first (R232). -/
  answers : List Answer
deriving DecidableEq, Repr

/-- The machine: the CORE and the host side of its ports. -/
structure State where
  core : CoreState
  host : HostSide
deriving DecidableEq, Repr

/-- The kinds of the spec's faults (R191). `InvalidUtf8Error` is never raised and has no constructor (R194, U10). -/
inductive ErrorKind where
  | emptyInput
  | emptyQueue
  | truncatedHeader
  | io
  | malformedHeader
  | truncatedPayload
  | headerCountOverflow
  | countOverflow
  | symbolNotInTable
  | sequence
  | illegalCommand
deriving DecidableEq, Repr

/-- The two indexed memories whose range a rule could leave in a state that breaks R24. -/
inductive Space where
  | tm
  | qm
deriving DecidableEq, Repr

/-- Why the model's machine stops. The spec's own faults are no stops: they are taken (R196) and the machine goes on. -/
inductive Fault where
  /-- Raised by `QINS`, `TJOIN`, `TREDUCE`, `SDERIVE`, `RNEXT` (and `ENCODE`, `DECODE` through them) when an entry
  outside `TM` or `QM` would be accessed: R41 says it never occurs, and it needs a state that breaks R24.
  Safe (log entry 14). -/
  | noSuchEntry (space : Space)
  /-- Raised by `QINS`, `TJOIN`, `TREDUCE`, `SDERIVE` when the recursion of R100 or R131 does not end within the
  records of `TM` or within 255 decisions: it needs a state that breaks R24. Safe (log entry 15). It is also what a
  loop of the pseudocode would give at the end of its bound, which no state reaches (log entry 25). -/
  | endlessWalk
  /-- Raised by every command that makes a stream request, when the host's reply is `never` (R231: the command
  waits for ever). Safe (log entry 8). -/
  | hostNeverAnswers
deriving DecidableEq, Repr

/-- Why the model has no meaning for a command. -/
inductive Refusal where
  /-- Raised by `exec` for a command that is not modelled yet; safe. No arm raises it: all eighteen are modelled. -/
  | notModelled (mnemonic : String)
deriving DecidableEq, Repr

/-- The CORE right after reset (R28): every register and memory at the value of its table. -/
def CoreState.reset : CoreState :=
  { status :=
      { fault := false, phase := .idle, stv := false, rv := false, eom := false, outv := false, xnv := false }
    err := 0#4
    errinfo := 0#32
    queue := []
    root := Config.noNode
    nextNode := Config.firstInternal
    xn := Config.noNode
    outb := 0#8
    wacc := 0#8
    wcnt := 0#3
    racc := 0#8
    rcnt := 0#3
    rrem := 0#72
    ft := []
    tm := []
    st := [] }

/-- The host side beside a CORE out of reset: the streams are the host's and reset does not touch them (R28); the
model's State.reset takes them empty, with nothing scripted (DESIGN CHOICE, log entries 1, 2, 5, 9). -/
def HostSide.reset : HostSide :=
  { src := [], pos := 0, snk := [], replies := [], script := [], answers := [] }

/-- The machine right after reset (R28, R220). -/
def State.reset : State := { core := CoreState.reset, host := HostSide.reset }

end Sys2Proof.Machine
end

