-- ==== Sys2Proof/Machine/Ops.lean ====
section
/-! DEFINITION. The named operations over memories, streams and registers, and the fault mechanism: entry (rule R196
of spec/60_exceptions.md) and the way out of it (`CLR` and reset, R181, R209, R220). -/

namespace Sys2Proof.Machine

/-! ### Memories of whole entries (R41) -/

/-- The entry listed at index `a`, none where the memory lists nothing there. -/
def Memory.read? {α : Type} : Memory α → Nat → Option α
  | [], _ => none
  | (k, x) :: m, a => if a = k then some x else Memory.read? m a

/-- `MemWrite`: the entry at index `a` becomes `x`, every other entry stays (R41). -/
def Memory.set {α : Type} : Memory α → Nat → α → Memory α
  | [], a, x => [(a, x)]
  | (k, y) :: m, a, x =>
    if a < k then (a, x) :: (k, y) :: m
    else if a = k then (a, x) :: m
    else (k, y) :: Memory.set m a x

/-- The write of the value an unlisted index reads as: the index is no longer listed. -/
def Memory.erase {α : Type} : Memory α → Nat → Memory α
  | [], _ => []
  | (k, y) :: m, a => if a = k then Memory.erase m a else (k, y) :: Memory.erase m a

/-- The canonical form: indices strictly rising and inside the space (log entry 13). -/
abbrev Memory.wf {α : Type} (size : Nat) (m : Memory α) : Prop :=
  m.Pairwise (fun e e' => e.1 < e'.1) ∧ ∀ e ∈ m, e.1 < size

/-- `FT[b]` (R20): 0 where nothing is listed. -/
def countAt (ft : Memory Count) (b : Byte) : Count := (Memory.read? ft b.toNat).getD 0#64

/-- `FT[b] <- c` (R20): a count of 0 is the absence of an entry. -/
def setCount (ft : Memory Count) (b : Byte) (c : Count) : Memory Count :=
  if c = 0#64 then Memory.erase ft b.toNat else Memory.set ft b.toNat c

/-- The canonical form of `FT`: also, no count of 0 is listed. -/
abbrev countsWf (ft : Memory Count) : Prop := Memory.wf Config.nsymMax ft ∧ ∀ e ∈ ft, e.2 ≠ 0#64

/-- `TM[i]` (R21): none for a record with `v` = 0. -/
def nodeAt (tm : Memory Node) (i : NodeIdx) : Option Node := Memory.read? tm i.toNat

/-- `TM[i] <- n` (R21). -/
def setNode (tm : Memory Node) (i : NodeIdx) (n : Node) : Memory Node := Memory.set tm i.toNat n

/-- `ST[b]` (R22): none for a record with `v` = 0. -/
def pathAt (st : Memory Path) (b : Byte) : Option Path := Memory.read? st b.toNat

/-- `ST[b] <- p` with `v` = 1 (R22). -/
def setPath (st : Memory Path) (b : Byte) (p : Path) : Memory Path := Memory.set st b.toNat p

/-! ### Updates of the state -/

/-- The state with the CORE's registers and memories replaced. -/
def State.withCore (s : State) (c : CoreState) : State := { s with core := c }

/-- The state with the source position replaced. -/
def State.withPos (s : State) (p : Nat) : State := { s with host := { s.host with pos := p } }

/-- The state with the sink replaced. -/
def State.withSnk (s : State) (k : List Byte) : State := { s with host := { s.host with snk := k } }

/-- The state with the coming replies replaced. -/
def State.withReplies (s : State) (rs : List HostReply) : State := { s with host := { s.host with replies := rs } }

/-- The state with the host's script replaced. -/
def State.withScript (s : State) (es : List HostEvent) : State := { s with host := { s.host with script := es } }

/-- The state with other streams: the position stays within the source (R27). -/
def State.withStreams (s : State) (bytes : List Byte) (pos : Nat) (sink : List Byte) : State :=
  { s with host := { s.host with src := bytes, pos := min pos bytes.length, snk := sink } }

/-- The state with one more answer given (R70). -/
def State.answered (s : State) (a : Answer) : State := { s with host := { s.host with answers := s.host.answers ++ [a] } }

/-- The state with the list of answers replaced. -/
def State.withAnswers (s : State) (as : List Answer) : State := { s with host := { s.host with answers := as } }

/-! ### Results of a rule's pseudocode (R7) -/

/-- How the pseudocode of a rule ends: with a value, with a `raise` (R196), abandoned by reset (R220), or in one of
the model's stops. The state in it is the one its last statement left (R207). -/
inductive Res (α : Type) where
  | ok (a : α) (s : State)
  | raised (k : ErrorKind) (info : BitVec 32) (s : State)
  | abandoned (s : State)
  | stopped (f : Fault)
deriving DecidableEq, Repr

/-- One statement after another: the second runs only where the first ended with a value (R7, R60). -/
def Res.andThen {α β : Type} (r : Res α) (f : α → State → Res β) : Res β :=
  match r with
  | .ok a s => f a s
  | .raised k info s => .raised k info s
  | .abandoned s => .abandoned s
  | .stopped x => .stopped x

/-! ### The stream primitives (R45 to R48) -/

/-- The reply to the next stream request: the free input of R48; past the end of the list, served (log entry 2). -/
def State.nextReply (s : State) : HostReply := s.host.replies.headD .serves

/-- The state with that reply used up. -/
def State.dropReply (s : State) : State := s.withReplies s.host.replies.tail

/-- `SrcRead()` (R45), a failure raised as `IoError` (R195): none is `eof`. After a failure the position is the
reply's, anywhere from 0 to the length (U8, log entry 3). -/
def srcRead (s : State) : Res (Option Byte) :=
  match s.nextReply with
  | .serves =>
    match s.host.src[s.host.pos]? with
    | some v => .ok (some v) (s.dropReply.withPos (s.host.pos + 1))
    | none => .ok none s.dropReply
  | .fails e p _ => .raised .io e (s.dropReply.withPos (min p s.host.src.length))
  | .resets => .abandoned s.dropReply
  | .never => .stopped .hostNeverAnswers

/-- `SrcRewind()` (R46), a failure raised as `IoError` (R195). -/
def srcRewind (s : State) : Res Unit :=
  match s.nextReply with
  | .serves => .ok () (s.dropReply.withPos 0)
  | .fails e p _ => .raised .io e (s.dropReply.withPos (min p s.host.src.length))
  | .resets => .abandoned s.dropReply
  | .never => .stopped .hostNeverAnswers

/-- `SnkWrite(v)` (R47), a failure raised as `IoError` (R195). Whether the byte of a failed write reached the sink is
the reply's (U6, log entry 4). -/
def snkWrite (v : Byte) (s : State) : Res Unit :=
  match s.nextReply with
  | .serves => .ok () (s.dropReply.withSnk (s.host.snk ++ [v]))
  | .fails e _ reached => .raised .io e (s.dropReply.withSnk (if reached then s.host.snk ++ [v] else s.host.snk))
  | .resets => .abandoned s.dropReply
  | .never => .stopped .hostNeverAnswers

/-- `SnkWrite` of each byte of a list, in order (R61). -/
def snkWriteAll : List Byte → State → Res Unit
  | [], s => .ok () s
  | v :: vs, s => (snkWrite v s).andThen fun _ s => snkWriteAll vs s

/-- The bytes of the source not yet read. -/
def State.unread (s : State) : Nat := s.host.src.length - s.host.pos

/-! ### Fault entry and the way out (R191, R196, R209) -/

/-- The code of a kind in `ERR` (R191). -/
def errCode : ErrorKind → BitVec 4
  | .emptyInput => 1#4
  | .emptyQueue => 2#4
  | .truncatedHeader => 3#4
  | .io => 5#4
  | .malformedHeader => 6#4
  | .truncatedPayload => 7#4
  | .headerCountOverflow => 8#4
  | .countOverflow => 9#4
  | .symbolNotInTable => 10#4
  | .sequence => 11#4
  | .illegalCommand => 12#4

/-- `raise E(info)` (R196): `ERR`, `ERRINFO` and `FAULT` are written, nothing else is saved or changed. -/
def State.enterFault (s : State) (k : ErrorKind) (info : BitVec 32) : State :=
  { s with core := { s.core with err := errCode k, errinfo := info, status := { s.core.status with fault := true } } }

/-- The end of a command that raises: the fault is entered and the answer is `fault(code)` (R196, R70). -/
def takeFault (k : ErrorKind) (info : BitVec 32) (s : State) : State :=
  (s.enterFault k info).answered (.fault (errCode k))

/-- The CORE in its reset state, streams untouched: `CLR` (R181) and the reset input (R220), the only ways out of the
fault state (R209). -/
def State.cleared (s : State) : State := s.withCore CoreState.reset

/-- The outcome of a command from the way its pseudocode ended: answered `done`, faulted (R196), abandoned at a stream
request without an answer and reset (R220), or stopped. -/
def conclude (r : Res Unit) : Host.Outcome State Fault Refusal :=
  match r with
  | .ok _ s => .next (s.answered .done)
  | .raised k info s => .next (takeFault k info s)
  | .abandoned s => .next s.cleared
  | .stopped f => .fault f

/-- A command abandoned by the reset input after its last stream request and before its answer (R220): the streams are as
the command left them, the CORE is in its reset state, and the answers are those `given` before it. A stop is no end of a
command and stays. -/
def cutShort (given : List Answer) (o : Host.Outcome State Fault Refusal) : Host.Outcome State Fault Refusal :=
  match o with
  | .next s => .next (s.cleared.withAnswers given)
  | .fault f => .fault f
  | .refused r => .refused r

end Sys2Proof.Machine
end

