-- ==== Sys2Proof/Machine/Operands.lean ====
section
/-! DEFINITION. The functions of the state that commands take their operands from: rule R29 of spec/10_state.md and
the order of the queue, rules R100 and R101 of spec/41_priority_queue.md. -/

namespace Sys2Proof.Machine

/-! ### The frequency table (R29) -/

/-- The 256 byte values in ascending order. -/
def allBytes : List Byte := (List.range Config.nsymMax).map (BitVec.ofNat 8)

/-- `present(b)` (R29). -/
def present (ft : Memory Count) (b : Byte) : Bool := countAt ft b != 0#64

/-- The present bytes in ascending order (R20). -/
def presentBytes (ft : Memory Count) : List Byte := allBytes.filter (present ft)

/-- `nsym` (R29), 0 to 256. -/
def nsym (ft : Memory Count) : Nat := (presentBytes ft).length

/-- `total` (R29): the sum of all counts, 72 bits. -/
def total (ft : Memory Count) : Weight := (allBytes.map fun b => (countAt ft b).setWidth 72).sum

/-! ### Node records (R21) -/

/-- The field `sym` of a record: 0 in an internal node and where `v` = 0. -/
def symOf : Option Node → Byte
  | some (.leaf sym _) => sym
  | some (.internal _ _ _) => 0#8
  | none => 0#8

/-- The field `w` of a record: 0 where `v` = 0. -/
def weightOf : Option Node → Weight
  | some (.leaf _ w) => w
  | some (.internal w _ _) => w
  | none => 0#72

/-- `weight(i)` (R29). -/
def weight (tm : Memory Node) (i : NodeIdx) : Weight := weightOf (nodeAt tm i)

/-- The index of the leaf of a byte: the byte value itself (R21, R42). -/
def leafIdx (b : Byte) : NodeIdx := b.setWidth 9

/-- `valid(i)` (R29). -/
def validNode (tm : Memory Node) (i : NodeIdx) : Bool := i != Config.noNode && (nodeAt tm i).isSome

/-- `i` is a child of the node. -/
def Node.hasChild (n : Node) (i : NodeIdx) : Bool :=
  match n with
  | .leaf _ _ => false
  | .internal _ l r => l == i || r == i

/-- Some valid internal node has `i` as a child: `parentOf(i)` exists (R29). -/
def hasParent (tm : Memory Node) (i : NodeIdx) : Bool := tm.any fun e => e.2.hasChild i

/-- `freeRoot(i)` (R29). -/
def freeRoot (tm : Memory Node) (i : NodeIdx) : Bool := validNode tm i && !hasParent tm i

/-- `inQ(i)` (R29). -/
def inQueue (q : List NodeIdx) (i : NodeIdx) : Bool := q.contains i

/-! ### The order of the queue (R100, R101) -/

/-- `lml(i)` (R100) with a bound on the records visited. -/
def leftmostFrom (tm : Memory Node) : Nat → NodeIdx → Byte
  | 0, i => symOf (nodeAt tm i)
  | n + 1, i =>
    match nodeAt tm i with
    | some (.internal _ l _) => leftmostFrom tm n l
    | some (.leaf sym _) => sym
    | none => 0#8

/-- `lml(i)`, the byte of the leftmost leaf (R100). -/
def leftmost (tm : Memory Node) (i : NodeIdx) : Byte := leftmostFrom tm Config.nodeMax i

/-- `lt(i, j)` (R101): weight ascending, then the byte of the leftmost leaf ascending. -/
def nodeLt (tm : Memory Node) (i j : NodeIdx) : Bool :=
  (weight tm i).ult (weight tm j) || (weight tm i == weight tm j && (leftmost tm i).ult (leftmost tm j))

/-- The stop of a walk down left children that meets index 511 or does not end: none where R100 is defined
(log entries 14, 15). -/
def leftWalkFault (tm : Memory Node) : Nat → NodeIdx → Option Fault
  | 0, _ => some .endlessWalk
  | n + 1, i =>
    if i = Config.noNode then some (.noSuchEntry .tm)
    else match nodeAt tm i with
      | some (.internal _ l _) => leftWalkFault tm n l
      | some (.leaf _ _) => none
      | none => none

/-- The first stop among the nodes the comparator is asked about: none where all their `lml` are defined. -/
def orderFault (tm : Memory Node) (is : List NodeIdx) : Option Fault :=
  is.findSome? (leftWalkFault tm Config.nodeMax)

/-- The queue with `i` at its place: `p` = the number of entries below it; `Q[0 .. p-1] ++ [i] ++ Q[p ..]`
(R104, R121). -/
def placeInQueue (tm : Memory Node) (q : List NodeIdx) (i : NodeIdx) : List NodeIdx :=
  let p := q.countP fun k => nodeLt tm k i
  q.take p ++ i :: q.drop p

/-- The list of nodes sorted ascending by the comparator, each put at its place in turn (R103, log entry 21). -/
def sortNodes (tm : Memory Node) (is : List NodeIdx) : List NodeIdx := is.foldl (placeInQueue tm) []

end Sys2Proof.Machine
end

