-- ==== Sys2Proof/Machine/Flags.lean ====
section
/-! DEFINITION. The status register as bits (rule R13 of spec/10_state.md), the preconditions of commands on it (rule R80
of spec/30_encoding.md) and the writes of its flags (each family's "Flags written"). -/

namespace Sys2Proof.Machine

/-- The value of `PHASE` (R14). -/
def phaseBits : Phase → BitVec 2
  | .idle => 0#2
  | .queue => 1#2
  | .tree => 2#2

/-- `STATUS` as its 8 bits: `XNV`, `OUTV`, `EOM`, `RV`, `STV`, `PHASE`, `FAULT` from bit 7 down (R13). -/
def statusBits (st : Status) : BitVec 8 :=
  BitVec.ofBool st.xnv ++ BitVec.ofBool st.outv ++ BitVec.ofBool st.eom ++ BitVec.ofBool st.rv ++
    BitVec.ofBool st.stv ++ phaseBits st.phase ++ BitVec.ofBool st.fault

/-- The precondition of a command on `STATUS` beyond `FAULT = 0`: the table of R80. -/
def precondition (i : Instr) (st : Status) : Bool :=
  match i with
  | .fscan | .hread | .qbuild => st.phase == .idle
  | .qins _ | .qext | .tjoin | .treduce => st.phase == .queue
  | .sderive | .rinit => st.phase == .tree
  | .wsym _ => st.phase == .tree && st.stv
  | .rnext => st.phase == .tree && st.rv && !st.eom
  | .wbit _ | .wflush | .hwrite | .srew | .encode | .decode | .clr => true

/-- `QBUILD`: `PHASE <- QUEUE` (R103). -/
def Status.enterQueue (st : Status) : Status := { st with phase := .queue }

/-- `TREDUCE`: `PHASE <- TREE`, `XNV <- 0` (R122). -/
def Status.enterTree (st : Status) : Status := { st with phase := .tree, xnv := false }

/-- `QEXT`: `XNV <- 1`; `TJOIN` and `QINS` of the node: `XNV <- 0` (R104, R105, R121). -/
def Status.setXnv (st : Status) (b : Bool) : Status := { st with xnv := b }

/-- `SDERIVE`: `STV <- 1` (R131). -/
def Status.setStv (st : Status) : Status := { st with stv := true }

/-- `RINIT`: `RV <- 1`, `OUTV <- 0`, `EOM <- 0` (R151). -/
def Status.readerFresh (st : Status) : Status := { st with rv := true, outv := false, eom := false }

/-- `RNEXT` at the end of the message: `EOM <- 1`, `OUTV <- 0` (R152). -/
def Status.endOfMessage (st : Status) : Status := { st with eom := true, outv := false }

/-- `RNEXT` that decodes a byte: `OUTV <- 1` (R152). -/
def Status.setOutv (st : Status) : Status := { st with outv := true }

end Sys2Proof.Machine
end

