-- ==== Sys2Proof/Machine/Accept.lean ====
section
/-! DEFINITION. The acceptance of a presented word: rule R77 of spec/30_encoding.md, in its fixed order. -/

namespace Sys2Proof.Machine

/-- Steps 1, 3 and 4 of R77 for a word that decodes to `i`: refused while faulted (all but `CLR`), else
`SequenceError(word)` where the precondition fails, else the command's rule. -/
def perform (i : Instr) (s : State) (rule : State → Res Unit) : Host.Outcome State Fault Refusal :=
  if s.core.status.fault = true ∧ i ≠ .clr then .next (s.answered .refused)
  else if precondition i s.core.status = true then conclude (rule s)
  else .next (takeFault .sequence ((encode i).setWidth 32) s)

/-- Steps 1 and 2 of R77 for a reserved word: refused while faulted, else `IllegalCommandError(word)` (R75, R203). -/
def performReserved (w : CmdWord) (s : State) : Host.Outcome State Fault Refusal :=
  if s.core.status.fault = true then .next (s.answered .refused)
  else .next (takeFault .illegalCommand (w.setWidth 32) s)

end Sys2Proof.Machine
end

