-- ==== Sys2Proof/Machine/FreqTable.lean ====
section
/-! DEFINITION. The frequency table unit: `FSCAN`, rules R91 to R93 of spec/40_frequency_table.md. -/

namespace Sys2Proof.Machine

/-- One byte counted (R91, R92): a count of 2^64 - 1 raises `CountOverflowError(b)` and stays. -/
def countByte (b : Byte) (s : State) : Res Unit :=
  let c := countAt s.core.ft b
  if c = BitVec.allOnes 64 then .raised .countOverflow (b.setWidth 32) s
  else .ok () (s.withCore { s.core with ft := setCount s.core.ft b (c + 1#64) })

/-- The loop of R91. The first argument bounds its turns: each takes a byte of the source (log entry 25). -/
def fscanLoop : Nat → State → Res Unit
  | 0, _ => .stopped .endlessWalk
  | n + 1, s => (srcRead s).andThen fun r s =>
    match r with
    | none => .ok () s
    | some b => (countByte b s).andThen fun _ s => fscanLoop n s

/-- The pseudocode of `FSCAN` (R91). -/
def fscanRule (s : State) : Res Unit := fscanLoop (s.unread + 1) s

/-- `FSCAN` (R91). -/
def execFscan (s : State) : Host.Outcome State Fault Refusal := perform .fscan s fscanRule

end Sys2Proof.Machine
end

