-- ==== Sys2Proof/Machine/Queue.lean ====
section
/-! DEFINITION. The priority queue unit: `QBUILD`, `QINS`, `QEXT`, rules R103 to R105 of spec/41_priority_queue.md. -/

namespace Sys2Proof.Machine

/-- The leaf of a byte written at its slot (R103). -/
def putLeaf (ft : Memory Count) (tm : Memory Node) (b : Byte) : Memory Node :=
  setNode tm (leafIdx b) (.leaf b ((countAt ft b).setWidth 72))

/-- `TM` with a leaf for each present byte, in ascending order (R103). -/
def putLeaves (ft : Memory Count) (tm : Memory Node) : Memory Node := (presentBytes ft).foldl (putLeaf ft) tm

/-- The pseudocode of `QBUILD` (R103). -/
def qbuildRule (s : State) : Res Unit :=
  if nsym s.core.ft = 0 then .raised .emptyInput 0#32 s
  else
    let tm := putLeaves s.core.ft s.core.tm
    .ok () (s.withCore { s.core with
      tm := tm
      queue := sortNodes tm ((presentBytes s.core.ft).map leafIdx)
      status := s.core.status.enterQueue })

/-- `QINS` may take the node: a valid free root not in the queue (R104). -/
def eligible (c : CoreState) (idx : NodeIdx) : Bool :=
  idx != Config.noNode && validNode c.tm idx && freeRoot c.tm idx && !inQueue c.queue idx

/-- The pseudocode of `QINS` (R104). The two stops need a state that breaks R24 (log entries 14, 15). -/
def qinsRule (idx : NodeIdx) (s : State) : Res Unit :=
  if eligible s.core idx = false then .raised .sequence ((encode (.qins idx)).setWidth 32) s
  else match orderFault s.core.tm (idx :: s.core.queue) with
    | some f => .stopped f
    | none =>
      if Config.nsymMax ≤ s.core.queue.length then .stopped (.noSuchEntry .qm)
      else
        let was := s.core.status.xnv && s.core.xn == idx
        .ok () (s.withCore { s.core with
          queue := placeInQueue s.core.tm s.core.queue idx
          xn := if was then Config.noNode else s.core.xn
          status := s.core.status.setXnv (s.core.status.xnv && !was) })

/-- The pseudocode of `QEXT` (R105). -/
def qextRule (s : State) : Res Unit :=
  match s.core.queue with
  | [] => .raised .emptyQueue 0#32 s
  | a :: q => .ok () (s.withCore { s.core with queue := q, xn := a, status := s.core.status.setXnv true })

/-- `QBUILD` (R103). -/
def execQbuild (s : State) : Host.Outcome State Fault Refusal := perform .qbuild s qbuildRule

/-- `QINS idx` (R104). -/
def execQins (idx : NodeIdx) (s : State) : Host.Outcome State Fault Refusal := perform (.qins idx) s (qinsRule idx)

/-- `QEXT` (R105). -/
def execQext (s : State) : Host.Outcome State Fault Refusal := perform .qext s qextRule

end Sys2Proof.Machine
end

