-- ==== Sys2Proof/Machine/Reader.lean ====
section
/-! DEFINITION. The bitstream reader: `RINIT`, `RNEXT`, rules R151 to R156 of spec/45_bitstream_reader.md. -/

namespace Sys2Proof.Machine

/-- The pseudocode of `RINIT` (R151). -/
def rinitRule (s : State) : Res Unit :=
  .ok () (s.withCore { s.core with
    rrem := total s.core.ft
    racc := 0#8
    rcnt := 0#3
    outb := 0#8
    status := s.core.status.readerFresh })

/-- One payload bit (R152): bit 0 of a fresh source byte where none is held, else bit 0 of `RACC`; the rest is kept
shifted down (R19, R53). -/
def readBit (s : State) : Res Bool :=
  if s.core.rcnt = 0#3 then
    (srcRead s).andThen fun r s =>
      match r with
      | none => .raised .truncatedPayload 0#32 s
      | some v => .ok (v.getLsbD 0) (s.withCore { s.core with racc := v >>> 1, rcnt := 7#3 })
  else
    .ok (s.core.racc.getLsbD 0) (s.withCore { s.core with racc := s.core.racc >>> 1, rcnt := s.core.rcnt - 1#3 })

/-- The payload bits still to be had: those held and those of the unread source bytes. -/
def State.bitsLeft (s : State) : Nat := s.core.rcnt.toNat + 8 * s.unread

/-- The tree walk of R152 from node `i`: the byte of the leaf it ends at. The first argument bounds its turns: each takes
a payload bit (log entry 25). Index 511 is no record (log entry 14). -/
def walkBits : Nat → NodeIdx → State → Res Byte
  | 0, _, _ => .stopped .endlessWalk
  | n + 1, i, s =>
    if i = Config.noNode then .stopped (.noSuchEntry .tm)
    else match nodeAt s.core.tm i with
      | some (.internal _ l r) =>
        (readBit s).andThen fun bit s => walkBits n (match decisionOf bit with | .left => l | .right => r) s
      | some (.leaf sym _) => .ok sym s
      | none => .ok 0#8 s

/-- The pseudocode of `RNEXT` (R152). -/
def rnextRule (s : State) : Res Unit :=
  if s.core.rrem = 0#72 then
    .ok () (s.withCore { s.core with outb := 0#8, status := s.core.status.endOfMessage })
  else
    (walkBits (s.bitsLeft + 1) s.core.root s).andThen fun sym s =>
      .ok () (s.withCore { s.core with outb := sym, rrem := s.core.rrem - 1#72, status := s.core.status.setOutv })

/-- `RINIT` (R151). -/
def execRinit (s : State) : Host.Outcome State Fault Refusal := perform .rinit s rinitRule

/-- `RNEXT` (R152). -/
def execRnext (s : State) : Host.Outcome State Fault Refusal := perform .rnext s rnextRule

end Sys2Proof.Machine
end

