-- ==== Sys2Proof/Machine/SymTable.lean ====
section
/-! DEFINITION. The symbol table unit: `SDERIVE`, rules R131 and R132 of spec/43_symbol_table.md. -/

namespace Sys2Proof.Machine

/-- `walk(i, path)` of R131, the left subtree first (D21). The first argument bounds the depth: 256 records give a path
of at most 255 decisions. Its stops need a state that breaks R24 (log entries 14, 15). -/
def deriveWalk (tm : Memory Node) : Nat → NodeIdx → Path → Memory Path → Except Fault (Memory Path)
  | 0, _, _, _ => .error .endlessWalk
  | n + 1, i, p, st =>
    if i = Config.noNode then .error (.noSuchEntry .tm)
    else match nodeAt tm i with
      | some (.internal _ l r) =>
        match deriveWalk tm n l (p ++ [.left]) st with
        | .ok st' => deriveWalk tm n r (p ++ [.right]) st'
        | .error f => .error f
      | some (.leaf sym _) => .ok (setPath st sym p)
      | none => .ok (setPath st 0#8 p)

/-- The pseudocode of `SDERIVE` (R131): the table is emptied, then the walk starts at `ROOT` with the empty path. -/
def sderiveRule (s : State) : Res Unit :=
  match deriveWalk s.core.tm (Config.pathMax + 1) s.core.root [] [] with
  | .ok st => .ok () (s.withCore { s.core with st := st, status := s.core.status.setStv })
  | .error f => .stopped f

/-- `SDERIVE` (R131). -/
def execSderive (s : State) : Host.Outcome State Fault Refusal := perform .sderive s sderiveRule

end Sys2Proof.Machine
end

