-- ==== Sys2Proof/Machine/System.lean ====
section
/-! DEFINITION. The system commands `CLR` and `SREW`, rules R181 and R182 of spec/47_system.md. -/

namespace Sys2Proof.Machine

/-- The pseudocode of `CLR` (R181). -/
def clrRule (s : State) : Res Unit := .ok () s.cleared

/-- The pseudocode of `SREW` (R182). -/
def srewRule (s : State) : Res Unit := srcRewind s

/-- `CLR` (R181). -/
def execClr (s : State) : Host.Outcome State Fault Refusal := perform .clr s clrRule

/-- `SREW` (R182). -/
def execSrew (s : State) : Host.Outcome State Fault Refusal := perform .srew s srewRule

end Sys2Proof.Machine
end

