-- ==== Sys2Proof/Machine/Tree.lean ====
section
/-! DEFINITION. The tree synthesizer: `TJOIN`, `TREDUCE`, rules R121 and R122 of spec/42_tree_reduce.md. -/

namespace Sys2Proof.Machine

/-- The node a join makes of its two children, the smaller on the left (R121). The sum is exact in every state that
meets R24 (R185, log entry 20). -/
def joinNode (tm : Memory Node) (a b : NodeIdx) : Node := .internal (weight tm a + weight tm b) a b

/-- The pseudocode of `TJOIN` (R121). The two stops need a state that breaks R24 (log entries 14, 15). -/
def tjoinRule (s : State) : Res Unit :=
  match s.core.queue with
  | a :: b :: q =>
    let n := s.core.nextNode
    if n = Config.noNode then .stopped (.noSuchEntry .tm)
    else
      let tm := setNode s.core.tm n (joinNode s.core.tm a b)
      match orderFault tm (n :: q) with
      | some f => .stopped f
      | none => .ok () (s.withCore { s.core with
          tm := tm
          queue := placeInQueue tm q n
          nextNode := n + 1#9
          xn := Config.noNode
          status := s.core.status.setXnv false })
  | [_] => .raised .emptyQueue 1#32 s
  | [] => .raised .emptyQueue 0#32 s

/-- The loop of R122: joins until one entry is left. The first argument bounds its turns: each join takes one entry
off the queue (log entry 25). -/
def reduceLoop : Nat → State → Res Unit
  | 0, _ => .stopped .endlessWalk
  | n + 1, s =>
    if s.core.queue.length ≤ 1 then .ok () s
    else (tjoinRule s).andThen fun _ s => reduceLoop n s

/-- The statements of R122 after its loop: the last node becomes the root and leaves the queue. -/
def designateRoot (s : State) : Res Unit :=
  .ok () (s.withCore { s.core with
    root := s.core.queue.headD Config.noNode
    queue := []
    xn := Config.noNode
    status := s.core.status.enterTree })

/-- The pseudocode of `TREDUCE` (R122). -/
def treduceRule (s : State) : Res Unit :=
  if s.core.queue.length = 0 then .raised .emptyQueue 0#32 s
  else (reduceLoop s.core.queue.length s).andThen fun _ s => designateRoot s

/-- `TJOIN` (R121). -/
def execTjoin (s : State) : Host.Outcome State Fault Refusal := perform .tjoin s tjoinRule

/-- `TREDUCE` (R122). -/
def execTreduce (s : State) : Host.Outcome State Fault Refusal := perform .treduce s treduceRule

end Sys2Proof.Machine
end

