-- ==== Sys2Proof/Machine/Writer.lean ====
section
/-! DEFINITION. The bitstream writer: `WBIT`, `WSYM`, `WFLUSH`, rules R141 to R143 of spec/44_bitstream_writer.md. -/

namespace Sys2Proof.Machine

/-- The accumulator with a decision at bit `cnt`: `Left` sets the bit, `Right` leaves it (R141, R53). -/
def pushBit (acc : Byte) (cnt : BitVec 3) : Decision → Byte
  | .left => acc ||| (1#8 <<< cnt)
  | .right => acc

/-- The pseudocode of `WBIT d` (R141). -/
def wbitRule (d : Decision) (s : State) : Res Unit :=
  let acc := pushBit s.core.wacc s.core.wcnt d
  let s' := s.withCore { s.core with wacc := acc }
  if s.core.wcnt = 7#3 then
    (snkWrite acc s').andThen fun _ s => .ok () (s.withCore { s.core with wacc := 0#8, wcnt := 0#3 })
  else .ok () (s'.withCore { s'.core with wcnt := s'.core.wcnt + 1#3 })

/-- `WBIT` for each decision of a path, in root-to-leaf order (R142). -/
def writePath : Path → State → Res Unit
  | [], s => .ok () s
  | d :: ds, s => (wbitRule d s).andThen fun _ s => writePath ds s

/-- The pseudocode of `WSYM sym` (R142). -/
def wsymRule (sym : Byte) (s : State) : Res Unit :=
  match pathAt s.core.st sym with
  | none => .raised .symbolNotInTable (sym.setWidth 32) s
  | some p => writePath p s

/-- The pseudocode of `WFLUSH` (R143). -/
def wflushRule (s : State) : Res Unit :=
  if s.core.wcnt = 0#3 then .ok () s
  else (snkWrite s.core.wacc s).andThen fun _ s => .ok () (s.withCore { s.core with wacc := 0#8, wcnt := 0#3 })

/-- `WBIT d` (R141). -/
def execWbit (d : Decision) (s : State) : Host.Outcome State Fault Refusal := perform (.wbit d) s (wbitRule d)

/-- `WSYM sym` (R142). -/
def execWsym (sym : Byte) (s : State) : Host.Outcome State Fault Refusal := perform (.wsym sym) s (wsymRule sym)

/-- `WFLUSH` (R143). -/
def execWflush (s : State) : Host.Outcome State Fault Refusal := perform .wflush s wflushRule

end Sys2Proof.Machine
end

