-- ==== Sys2Proof/Machine/Container.lean ====
section
/-! DEFINITION. The container unit: `HWRITE`, `HREAD`, `ENCODE`, `DECODE`, rules R161 to R164 of spec/46_container.md; the
layout is that of rules R50 to R55 of spec/20_memory.md. -/

namespace Sys2Proof.Machine

/-! ### The header -/

/-- A count as its eight bytes, most significant first (R50, R161). -/
def countBytes (c : Count) : List Byte :=
  [c.extractLsb' 56 8, c.extractLsb' 48 8, c.extractLsb' 40 8, c.extractLsb' 32 8,
   c.extractLsb' 24 8, c.extractLsb' 16 8, c.extractLsb' 8 8, c.extractLsb' 0 8]

/-- A header entry: the byte value, then its count (R52). -/
def entryBytes (ft : Memory Count) (b : Byte) : List Byte := b :: countBytes (countAt ft b)

/-- The header: the header-length byte, then the entries in ascending order (R52, R161). -/
def headerBytes (ft : Memory Count) : List Byte :=
  BitVec.ofNat 8 (nsym ft) :: (presentBytes ft).flatMap (entryBytes ft)

/-- The pseudocode of `HWRITE` (R161). -/
def hwriteRule (s : State) : Res Unit :=
  if nsym s.core.ft = Config.nsymMax then .raised .headerCountOverflow 256#32 s
  else snkWriteAll (headerBytes s.core.ft) s

/-- `get()` of R162 with `n` header bytes read so far. -/
def headerGet (n : Nat) (s : State) : Res Byte :=
  (srcRead s).andThen fun r s =>
    match r with
    | none => .raised .truncatedHeader (BitVec.ofNat 32 n) s
    | some v => .ok v s

/-- The bytes of a count still to be read, the first already in `c` (R162): `c <- (c << 8) | get()`. -/
def headerCount : Nat → Nat → Count → State → Res Count
  | 0, _, c, s => .ok c s
  | k + 1, n, c, s => (headerGet n s).andThen fun v s => headerCount k (n + 1) ((c <<< 8) ||| v.setWidth 64) s

/-- `v <= prev` of R162, where no entry was read before the first. -/
def notAscending (prev : Option Byte) (v : Byte) : Bool :=
  match prev with
  | none => false
  | some p => v.ule p

/-- The loop of R162: the entries from index `i` on, `k` of them; `n` = 1 + 9 i bytes were read. -/
def headerEntries : Nat → Nat → Option Byte → State → Res Unit
  | 0, _, _, s => .ok () s
  | k + 1, i, prev, s =>
    (headerGet (1 + 9 * i) s).andThen fun v s =>
    (headerCount Config.cntBytes (2 + 9 * i) 0#64 s).andThen fun c s =>
      if notAscending prev v = true then .raised .malformedHeader (0x100#32 ||| BitVec.ofNat 32 i) s
      else if c = 0#64 then .raised .malformedHeader (0x200#32 ||| BitVec.ofNat 32 i) s
      else headerEntries k (i + 1) (some v) (s.withCore { s.core with ft := setCount s.core.ft v c })

/-- The pseudocode of `HREAD` (R162): the table is cleared first. -/
def hreadRule (s : State) : Res Unit :=
  (headerGet 0 (s.withCore { s.core with ft := [] })).andThen fun n s => headerEntries n.toNat 0 none s

/-! ### Whole streams -/

/-- The second pass of R163: `WSYM` of each source byte. The first argument bounds its turns: each takes a byte of the
source (log entry 25). -/
def encodeLoop : Nat → State → Res Unit
  | 0, _ => .stopped .endlessWalk
  | n + 1, s => (srcRead s).andThen fun r s =>
    match r with
    | none => .ok () s
    | some b => (wsymRule b s).andThen fun _ s => encodeLoop n s

/-- The pseudocode of `ENCODE` (R163). -/
def encodeRule (s : State) : Res Unit :=
  (clrRule s).andThen fun _ s =>
  (srcRewind s).andThen fun _ s =>
  (fscanRule s).andThen fun _ s =>
  (qbuildRule s).andThen fun _ s =>
  (treduceRule s).andThen fun _ s =>
  (sderiveRule s).andThen fun _ s =>
  (hwriteRule s).andThen fun _ s =>
  (srcRewind s).andThen fun _ s =>
  (encodeLoop (s.unread + 1) s).andThen fun _ s =>
  wflushRule s

/-- The loop of R164: symbols until the end of the message. The first argument bounds its turns: each but the last
decrements `RREM` (log entry 25). -/
def decodeLoop : Nat → State → Res Unit
  | 0, _ => .stopped .endlessWalk
  | n + 1, s => (rnextRule s).andThen fun _ s =>
    if s.core.status.eom = true then .ok () s
    else (snkWrite s.core.outb s).andThen fun _ s => decodeLoop n s

/-- The pseudocode of `DECODE` (R164). -/
def decodeRule (s : State) : Res Unit :=
  (clrRule s).andThen fun _ s =>
  (hreadRule s).andThen fun _ s =>
  (qbuildRule s).andThen fun _ s =>
  (treduceRule s).andThen fun _ s =>
  (rinitRule s).andThen fun _ s =>
  decodeLoop (s.core.rrem.toNat + 1) s

/-- `HWRITE` (R161). -/
def execHwrite (s : State) : Host.Outcome State Fault Refusal := perform .hwrite s hwriteRule

/-- `HREAD` (R162). -/
def execHread (s : State) : Host.Outcome State Fault Refusal := perform .hread s hreadRule

/-- `ENCODE` (R163). -/
def execEncode (s : State) : Host.Outcome State Fault Refusal := perform .encode s encodeRule

/-- `DECODE` (R164). -/
def execDecode (s : State) : Host.Outcome State Fault Refusal := perform .decode s decodeRule

end Sys2Proof.Machine
end

