-- ==== Sys2Proof/Machine/Dispatch.lean ====
section
/-! DEFINITION. One arm per command: the meaning each has under spec/30_encoding.md rule R77 and its family's rule. -/

namespace Sys2Proof.Machine

def exec (i : Instr) (s : State) : Host.Outcome State Fault Refusal :=
  match i with
  | .fscan => Sys2Proof.Machine.execFscan s
  | .qbuild => Sys2Proof.Machine.execQbuild s
  | .qins idx => Sys2Proof.Machine.execQins idx s
  | .qext => Sys2Proof.Machine.execQext s
  | .tjoin => Sys2Proof.Machine.execTjoin s
  | .treduce => Sys2Proof.Machine.execTreduce s
  | .sderive => Sys2Proof.Machine.execSderive s
  | .wbit d => Sys2Proof.Machine.execWbit d s
  | .wsym sym => Sys2Proof.Machine.execWsym sym s
  | .wflush => Sys2Proof.Machine.execWflush s
  | .rinit => Sys2Proof.Machine.execRinit s
  | .rnext => Sys2Proof.Machine.execRnext s
  | .hwrite => Sys2Proof.Machine.execHwrite s
  | .hread => Sys2Proof.Machine.execHread s
  | .encode => Sys2Proof.Machine.execEncode s
  | .decode => Sys2Proof.Machine.execDecode s
  | .clr => Sys2Proof.Machine.execClr s
  | .srew => Sys2Proof.Machine.execSrew s

end Sys2Proof.Machine
end

