-- ==== Sys2Proof/Machine/Step.lean ====
section
/-! DEFINITION. One step: the next thing the host does (rules R70, R77, R220, R226, R232; log entries 5, 6, 7). The CORE
fetches nothing (R12): the next command is the next word of the host's script. -/

namespace Sys2Proof.Machine

/-- A word presented on the command port (R70): performed as its command, or as a reserved word (R77). -/
def presentWord (w : CmdWord) (s : State) : Host.Outcome State Fault Refusal :=
  match decode w with
  | .instr i => exec i s
  | .reserved _ => performReserved w s

/-- One step. With nothing scripted the CORE is idle and holds all state (R211). -/
def step (s : State) : Host.Outcome State Fault Refusal :=
  match s.host.script with
  | [] => .next s
  | .command w :: es => presentWord w (s.withScript es)
  | .commandReset w :: es => cutShort s.host.answers (presentWord w (s.withScript es))
  | .reset :: es => .next (s.withScript es).cleared
  | .streams bytes pos sink :: es => .next ((s.withScript es).withStreams bytes pos sink)

/-- `s` with an instruction as the next word the host presents (log entry 5). A command is one 16-bit word (R71). -/
def State.withFetchWord (s : State) (nbits w : Nat) : State :=
  s.withScript (.command (BitVec.ofNat 16 (w % 2 ^ nbits)) :: s.host.script)

end Sys2Proof.Machine
end

