-- ==== Sys2Proof/Machine/ReadPort.lean ====
section
/-! DEFINITION. The read port: rule R25 of spec/10_state.md and rule R184 of spec/47_system.md. A read is a function of
the state between commands: it has no side effect and raises no fault. Values are zero-extended to the model's port
width (log entry 19). -/

namespace Sys2Proof.Machine

/-- A value on the read port. -/
abbrev PortValue := BitVec Config.portBits

/-- A memory named on the read port (R184). -/
inductive PortSpace where
  | ft
  | tm
  | st
  | qm
deriving DecidableEq, Repr

/-- `QLEN` (R16). -/
def qlen (c : CoreState) : BitVec 9 := BitVec.ofNat 9 c.queue.length

/-- `QM[k]` (R23): the `k`-th entry of the queue, 511 past its end. -/
def queueEntry (c : CoreState) (k : Nat) : NodeIdx := c.queue.getD k Config.noNode

/-- A record of `TM` as its 100 bits `v`, `k`, `sym`, `w`, `l`, `r` (R21). -/
def nodeBits : Option Node → BitVec 100
  | none => 0#100
  | some (.leaf sym w) => 1#1 ++ 0#1 ++ sym ++ w ++ 0#9 ++ 0#9
  | some (.internal w l r) => 1#1 ++ 1#1 ++ 0#8 ++ w ++ l ++ r

/-- `bits(path)` of R131: bit `k` is 1 where decision `k` is `Left`. -/
def pathBits : Path → BitVec 255
  | [] => 0#255
  | d :: p => (pathBits p <<< 1) ||| (BitVec.ofBool d.bit).setWidth 255

/-- A record of `ST` as its 264 bits `v`, `len`, `p` (R22). -/
def pathRecordBits : Option Path → BitVec 264
  | none => 0#264
  | some p => 1#1 ++ BitVec.ofNat 8 p.length ++ pathBits p

/-- `RegRead(n)` (R25, R184): numbers 15 and above read as 0. -/
def regRead (c : CoreState) (n : Nat) : PortValue :=
  match n with
  | 0 => (statusBits c.status).setWidth _
  | 1 => c.err.setWidth _
  | 2 => c.errinfo.setWidth _
  | 3 => (qlen c).setWidth _
  | 4 => c.root.setWidth _
  | 5 => c.nextNode.setWidth _
  | 6 => c.xn.setWidth _
  | 7 => c.outb.setWidth _
  | 8 => c.wacc.setWidth _
  | 9 => c.wcnt.setWidth _
  | 10 => c.racc.setWidth _
  | 11 => c.rcnt.setWidth _
  | 12 => c.rrem.setWidth _
  | 13 => (BitVec.ofNat 9 (nsym c.ft)).setWidth _
  | 14 => (total c.ft).setWidth _
  | _ => 0

/-- `MemRead(space, i)` (R184): an index out of range reads as 0. -/
def memRead (c : CoreState) (space : PortSpace) (i : Nat) : PortValue :=
  match space with
  | .ft => if i < 256 then (countAt c.ft (BitVec.ofNat 8 i)).setWidth _ else 0
  | .tm => if i < 511 then (nodeBits (nodeAt c.tm (BitVec.ofNat 9 i))).setWidth _ else 0
  | .st => if i < 256 then (pathRecordBits (pathAt c.st (BitVec.ofNat 8 i))).setWidth _ else 0
  | .qm => if i < 256 then (queueEntry c i).setWidth _ else 0

end Sys2Proof.Machine
end

