-- ==== Sys2Proof/Safety.lean ====
section
/-! DEFINITION. What claims about the machine speak of: when a command executes normally (rules R77, R80), what is
assumed of the host (R48, R231), the invariant of the states a run reaches (R24 of spec/10_state.md, with the agreements
of R15 to R17 and R27), and the bit streams of the writer and the reader (R54, R145, R152). -/

namespace Sys2Proof.Machine

/-! ### When a command executes, and what is assumed of the host -/

/-- The command is accepted and its rule performed: no fault pending and its precondition holds (R77, R80). -/
abbrev Ready (i : Instr) (s : State) : Prop :=
  s.core.status.fault = false ∧ precondition i s.core.status = true

/-- The host serves every request: the named premise "a host assumed never to fail" of R48. -/
abbrev Serving (s : State) : Prop := ∀ r ∈ s.host.replies, r = HostReply.serves

/-- The host answers every request: the premise of R231. -/
abbrev Answering (s : State) : Prop := ∀ r ∈ s.host.replies, r ≠ HostReply.never

/-- The host does not assert reset while a request is pending. -/
abbrev NoResetPending (s : State) : Prop := ∀ r ∈ s.host.replies, r ≠ HostReply.resets

/-! ### The invariant, part by part -/

/-- The memories are in canonical form (R20 to R22, log entry 13) and the source position is inside the source (R27). -/
abbrev MemoriesCanonical (s : State) : Prop :=
  countsWf s.core.ft ∧ Memory.wf Config.nodeMax s.core.tm ∧ Memory.wf Config.nsymMax s.core.st ∧
    s.host.pos ≤ s.host.src.length

/-- `ERR` and `ERRINFO` are 0 while `FAULT` = 0, and a fault has one of the codes that are raised (R15, R191). -/
abbrev FaultRegistersAgree (s : State) : Prop :=
  if s.core.status.fault = true then s.core.err ≠ 0#4 ∧ s.core.err ≠ 4#4 ∧ s.core.err.toNat ≤ 12
  else s.core.err = 0#4 ∧ s.core.errinfo = 0#32

/-- `XN`, `OUTB` and `ROOT` hold their "otherwise" values where their flag or phase says so (R16, R17), and the flags go
with the phase (R24 items 5 and 6, the parts without the tree). -/
abbrev ResultRegistersAgree (s : State) : Prop :=
  (s.core.status.xnv = false → s.core.xn = Config.noNode) ∧
  (s.core.status.outv = false → s.core.outb = 0#8) ∧
  (s.core.status.phase ≠ .tree → s.core.root = Config.noNode ∧ s.core.status.stv = false ∧ s.core.status.rv = false) ∧
  (s.core.status.phase ≠ .queue → s.core.status.xnv = false ∧ s.core.queue = [])

/-- The bits of an accumulator at and above its count are 0. -/
abbrev HighBitsZero (acc : Byte) (cnt : BitVec 3) : Prop := acc >>> cnt = 0#8

/-- R24 item 7. The writer's half is asked only while `FAULT` = 0: a `WBIT` whose completed byte the sink fails leaves it
in `WACC` with `WCNT` = 7 (R141, V23 of spec/95_test_vectors.md; log entry 16). -/
abbrev BitCountsAgree (s : State) : Prop :=
  HighBitsZero s.core.racc s.core.rcnt ∧ (s.core.status.fault = false → HighBitsZero s.core.wacc s.core.wcnt)

/-- A record of `TM` is as R24 items 1 and 2 say: a leaf at its byte's index with its count, an internal node below
`NEXT` with valid children at smaller indices and the sum of their weights. -/
def recordOk (c : CoreState) (e : Nat × Node) : Bool :=
  match e.2 with
  | .leaf sym w => sym.toNat == e.1 && w == (countAt c.ft sym).setWidth 72 && present c.ft sym
  | .internal w l r =>
    decide (256 ≤ e.1) && decide (e.1 < c.nextNode.toNat) && validNode c.tm l && validNode c.tm r &&
      decide (l.toNat < e.1) && decide (r.toNat < e.1) && w == weight c.tm l + weight c.tm r

/-- The children of the listed internal nodes, one entry for each position (R24 item 3). -/
def childList (tm : Memory Node) : List NodeIdx :=
  tm.flatMap fun e => match e.2 with
    | .leaf _ _ => []
    | .internal _ l r => [l, r]

/-- The listed nodes without a parent: the free roots (R24 item 3). -/
def freeRoots (tm : Memory Node) : List NodeIdx :=
  (tm.map fun e => BitVec.ofNat 9 e.1).filter fun i => !hasParent tm i

/-- R24 items 1 to 6: the records of `TM` are a forest of disjoint trees over the frequency table, the queue lists free
roots strictly ascending, and the phases are kept. -/
abbrev ForestOk (s : State) : Prop :=
  (∀ e ∈ s.core.tm, recordOk s.core e = true) ∧
  (256 ≤ s.core.nextNode.toNat ∧ s.core.nextNode.toNat ≤ 511) ∧
  (∀ i ∈ List.range s.core.nextNode.toNat, 256 ≤ i → (Memory.read? s.core.tm i).isSome = true) ∧
  (childList s.core.tm).Nodup ∧
  (∀ i ∈ s.core.queue, freeRoot s.core.tm i = true) ∧
  s.core.queue.Pairwise (fun i j => nodeLt s.core.tm i j = true) ∧
  ((freeRoots s.core.tm).map (leftmost s.core.tm)).Nodup ∧
  (s.core.status.phase = .idle → s.core.tm = [] ∧ s.core.nextNode = Config.firstInternal) ∧
  (s.core.status.phase = .tree → freeRoot s.core.tm s.core.root = true)

/-- The invariant of the states a run reaches (R24, with R15 to R17 and R27). -/
abbrev Inv (s : State) : Prop :=
  MemoriesCanonical s ∧ FaultRegistersAgree s ∧ ResultRegistersAgree s ∧ BitCountsAgree s ∧ ForestOk s

/-! ### Trees, paths and bit streams -/

/-- Following `p` from node `i` (R131): `Left` to the left child, `Right` to the right. None where a node on the way,
the last one apart, is no internal node. -/
def follow (tm : Memory Node) : NodeIdx → Path → Option NodeIdx
  | i, [] => some i
  | i, d :: p =>
    match nodeAt tm i with
    | some (.internal _ l r) => follow tm (match d with | .left => l | .right => r) p
    | some (.leaf _ _) => none
    | none => none

/-- The path leads from node `i` to the leaf of `b`. -/
def leadsToLeaf (tm : Memory Node) (i : NodeIdx) (p : Path) (b : Byte) : Bool :=
  match follow tm i p with
  | none => false
  | some j => match nodeAt tm j with
    | some (.leaf sym _) => sym == b
    | some (.internal _ _ _) => false
    | none => false

/-- The eight bits of a byte, bit 0 first (R53). -/
def byteBits (v : Byte) : List Bool := (List.range 8).map fun k => v.getLsbD k

/-- The bits an accumulator holds, bit 0 first (R18, R19). -/
def heldBits (acc : Byte) (cnt : BitVec 3) : List Bool := (List.range cnt.toNat).map fun k => acc.getLsbD k

/-- What the writer has taken: the bits of the sink, then the pending ones (R145). -/
def writtenBits (s : State) : List Bool := s.host.snk.flatMap byteBits ++ heldBits s.core.wacc s.core.wcnt

/-- What the reader has yet to take: the bits it holds, then those of the unread source bytes (R152). -/
def unreadBits (s : State) : List Bool :=
  heldBits s.core.racc s.core.rcnt ++ (s.host.src.drop s.host.pos).flatMap byteBits

/-- The bits of a path (R8). -/
def pathBools (p : Path) : List Bool := p.map Decision.bit

/-- The header entries as bytes (R52). -/
def entriesBytes (es : List (Byte × Count)) : List Byte := es.flatMap fun e => e.1 :: countBytes e.2

/-- The container of a message (R55): the sink after `ENCODE` of it, out of reset, on a host that serves. -/
def containerOf (m : List Byte) : List Byte :=
  match exec .encode { core := CoreState.reset, host := { HostSide.reset with src := m } } with
  | .next t => t.host.snk
  | .fault _ => []
  | .refused _ => []

/-- The kinds a command can raise beyond `SequenceError` of R77: the matrix R208. -/
def raisable : Instr → List ErrorKind
  | .fscan => [.io, .countOverflow]
  | .qbuild => [.emptyInput]
  | .qins _ => [.sequence]
  | .qext | .tjoin | .treduce => [.emptyQueue]
  | .sderive | .rinit | .clr => []
  | .wbit _ | .wflush | .srew => [.io]
  | .wsym _ => [.symbolNotInTable, .io]
  | .rnext => [.truncatedPayload, .io]
  | .hwrite => [.headerCountOverflow, .io]
  | .hread => [.truncatedHeader, .malformedHeader, .io]
  | .encode => [.io, .countOverflow, .emptyInput, .headerCountOverflow, .symbolNotInTable]
  | .decode => [.io, .truncatedHeader, .malformedHeader, .emptyInput, .truncatedPayload]

end Sys2Proof.Machine
end

