-- ==== Sys2Proof/Certificates/Slice0/Obligations.lean ====
section
/-! DEFINITION. What is claimed of the machine, from the numbered rules of spec/. Each docstring names the rule. -/

open Sys2Proof Sys2Proof.Machine

/-! ### Reset, steps, words -/

/-- R28: reset puts every register and memory into the value of its table, the views and the read-port forms included;
the reset input and `CLR` produce exactly this state from any state, streams untouched. -/
def Obligations.ResetLeavesTheTableOfR28 : Prop :=
  (statusBits State.reset.core.status = 0x00#8 ∧ State.reset.core.err = 0#4 ∧ State.reset.core.errinfo = 0#32 ∧
    qlen State.reset.core = 0#9 ∧ State.reset.core.root = 511#9 ∧ State.reset.core.nextNode = 256#9 ∧
    State.reset.core.xn = 511#9 ∧ State.reset.core.outb = 0#8 ∧ State.reset.core.wacc = 0#8 ∧
    State.reset.core.wcnt = 0#3 ∧ State.reset.core.racc = 0#8 ∧ State.reset.core.rcnt = 0#3 ∧
    State.reset.core.rrem = 0#72 ∧ nsym State.reset.core.ft = 0 ∧ total State.reset.core.ft = 0#72 ∧
    (∀ b, countAt State.reset.core.ft b = 0#64) ∧ (∀ i, nodeBits (nodeAt State.reset.core.tm i) = 0#100) ∧
    (∀ b, pathRecordBits (pathAt State.reset.core.st b) = 0#264) ∧ (∀ k, queueEntry State.reset.core k = 511#9)) ∧
  (∀ s : State, ∃ t, exec .clr s = .next t ∧ t.core = State.reset.core ∧
    t.host.src = s.host.src ∧ t.host.pos = s.host.pos ∧ t.host.snk = s.host.snk) ∧
  ∀ (s : State) (es : List HostEvent), s.host.script = .reset :: es →
    ∃ t, step s = .next t ∧ t.core = State.reset.core ∧
      t.host.src = s.host.src ∧ t.host.pos = s.host.pos ∧ t.host.snk = s.host.snk

/-- The reset state meets the invariant. -/
def Obligations.ResetMeetsTheInvariant : Prop := Inv State.reset

/-- A step with a word as the host's next action is `exec` of the command the word decodes to, at the state with that
word taken off the script (R70, R77; the script is the model's form of the host, log entry 5). -/
def Obligations.StepRunsTheDecodedCommand : Prop :=
  ∀ (s : State) (w : CmdWord) (es : List HostEvent) (i : Instr), s.host.script = .command w :: es →
    decode w = .instr i → step s = exec i (s.withScript es)

/-- A step without a command: idle, it holds all state (R211); the reset input resets the CORE and touches no stream
(R220); the host gives other streams and the CORE keeps its state (log entries 5, 6). -/
def Obligations.StepWithoutACommand : Prop :=
  (∀ s : State, s.host.script = [] → step s = .next s) ∧
  (∀ (s : State) (es : List HostEvent), s.host.script = .reset :: es →
    step s = .next { core := CoreState.reset, host := { s.host with script := es } }) ∧
  (∀ (s : State) (bytes : List Byte) (pos : Nat) (sink : List Byte) (es : List HostEvent),
    s.host.script = .streams bytes pos sink :: es → pos ≤ bytes.length →
    step s = .next { core := s.core, host := { s.host with src := bytes, pos := pos, snk := sink, script := es } })

/-- Words of V22 of spec/95_test_vectors.md and one word of every family of R74 decode to what they stand for. -/
def Obligations.SpecWordsDecode : Prop :=
  decode 0x1000#16 = .instr .fscan ∧ decode 0x23FF#16 = .instr (.qins 511#9) ∧
  decode 0x2264#16 = .instr (.qins 0x064#9) ∧ decode 0x3200#16 = .instr .treduce ∧
  decode 0x4000#16 = .instr .sderive ∧ decode 0x5001#16 = .instr (.wbit .left) ∧
  decode 0x5000#16 = .instr (.wbit .right) ∧ decode 0x52FF#16 = .instr (.wsym 0xFF#8) ∧
  decode 0x6200#16 = .instr .rnext ∧ decode 0x7600#16 = .instr .decode ∧ decode 0x8000#16 = .instr .clr ∧
  decode 0x0000#16 = .reserved .unassignedGroup ∧ decode 0x1200#16 = .reserved .unassignedFunction ∧
  decode 0x5300#16 = .reserved .operandBitsNotZero ∧ decode 0x5002#16 = .reserved .operandBitsNotZero

/-- Decoding the encoding of a well-formed command gives it back, and the encoding matches the command's row (R74). -/
def Obligations.DecodeEncodeAgree : Prop :=
  ∀ i : Instr, i.wellFormed = true → decode (encode i) = .instr i ∧ matchesRow (encode i) i = true

/-- R74, R76: decode is total, a word is a command exactly where it is that command's encoding, a word matches at most
one row, and it is reserved exactly where it matches none. -/
def Obligations.EveryWordMatchesOneRowOrIsReserved : Prop :=
  (∀ (w : CmdWord) (i : Instr), decode w = .instr i ↔ w = encode i) ∧
  (∀ (w : CmdWord) (i j : Instr), matchesRow w i = true → matchesRow w j = true → i.word = j.word) ∧
  (∀ w : CmdWord, (∃ why, decode w = .reserved why) ↔ ∀ i, matchesRow w i = false)

/-! ### Acceptance and faults -/

/-- R203: a reserved word raises `IllegalCommandError` with the word in `ERRINFO`, and nothing but the fault registers of
the CORE changes. -/
def Obligations.ReservedWordRaisesIllegalCommand : Prop :=
  ∀ (s : State) (w : CmdWord) (es : List HostEvent), s.host.script = .command w :: es →
    s.core.status.fault = false → (∀ i, matchesRow w i = false) →
    step s = .next
      { core := { s.core with err := 12#4, errinfo := w.setWidth 32, status := { s.core.status with fault := true } }
        host := { s.host with script := es, answers := s.host.answers ++ [.fault 12#4] } }

/-- R209: while `FAULT` = 1 every word but `CLR` is refused and changes nothing, so faults do not nest; a step that
clears `FAULT` is one with `CLR` or reset (between commands or during one); `CLR` clears the fault and everything else. -/
def Obligations.FaultIsStickyUntilCleared : Prop :=
  (∀ (s : State) (w : CmdWord) (es : List HostEvent), s.core.status.fault = true →
    s.host.script = .command w :: es → w ≠ 0x8000#16 →
    step s = .next { core := s.core, host := { s.host with script := es, answers := s.host.answers ++ [.refused] } }) ∧
  (∀ s t : State, s.core.status.fault = true → step s = .next t → t.core.status.fault = false →
    ∃ es, s.host.script = .command 0x8000#16 :: es ∨ s.host.script = .reset :: es ∨
      ∃ w, s.host.script = .commandReset w :: es) ∧
  (∀ (s : State) (es : List HostEvent), s.host.script = .command 0x8000#16 :: es →
    ∃ t, step s = .next t ∧ t.core = CoreState.reset)

/-- R202: a command whose precondition on `STATUS` (R80) fails, and a `QINS` whose operand names no eligible node, raises
`SequenceError` with the command word in `ERRINFO`, and nothing but the fault registers of the CORE changes. -/
def Obligations.SequenceErrorWhereThePreconditionFails : Prop :=
  (∀ (i : Instr) (idx : NodeIdx) (sym : Byte) (s : State), s.core.status.fault = false →
    ((i = .fscan ∨ i = .hread ∨ i = .qbuild) ∧ s.core.status.phase ≠ .idle ∨
      (i = .qins idx ∨ i = .qext ∨ i = .tjoin ∨ i = .treduce) ∧ s.core.status.phase ≠ .queue ∨
      (i = .sderive ∨ i = .rinit) ∧ s.core.status.phase ≠ .tree ∨
      i = .wsym sym ∧ (s.core.status.phase ≠ .tree ∨ s.core.status.stv = false) ∨
      i = .rnext ∧ (s.core.status.phase ≠ .tree ∨ s.core.status.rv = false ∨ s.core.status.eom = true)) →
    exec i s = .next
      { core := { s.core with
          err := 11#4, errinfo := (encode i).setWidth 32, status := { s.core.status with fault := true } }
        host := { s.host with answers := s.host.answers ++ [.fault 11#4] } }) ∧
  (∀ (idx : NodeIdx) (s : State), Ready (.qins idx) s →
    (idx = 511#9 ∨ validNode s.core.tm idx = false ∨ freeRoot s.core.tm idx = false ∨
      inQueue s.core.queue idx = true) →
    exec (.qins idx) s = .next
      { core := { s.core with
          err := 11#4, errinfo := (encode (.qins idx)).setWidth 32, status := { s.core.status with fault := true } }
        host := { s.host with answers := s.host.answers ++ [.fault 11#4] } })

/-- R196: a `raise` writes `ERR`, `ERRINFO` and `FAULT`, ends the command and answers `fault(code)`; nothing else is
saved or changed. The codes are those of R191. While `FAULT` = 1 no command but `CLR` changes `ERR` or `ERRINFO`, so `ERR`
holds the first fault. -/
def Obligations.RaiseWritesOnlyTheFaultRegisters : Prop :=
  (∀ (k : ErrorKind) (info : BitVec 32) (s : State), conclude (.raised k info s) = .next
    { core := { s.core with err := errCode k, errinfo := info, status := { s.core.status with fault := true } }
      host := { s.host with answers := s.host.answers ++ [.fault (errCode k)] } }) ∧
  [ErrorKind.emptyInput, .emptyQueue, .truncatedHeader, .io, .malformedHeader, .truncatedPayload,
    .headerCountOverflow, .countOverflow, .symbolNotInTable, .sequence, .illegalCommand].map errCode =
    [1#4, 2#4, 3#4, 5#4, 6#4, 7#4, 8#4, 9#4, 10#4, 11#4, 12#4] ∧
  ∀ (i : Instr) (s t : State), s.core.status.fault = true → i ≠ .clr → exec i s = .next t →
    t.core.err = s.core.err ∧ t.core.errinfo = s.core.errinfo

/-- R208: a fault that a command raises has a kind the matrix lists for it, or is `SequenceError` where its precondition
failed; every command but `CLR` can also be refused. -/
def Obligations.CommandsRaiseOnlyTheirKinds : Prop :=
  (∀ (i : Instr) (s t : State), exec i s = .next t → s.core.status.fault = false → t.core.status.fault = true →
    (∃ k ∈ raisable i, t.core.err = errCode k) ∨ (precondition i s.core.status = false ∧ t.core.err = 11#4)) ∧
  (∀ (i : Instr) (s : State), s.core.status.fault = true → i ≠ .clr → exec i s = .next (s.answered .refused)) ∧
  ∀ s t : State, exec .clr s = .next t → t.core.status.fault = false

/-- R195, R48: no failure of a request is swallowed. A command that raises `IoError` used up replies that served and then
one that fails, whose code it carries in `ERRINFO` unchanged; a command that is answered without `IoError` used up only
replies that served. The list of replies is the model's form of the host's choice (log entry 2). -/
def Obligations.IoErrorCarriesTheHostsCode : Prop :=
  (∀ (i : Instr) (s t : State), exec i s = .next t → s.core.status.fault = false → t.core.status.fault = true →
    t.core.err = 5#4 → ∃ used p b, s.host.replies = used ++ HostReply.fails t.core.errinfo p b :: t.host.replies ∧
      ∀ r ∈ used, r = HostReply.serves) ∧
  (∀ (i : Instr) (s t : State) (a : Answer), exec i s = .next t → t.host.answers = s.host.answers ++ [a] →
    a ≠ .fault 5#4 → ∃ used, s.host.replies = used ++ t.host.replies ∧ ∀ r ∈ used, r = HostReply.serves)

/-- R207: after a fault that a single command raises in its first statement (`EmptyInputError`, `EmptyQueueError`,
`HeaderCountOverflowError`, `SymbolNotInTableError`, `SequenceError`) the state is the one before the command with the
fault registers written. -/
def Obligations.FirstStatementFaultsChangeNothingElse : Prop :=
  ∀ (i : Instr) (s t : State), i ≠ .encode → i ≠ .decode → exec i s = .next t → s.core.status.fault = false →
    t.core.status.fault = true → t.core.err ∈ [1#4, 2#4, 8#4, 10#4, 11#4] →
    t.core = { s.core with
      err := t.core.err, errinfo := t.core.errinfo, status := { s.core.status with fault := true } } ∧
    t.host = { s.host with answers := s.host.answers ++ [.fault t.core.err] }

/-- R70: every command that is not abandoned by reset is answered once: `refused` where a fault is pending and it is not
`CLR`, `fault(ERR)` where it left a fault, `done` where it left none. -/
def Obligations.EveryCommandIsAnsweredOnce : Prop :=
  ∀ (i : Instr) (s t : State), exec i s = .next t → NoResetPending s →
    t.host.answers = s.host.answers ++
      [if s.core.status.fault = true ∧ i ≠ .clr then .refused
       else if t.core.status.fault = true then .fault t.core.err else .done]

/-- R220: reset during a command abandons it: the CORE is in its reset state, no answer is given, and the bytes already
moved stay moved. That the reset shows as the reply `resets` to a stream request, or as the event `commandReset` after the
last request, is the model's choice (log entry 7). First: a command that ends without an answer met the reply `resets`
after replies that served. Then: each command whose next request meets a reset ends so at once; `HWRITE` and `FSCAN` keep
the bytes they moved before it; and a reset after the last request keeps all that the command moved, as `WFLUSH` shows. -/
def Obligations.AbandonedCommandLeavesTheCoreReset : Prop :=
  (∀ (i : Instr) (s t : State), exec i s = .next t → t.host.answers = s.host.answers →
    t.core = CoreState.reset ∧
    ∃ used, s.host.replies = used ++ HostReply.resets :: t.host.replies ∧ ∀ r ∈ used, r = HostReply.serves) ∧
  (∀ (i : Instr) (s : State), Ready i s → s.nextReply = .resets →
    (i = .fscan ∨ i = .hread ∨ i = .encode ∨ i = .decode ∨ i = .srew ∨
      i = .hwrite ∧ nsym s.core.ft ≠ 256 ∨ i = .wflush ∧ s.core.wcnt ≠ 0#3 ∨
      (∃ d, i = .wbit d) ∧ s.core.wcnt = 7#3 ∨
      (∃ sym p, i = .wsym sym ∧ pathAt s.core.st sym = some p ∧ 8 ≤ s.core.wcnt.toNat + p.length) ∨
      (∃ w l r, i = .rnext ∧ s.core.rrem ≠ 0#72 ∧ s.core.rcnt = 0#3 ∧ s.core.root ≠ 511#9 ∧
        nodeAt s.core.tm s.core.root = some (.internal w l r))) →
    exec i s = .next { core := CoreState.reset, host := { s.host with replies := s.host.replies.tail } }) ∧
  (∀ (s : State) (k : Nat) (rest : List HostReply), Ready .hwrite s → nsym s.core.ft ≠ 256 →
    k < (headerBytes s.core.ft).length → s.host.replies = List.replicate k HostReply.serves ++ .resets :: rest →
    exec .hwrite s = .next
      { core := CoreState.reset
        host := { s.host with snk := s.host.snk ++ (headerBytes s.core.ft).take k, replies := rest } }) ∧
  (∀ (s : State) (k : Nat) (rest : List HostReply), Ready .fscan s → s.host.pos + k ≤ s.host.src.length →
    (∀ b, (countAt s.core.ft b).toNat + ((s.host.src.drop s.host.pos).take k).count b < 2 ^ 64) →
    s.host.replies = List.replicate k HostReply.serves ++ .resets :: rest →
    exec .fscan s = .next
      { core := CoreState.reset, host := { s.host with pos := s.host.pos + k, replies := rest } }) ∧
  (∀ (s t : State) (w : CmdWord) (es : List HostEvent), s.host.script = .commandReset w :: es →
    step (s.withScript (.command w :: es)) = .next t →
    step s = .next { core := CoreState.reset, host := { t.host with answers := s.host.answers } }) ∧
  (∀ (s : State) (es : List HostEvent), s.host.script = .commandReset (encode .wflush) :: es → Ready .wflush s →
    s.core.wcnt ≠ 0#3 → s.nextReply = .serves →
    step s = .next
      { core := CoreState.reset
        host := { s.host with
          snk := s.host.snk ++ [s.core.wacc], replies := s.host.replies.tail, script := es } })

/-- R231: in a state that meets the invariant, every command ends in a next state, provided the host answers each request;
and it has answered where no reset abandons it (R220). -/
def Obligations.CommandsAnswerWhenTheHostDoes : Prop :=
  ∀ (i : Instr) (s : State), Inv s → Answering s →
    ∃ t, exec i s = .next t ∧ (NoResetPending s → ∃ a, t.host.answers = s.host.answers ++ [a])

/-! ### System commands -/

/-- R181: `CLR` puts the CORE into its reset state, from the fault state too, and touches no stream. -/
def Obligations.ClrResetsTheCore : Prop :=
  ∀ s : State, exec .clr s = .next
    { core := CoreState.reset, host := { s.host with answers := s.host.answers ++ [.done] } }

/-- R182: `SREW` sets `SRC.pos` to 0 and changes no CORE state; a failure raises `IoError` with the host's code. -/
def Obligations.SrewRewindsTheSource : Prop :=
  (∀ s : State, Ready .srew s → s.nextReply = .serves → exec .srew s = .next
    { core := s.core
      host := { s.host with pos := 0, replies := s.host.replies.tail, answers := s.host.answers ++ [.done] } }) ∧
  (∀ (s : State) (e : BitVec 32) (p : Nat) (b : Bool), Ready .srew s → s.nextReply = .fails e p b →
    ∃ t, exec .srew s = .next t ∧ t.host.snk = s.host.snk ∧ t.core =
      { s.core with err := 5#4, errinfo := e, status := { s.core.status with fault := true } })

/-! ### Frequency table -/

/-- R91: on a host that serves, `FSCAN` adds to each count the byte's occurrences in the rest of the source, leaves the
source at its end, and changes nothing else. -/
def Obligations.FscanAddsTheHistogram : Prop :=
  ∀ s : State, Ready .fscan s → Serving s → s.host.pos ≤ s.host.src.length →
    (∀ b, (countAt s.core.ft b).toNat + (s.host.src.drop s.host.pos).count b < 2 ^ 64) →
    ∃ t, exec .fscan s = .next t ∧
      (∀ b, (countAt t.core.ft b).toNat = (countAt s.core.ft b).toNat + (s.host.src.drop s.host.pos).count b) ∧
      t.core = { s.core with ft := t.core.ft } ∧
      t.host = { s.host with
        pos := s.host.src.length, replies := t.host.replies, answers := s.host.answers ++ [.done] }

/-- R92, R201: a further `b` where `FT[b]` has reached 2^64 - 1 raises `CountOverflowError(b)`: the count stays, the
counts added before stay, the byte was consumed. -/
def Obligations.FscanCountOverflowKeepsTheCount : Prop :=
  ∀ (s : State) (seen : List Byte) (b : Byte) (rest : List Byte), Ready .fscan s → Serving s →
    s.host.src.drop s.host.pos = seen ++ b :: rest →
    (∀ x, (countAt s.core.ft x).toNat + seen.count x < 2 ^ 64) →
    (countAt s.core.ft b).toNat + seen.count b = 2 ^ 64 - 1 →
    ∃ t, exec .fscan s = .next t ∧ t.core.err = 9#4 ∧ t.core.errinfo = b.setWidth 32 ∧
      t.core.status = { s.core.status with fault := true } ∧ t.host.pos = s.host.pos + seen.length + 1 ∧
      countAt t.core.ft b = BitVec.allOnes 64 ∧
      ∀ x, (countAt t.core.ft x).toNat = (countAt s.core.ft x).toNat + seen.count x

/-! ### Priority queue -/

/-- R103: `QBUILD` writes a leaf with its count for each present byte, queues exactly these leaves in ascending order (the
lower count first, of equal counts the lower byte: R100, R101), enters phase `QUEUE`, and changes nothing else. -/
def Obligations.QbuildQueuesOneLeafPerPresentByte : Prop :=
  ∀ s : State, Ready .qbuild s → nsym s.core.ft ≠ 0 →
    ∃ t, exec .qbuild s = .next t ∧
      (∀ b, nodeAt t.core.tm (leafIdx b) =
        if present s.core.ft b = true then some (.leaf b ((countAt s.core.ft b).setWidth 72))
        else nodeAt s.core.tm (leafIdx b)) ∧
      (∀ i : NodeIdx, 256 ≤ i.toNat → nodeAt t.core.tm i = nodeAt s.core.tm i) ∧
      t.core.queue.Perm ((presentBytes s.core.ft).map leafIdx) ∧
      t.core.queue.Pairwise (fun i j => nodeLt t.core.tm i j = true) ∧
      t.core.queue.Pairwise (fun i j => ∀ b b', i = leafIdx b → j = leafIdx b' →
        (countAt s.core.ft b).toNat < (countAt s.core.ft b').toNat ∨
        countAt s.core.ft b = countAt s.core.ft b' ∧ b.toNat < b'.toNat) ∧
      t.core = { s.core with
        tm := t.core.tm, queue := t.core.queue, status := { s.core.status with phase := .queue } } ∧
      t.host = { s.host with answers := s.host.answers ++ [.done] }

/-- R104: in a state that meets R24, `QINS` of an eligible node puts it after the entries below it and before the
others, so the queue stays sorted; `XN` is given up where it named the node; nothing else changes. -/
def Obligations.QinsPutsTheNodeAtItsPlace : Prop :=
  ∀ (idx : NodeIdx) (s : State), Inv s → Ready (.qins idx) s → eligible s.core idx = true →
    ∃ t, exec (.qins idx) s = .next t ∧
      t.core.queue = s.core.queue.filter (fun k => nodeLt s.core.tm k idx) ++
        idx :: s.core.queue.filter (fun k => !nodeLt s.core.tm k idx) ∧
      t.core.queue.Pairwise (fun i j => nodeLt t.core.tm i j = true) ∧
      t.core = { s.core with
        queue := t.core.queue
        xn := if s.core.status.xnv = true ∧ s.core.xn = idx then 511#9 else s.core.xn
        status := { s.core.status with
          xnv := if s.core.status.xnv = true ∧ s.core.xn = idx then false else s.core.status.xnv } } ∧
      t.host = { s.host with answers := s.host.answers ++ [.done] }

/-- R102: the order in which nodes went into the queue does not show: two sorted queues with the same nodes are the same
queue, and two eligible nodes inserted in either order leave the same CORE. -/
def Obligations.InsertionOrderDoesNotShow : Prop :=
  (∀ (tm : Memory Node) (q q' : List NodeIdx), q.Pairwise (fun i j => nodeLt tm i j = true) →
    q'.Pairwise (fun i j => nodeLt tm i j = true) → q.Perm q' → q = q') ∧
  (∀ (i j : NodeIdx) (s : State), Inv s → Ready (.qins i) s → i ≠ j → eligible s.core i = true →
    eligible s.core j = true →
    ∃ u v u' v', exec (.qins i) s = .next u ∧ exec (.qins j) u = .next v ∧ exec (.qins j) s = .next u' ∧
      exec (.qins i) u' = .next v' ∧ v.core = v'.core)

/-- R105: `QEXT` returns the first entry in `XN`, sets `XNV` and removes it; nothing else changes. -/
def Obligations.QextTakesTheMinimum : Prop :=
  ∀ (s : State) (a : NodeIdx) (q : List NodeIdx), Ready .qext s → s.core.queue = a :: q →
    exec .qext s = .next
      { core := { s.core with queue := q, xn := a, status := { s.core.status with xnv := true } }
        host := { s.host with answers := s.host.answers ++ [.done] } }

/-- R100: the leftmost leaf of a leaf is its byte, that of an internal node is its left child's. R101: `lt(i, j)` compares
weights, then at equal weights the bytes of the leftmost leaves, both as unsigned numbers; it is irreflexive and
transitive, and in a state that meets R24 one of `lt(i, j)`, `lt(j, i)` holds for every pair of different free roots,
never both. -/
def Obligations.ComparatorIsAStrictTotalOrder : Prop :=
  (∀ (tm : Memory Node) (i : NodeIdx) (sym : Byte) (w : Weight), nodeAt tm i = some (.leaf sym w) →
    leftmost tm i = sym) ∧
  (∀ (s : State) (i l r : NodeIdx) (w : Weight), Inv s → nodeAt s.core.tm i = some (.internal w l r) →
    leftmost s.core.tm i = leftmost s.core.tm l) ∧
  (∀ (tm : Memory Node) (i j : NodeIdx), nodeLt tm i j = true ↔ (weight tm i).toNat < (weight tm j).toNat ∨
    weight tm i = weight tm j ∧ (leftmost tm i).toNat < (leftmost tm j).toNat) ∧
  (∀ (tm : Memory Node) (i : NodeIdx), nodeLt tm i i = false) ∧
  (∀ (tm : Memory Node) (i j k : NodeIdx), nodeLt tm i j = true → nodeLt tm j k = true → nodeLt tm i k = true) ∧
  (∀ (s : State) (i j : NodeIdx), Inv s → freeRoot s.core.tm i = true → freeRoot s.core.tm j = true → i ≠ j →
    (nodeLt s.core.tm i j = true ∧ nodeLt s.core.tm j i = false) ∨
    (nodeLt s.core.tm i j = false ∧ nodeLt s.core.tm j i = true))

/-- R193: `QEXT` and `TREDUCE` on an empty queue and `TJOIN` on fewer than two entries raise `EmptyQueueError` with
`QLEN` in `ERRINFO` and change nothing else; `ENCODE` and `DECODE` never raise it. -/
def Obligations.EmptyQueueErrorOnAShortQueue : Prop :=
  (∀ (i : Instr) (s : State), Ready i s →
    ((i = .qext ∨ i = .treduce) ∧ s.core.queue.length = 0 ∨ i = .tjoin ∧ s.core.queue.length < 2) →
    exec i s = .next
      { core := { s.core with
          err := 2#4, errinfo := (qlen s.core).setWidth 32, status := { s.core.status with fault := true } }
        host := { s.host with answers := s.host.answers ++ [.fault 2#4] } }) ∧
  (∀ (i : Instr) (s t : State), i = .encode ∨ i = .decode → s.core.status.fault = false → exec i s = .next t →
    t.core.err ≠ 2#4)

/-! ### Tree -/

/-- R121: in a state that meets R24, `TJOIN` makes node `NEXT` of the two minima, the smaller on the left, with the sum of
their weights, requeues it at its place, advances `NEXT`, gives up `XN`, and changes nothing else. No weight overflows
(R185): the sum is exact in every internal node, the new one among them. -/
def Obligations.TjoinJoinsTheTwoMinima : Prop :=
  ∀ (s : State) (a b : NodeIdx) (q : List NodeIdx), Inv s → Ready .tjoin s → s.core.queue = a :: b :: q →
    ∃ t, exec .tjoin s = .next t ∧
      (∀ i, nodeAt t.core.tm i = if i = s.core.nextNode
        then some (.internal (weight s.core.tm a + weight s.core.tm b) a b) else nodeAt s.core.tm i) ∧
      t.core.queue = q.filter (fun k => nodeLt t.core.tm k s.core.nextNode) ++
        s.core.nextNode :: q.filter (fun k => !nodeLt t.core.tm k s.core.nextNode) ∧
      leftmost t.core.tm s.core.nextNode = leftmost s.core.tm a ∧
      (weight s.core.tm a + weight s.core.tm b).toNat = (weight s.core.tm a).toNat + (weight s.core.tm b).toNat ∧
      (∀ (i l r : NodeIdx) (w : Weight), nodeAt t.core.tm i = some (.internal w l r) →
        w.toNat = (weight t.core.tm l).toNat + (weight t.core.tm r).toNat) ∧
      t.core.nextNode.toNat = s.core.nextNode.toNat + 1 ∧
      t.core = { s.core with
        tm := t.core.tm, queue := t.core.queue, nextNode := t.core.nextNode, xn := 511#9
        status := { s.core.status with xnv := false } } ∧
      t.host = { s.host with answers := s.host.answers ++ [.done] }

/-- R122: in a state that meets R24 with a queue that is not empty, `TREDUCE` ends with one tree: `QLEN` - 1 joins were
made, the old records stay, the root is a free root, its leaves are those of the queued trees and its weight the exact sum
of theirs; the queue is empty and the phase is `TREE`. The joins are those of R121: where two entries are queued, `TJOIN`
and then `TREDUCE` leave the same CORE as `TREDUCE` alone. -/
def Obligations.TreduceBuildsOneTree : Prop :=
  ∀ s : State, Inv s → Ready .treduce s → s.core.queue ≠ [] →
    ∃ t, exec .treduce s = .next t ∧
      t.core.nextNode.toNat = s.core.nextNode.toNat + (s.core.queue.length - 1) ∧
      (∀ i : NodeIdx, (i.toNat < s.core.nextNode.toNat ∨ t.core.nextNode.toNat ≤ i.toNat) →
        nodeAt t.core.tm i = nodeAt s.core.tm i) ∧
      freeRoot t.core.tm t.core.root = true ∧
      (s.core.queue.length = 1 → t.core.root = s.core.queue.headD 511#9 ∧ t.core.tm = s.core.tm) ∧
      (∀ b, (∃ p, leadsToLeaf t.core.tm t.core.root p b = true) ↔
        ∃ i ∈ s.core.queue, ∃ p, leadsToLeaf s.core.tm i p b = true) ∧
      weight t.core.tm t.core.root = (s.core.queue.map (weight s.core.tm)).sum ∧
      (weight t.core.tm t.core.root).toNat = (s.core.queue.map fun i => (weight s.core.tm i).toNat).sum ∧
      (2 ≤ s.core.queue.length → ∃ u v, exec .tjoin s = .next u ∧ exec .treduce u = .next v ∧ v.core = t.core) ∧
      t.core = { s.core with
        tm := t.core.tm, queue := [], root := t.core.root, nextNode := t.core.nextNode, xn := 511#9
        status := { s.core.status with phase := .tree, xnv := false } } ∧
      t.host = { s.host with answers := s.host.answers ++ [.done] }

/-- R122, "Result": `QBUILD` then `TREDUCE` from phase `IDLE` gives the tree of the whole table: `nsym` - 1 joins,
`ROOT` = 254 + `nsym` (the byte itself where there is only one), a leaf for exactly the present bytes, and
`weight(ROOT)` = `total`. -/
def Obligations.QbuildThenTreduceBuildsTheWholeTree : Prop :=
  ∀ s : State, Inv s → Ready .qbuild s → nsym s.core.ft ≠ 0 →
    ∃ t u, exec .qbuild s = .next t ∧ exec .treduce t = .next u ∧
      u.core.nextNode.toNat = 255 + nsym s.core.ft ∧
      (1 < nsym s.core.ft → u.core.root.toNat = 254 + nsym s.core.ft) ∧
      (nsym s.core.ft = 1 → ∃ b, present s.core.ft b = true ∧ u.core.root = leafIdx b) ∧
      (∀ b, (∃ p, leadsToLeaf u.core.tm u.core.root p b = true) ↔ present s.core.ft b = true) ∧
      weight u.core.tm u.core.root = total s.core.ft

/-! ### Symbol table -/

/-- R131: in a state that meets R24, `SDERIVE` gives exactly the bytes of the tree's leaves an entry, whose path leads from
the root to that leaf and has at most 255 decisions; it sets `STV` and changes nothing else. -/
def Obligations.SderiveRecordsTheRootToLeafPaths : Prop :=
  ∀ s : State, Inv s → Ready .sderive s →
    ∃ t, exec .sderive s = .next t ∧
      (∀ b p, pathAt t.core.st b = some p ↔ leadsToLeaf s.core.tm s.core.root p b = true) ∧
      (∀ b p, pathAt t.core.st b = some p → p.length ≤ 255) ∧
      t.core = { s.core with st := t.core.st, status := { s.core.status with stv := true } } ∧
      t.host = { s.host with answers := s.host.answers ++ [.done] }

/-- R132: where the root is a leaf, the table has one entry, the empty path of its symbol, and writing that symbol
writes nothing. -/
def Obligations.OnlySymbolHasTheEmptyPath : Prop :=
  ∀ (s : State) (b : Byte) (w : Weight), Ready .sderive s → s.core.root ≠ 511#9 →
    nodeAt s.core.tm s.core.root = some (.leaf b w) →
    ∃ t, exec .sderive s = .next t ∧ t.core.st = [(b.toNat, [])] ∧
      exec (.wsym b) t = .next (t.answered .done)

/-- R133: no codeword `SDERIVE` records is the beginning of another symbol's. -/
def Obligations.CodewordsArePrefixFree : Prop :=
  ∀ (s t : State) (b b' : Byte) (p p' : Path), Inv s → Ready .sderive s → exec .sderive s = .next t →
    pathAt t.core.st b = some p → pathAt t.core.st b' = some p' → b ≠ b' → ¬ p <+: p'

/-! ### Writer -/

/-- R141: `WBIT d` sets bit `WCNT` for `Left` and leaves it for `Right`; before the eighth bit it counts up; at the eighth
it emits the byte and empties the writer; where the sink fails on that byte it raises `IoError`, and the writer keeps the
completed byte with `WCNT` = 7. -/
def Obligations.WbitAppendsOneDecision : Prop :=
  (∀ (d : Decision) (s : State), Ready (.wbit d) s → s.core.wcnt ≠ 7#3 → exec (.wbit d) s = .next
    { core := { s.core with
        wacc := if d = .left then s.core.wacc ||| (1#8 <<< s.core.wcnt) else s.core.wacc
        wcnt := s.core.wcnt + 1#3 }
      host := { s.host with answers := s.host.answers ++ [.done] } }) ∧
  (∀ (d : Decision) (s : State), Ready (.wbit d) s → s.core.wcnt = 7#3 → s.nextReply = .serves →
    exec (.wbit d) s = .next
    { core := { s.core with wacc := 0#8, wcnt := 0#3 }
      host := { s.host with
        snk := s.host.snk ++ [if d = .left then s.core.wacc ||| 0x80#8 else s.core.wacc]
        replies := s.host.replies.tail
        answers := s.host.answers ++ [.done] } }) ∧
  (∀ (d : Decision) (s : State) (e : BitVec 32) (p : Nat) (reached : Bool), Ready (.wbit d) s →
    s.core.wcnt = 7#3 → s.nextReply = .fails e p reached →
    ∃ t, exec (.wbit d) s = .next t ∧
      t.core = { s.core with
        wacc := if d = .left then s.core.wacc ||| 0x80#8 else s.core.wacc
        err := 5#4, errinfo := e, status := { s.core.status with fault := true } } ∧
      (t.host.snk = s.host.snk ∨
        t.host.snk = s.host.snk ++ [if d = .left then s.core.wacc ||| 0x80#8 else s.core.wacc]))

/-- R145: on a host that serves, `WBIT` appends its decision and `WSYM` its codeword, first decision first, to the bits
of the sink and the pending ones; `WFLUSH` pads them with zero bits to whole bytes and leaves nothing pending. -/
def Obligations.WriterAppendsItsBits : Prop :=
  (∀ (d : Decision) (s : State), Ready (.wbit d) s → Serving s → HighBitsZero s.core.wacc s.core.wcnt →
    ∃ t, exec (.wbit d) s = .next t ∧ writtenBits t = writtenBits s ++ [d.bit]) ∧
  (∀ (sym : Byte) (p : Path) (s : State), Ready (.wsym sym) s → Serving s →
    HighBitsZero s.core.wacc s.core.wcnt → pathAt s.core.st sym = some p →
    ∃ t, exec (.wsym sym) s = .next t ∧ t.core.status = s.core.status ∧
      writtenBits t = writtenBits s ++ pathBools p) ∧
  (∀ s : State, Ready .wflush s → Serving s → HighBitsZero s.core.wacc s.core.wcnt →
    ∃ t, exec .wflush s = .next t ∧ t.core.wacc = 0#8 ∧ t.core.wcnt = 0#3 ∧
      t.host.snk.flatMap byteBits = writtenBits s ++ List.replicate ((8 - s.core.wcnt.toNat) % 8) false)

/-- R204: `WSYM` of a symbol without an entry raises `SymbolNotInTableError(sym)` before any bit is appended. -/
def Obligations.WsymWithoutAnEntryRaises : Prop :=
  ∀ (sym : Byte) (s : State), Ready (.wsym sym) s → pathAt s.core.st sym = none →
    exec (.wsym sym) s = .next
      { core := { s.core with
          err := 10#4, errinfo := sym.setWidth 32, status := { s.core.status with fault := true } }
        host := { s.host with answers := s.host.answers ++ [.fault 10#4] } }

/-- R143: `WFLUSH` does nothing where no bit is pending; else it emits the accumulator and empties the writer, and where
the sink fails it raises `IoError` and keeps the pending bits. -/
def Obligations.WflushEmitsThePendingByte : Prop :=
  (∀ s : State, Ready .wflush s → s.core.wcnt = 0#3 → exec .wflush s = .next (s.answered .done)) ∧
  (∀ s : State, Ready .wflush s → s.core.wcnt ≠ 0#3 → s.nextReply = .serves → exec .wflush s = .next
    { core := { s.core with wacc := 0#8, wcnt := 0#3 }
      host := { s.host with
        snk := s.host.snk ++ [s.core.wacc], replies := s.host.replies.tail, answers := s.host.answers ++ [.done] } }) ∧
  (∀ (s : State) (e : BitVec 32) (p : Nat) (b : Bool), Ready .wflush s → s.core.wcnt ≠ 0#3 →
    s.nextReply = .fails e p b → ∃ t, exec .wflush s = .next t ∧ t.core =
      { s.core with err := 5#4, errinfo := e, status := { s.core.status with fault := true } })

/-! ### Reader -/

/-- R151: `RINIT` sets `RREM` to `total`, empties the reader, clears `OUTB`, `OUTV` and `EOM`, sets `RV`, and touches no
stream. R29: `total` is the exact sum of the 256 counts, it does not overflow 72 bits. -/
def Obligations.RinitStartsTheReader : Prop :=
  (∀ s : State, Ready .rinit s → exec .rinit s = .next
    { core := { s.core with
        rrem := total s.core.ft, racc := 0#8, rcnt := 0#3, outb := 0#8
        status := { s.core.status with rv := true, eom := false, outv := false } }
      host := { s.host with answers := s.host.answers ++ [.done] } }) ∧
  ∀ ft : Memory Count, (total ft).toNat = ((List.range 256).map fun k => (countAt ft (BitVec.ofNat 8 k)).toNat).sum

/-- R152: where the bits to come begin with a path from the root to the leaf of `b`, `RNEXT` takes exactly these bits,
returns `b` in `OUTB` with `OUTV` = 1, decrements `RREM`, and changes nothing else but the reader and the source position. -/
def Obligations.RnextDecodesOneSymbol : Prop :=
  ∀ (s : State) (p : Path) (b : Byte) (rest : List Bool), Ready .rnext s → Serving s →
    Memory.wf Config.nodeMax s.core.tm → s.core.rrem ≠ 0#72 →
    leadsToLeaf s.core.tm s.core.root p b = true → unreadBits s = pathBools p ++ rest →
    ∃ t, exec .rnext s = .next t ∧ unreadBits t = rest ∧
      t.core = { s.core with
        racc := t.core.racc, rcnt := t.core.rcnt, outb := b, rrem := s.core.rrem - 1#72
        status := { s.core.status with outv := true } } ∧
      t.host = { s.host with
        pos := t.host.pos, replies := t.host.replies, answers := s.host.answers ++ [.done] }

/-- R154: the first `RNEXT` with `RREM` = 0 ends `done` with `EOM` = 1, `OUTV` = 0, `OUTB` = 0 and takes nothing; one
that finds `EOM` = 1 raises `SequenceError` and changes nothing else; a new `RINIT` clears `EOM`. -/
def Obligations.EndOfMessageThenSequenceError : Prop :=
  (∀ s : State, Ready .rnext s → s.core.rrem = 0#72 → exec .rnext s = .next
    { core := { s.core with outb := 0#8, status := { s.core.status with eom := true, outv := false } }
      host := { s.host with answers := s.host.answers ++ [.done] } }) ∧
  (∀ s : State, s.core.status.fault = false → s.core.status.eom = true → exec .rnext s = .next
    { core := { s.core with
        err := 11#4, errinfo := 0x6200#32, status := { s.core.status with fault := true } }
      host := { s.host with answers := s.host.answers ++ [.fault 11#4] } }) ∧
  (∀ s : State, Ready .rinit s → ∃ t, exec .rinit s = .next t ∧ t.core.status.eom = false)

/-- R198: `RNEXT` raises `TruncatedPayloadError` where the bits to come end at an internal node; what was taken stays
taken, `OUTB`, `OUTV` and `RREM` stay. Where the root is a leaf it is never raised: no bit is needed. -/
def Obligations.TruncatedPayloadIsRaised : Prop :=
  (∀ (s : State) (p : Path) (j l r : NodeIdx) (w : Weight), Ready .rnext s → Serving s →
    Memory.wf Config.nodeMax s.core.tm → s.core.rrem ≠ 0#72 → unreadBits s = pathBools p →
    follow s.core.tm s.core.root p = some j → nodeAt s.core.tm j = some (.internal w l r) →
    ∃ t, exec .rnext s = .next t ∧ t.core.err = 7#4 ∧ t.core.errinfo = 0#32 ∧ unreadBits t = [] ∧
      t.core = { s.core with
        racc := t.core.racc, rcnt := t.core.rcnt, err := 7#4, errinfo := 0#32
        status := { s.core.status with fault := true } }) ∧
  (∀ (s : State) (b : Byte) (w : Weight), Ready .rnext s → s.core.root ≠ 511#9 →
    nodeAt s.core.tm s.core.root = some (.leaf b w) → ∃ t, exec .rnext s = .next t ∧ t.core.err = s.core.err)

/-- R153: where the root is a leaf, `RNEXT` returns its byte and decrements `RREM` without a stream request. -/
def Obligations.DegenerateReaderTakesNoBits : Prop :=
  ∀ (s : State) (b : Byte) (w : Weight), Ready .rnext s → s.core.rrem ≠ 0#72 → s.core.root ≠ 511#9 →
    nodeAt s.core.tm s.core.root = some (.leaf b w) →
    exec .rnext s = .next
      { core := { s.core with
          outb := b, rrem := s.core.rrem - 1#72, status := { s.core.status with outv := true } }
        host := { s.host with answers := s.host.answers ++ [.done] } }

/-! ### Container -/

/-- R200, with R52 and R161: `HWRITE` raises `HeaderCountOverflowError` where all 256 bytes are present, before any byte is
written; else, on a host that serves, it appends the header-length byte and, for each present byte in ascending order, the
byte and its count, most significant byte first, 1 + 9 `nsym` bytes in all, and changes nothing else. -/
def Obligations.HwriteWritesTheHeader : Prop :=
  (∀ s : State, Ready .hwrite s → nsym s.core.ft = 256 → exec .hwrite s = .next
    { core := { s.core with err := 8#4, errinfo := 256#32, status := { s.core.status with fault := true } }
      host := { s.host with answers := s.host.answers ++ [.fault 8#4] } }) ∧
  (∀ s : State, Ready .hwrite s → Serving s → nsym s.core.ft ≠ 256 →
    ∃ t, exec .hwrite s = .next t ∧ t.core = s.core ∧
      t.host.snk = s.host.snk ++ BitVec.ofNat 8 (nsym s.core.ft) ::
        ((List.range 256).map (BitVec.ofNat 8)).flatMap (fun b =>
          if countAt s.core.ft b = 0#64 then []
          else b :: (List.range 8).map (fun k => (countAt s.core.ft b).extractLsb' (8 * (7 - k)) 8)) ∧
      t.host.snk.length = s.host.snk.length + 1 + 9 * nsym s.core.ft ∧
      t.host = { s.host with
        snk := t.host.snk, replies := t.host.replies, answers := s.host.answers ++ [.done] })

/-- R166: where fewer than 256 bytes are present and `HWRITE` ends `done`, `HREAD` over the bytes it wrote ends `done`
with the same table, having consumed exactly these bytes. With R162: `HREAD` of a header-length byte and that many
entries with ascending bytes and positive counts ends `done` with exactly these counts. -/
def Obligations.HeaderFidelity : Prop :=
  (∀ s t : State, Ready .hwrite s → nsym s.core.ft < 256 → exec .hwrite s = .next t →
    t.host.answers = s.host.answers ++ [.done] →
    ∃ h, t.host.snk = s.host.snk ++ h ∧
      ∀ (u : State) (post : List Byte), Ready .hread u → Serving u → u.host.src.drop u.host.pos = h ++ post →
        ∃ v, exec .hread u = .next v ∧ (∀ b, countAt v.core.ft b = countAt s.core.ft b) ∧
          v.host.pos = u.host.pos + h.length ∧ v.host.answers = u.host.answers ++ [.done]) ∧
  (∀ (u : State) (es : List (Byte × Count)) (post : List Byte), Ready .hread u → Serving u → es.length < 256 →
    es.Pairwise (fun e e' => e.1.toNat < e'.1.toNat) → (∀ e ∈ es, e.2 ≠ 0#64) →
    u.host.src.drop u.host.pos = BitVec.ofNat 8 es.length :: (entriesBytes es ++ post) →
    ∃ v, exec .hread u = .next v ∧ (∀ e ∈ es, countAt v.core.ft e.1 = e.2) ∧
      (∀ b, (∀ e ∈ es, e.1 ≠ b) → countAt v.core.ft b = 0#64) ∧
      v.core = { u.core with ft := v.core.ft } ∧
      v.host = { u.host with
        pos := u.host.pos + (1 + 9 * es.length), replies := v.host.replies
        answers := u.host.answers ++ [.done] })

/-- R197, R162, R205: a source that ends inside a header raises `TruncatedHeaderError` with the number of header bytes read:
0 where the header-length byte itself is missing; else, for any length byte `n` and after `es` good entries, fewer than
`n`, where fewer than nine bytes follow, whatever they are (an entry both cut short and out of order is truncated). The
good entries stay stored. -/
def Obligations.TruncatedHeaderIsRaised : Prop :=
  (∀ u : State, Ready .hread u → Serving u → u.host.src.drop u.host.pos = [] →
    ∃ v, exec .hread u = .next v ∧ v.core.err = 3#4 ∧ v.core.errinfo = 0#32 ∧
      v.core.status = { u.core.status with fault := true } ∧ v.host.pos = u.host.pos ∧
      ∀ b, countAt v.core.ft b = 0#64) ∧
  (∀ (u : State) (n : Byte) (es : List (Byte × Count)) (cut : List Byte), Ready .hread u → Serving u →
    u.host.src.drop u.host.pos = n :: (entriesBytes es ++ cut) → es.length < n.toNat → cut.length < 9 →
    es.Pairwise (fun e e' => e.1.toNat < e'.1.toNat) → (∀ e ∈ es, e.2 ≠ 0#64) →
    ∃ v, exec .hread u = .next v ∧ v.core.err = 3#4 ∧
      v.core.errinfo = BitVec.ofNat 32 (1 + 9 * es.length + cut.length) ∧
      v.core.status = { u.core.status with fault := true } ∧ v.host.pos = u.host.src.length ∧
      (∀ e ∈ es, countAt v.core.ft e.1 = e.2) ∧
      (∀ b, (∀ e ∈ es, e.1 ≠ b) → countAt v.core.ft b = 0#64))

/-- R199: after `es` good entries, an entry whose byte is not above the one before raises `MalformedHeaderError` with
`0x100 | i`, else one with count 0 raises it with `0x200 | i`; the good entries stay stored. -/
def Obligations.MalformedHeaderIsRaised : Prop :=
  ∀ (u : State) (n : Byte) (es : List (Byte × Count)) (v : Byte) (c : Count) (post : List Byte),
    Ready .hread u → Serving u →
    u.host.src.drop u.host.pos = n :: (entriesBytes es ++ (v :: countBytes c) ++ post) →
    es.length < n.toNat → es.Pairwise (fun e e' => e.1.toNat < e'.1.toNat) → (∀ e ∈ es, e.2 ≠ 0#64) →
    ((∃ e ∈ es, v.toNat ≤ e.1.toNat) ∨ c = 0#64) →
    ∃ t, exec .hread u = .next t ∧ t.core.err = 6#4 ∧
      t.core.errinfo = (if ∃ e ∈ es, v.toNat ≤ e.1.toNat then 0x100#32 else 0x200#32) |||
        BitVec.ofNat 32 es.length ∧
      (∀ e ∈ es, countAt t.core.ft e.1 = e.2) ∧
      (∀ b, (∀ e ∈ es, e.1 ≠ b) → countAt t.core.ft b = 0#64)

/-- R163, R51 and R54: on a host that serves, `ENCODE` of a source that is not empty, has at most 255 distinct bytes and
fewer than 2^64 of each, ends `done` in phase `TREE` with the table of the source; it appended the header of that table,
then the codewords of the source's bytes in order, packed from bit 0 up and padded with zero bits to whole bytes. -/
def Obligations.EncodeEmitsTheContainer : Prop :=
  ∀ s : State, Ready .encode s → Serving s → s.host.src ≠ [] → s.host.src.dedup.length ≤ 255 →
    (∀ b, s.host.src.count b < 2 ^ 64) →
    ∃ t payload pad, exec .encode s = .next t ∧ statusBits t.core.status = 0x0C#8 ∧ t.core.err = 0#4 ∧
      t.core.wcnt = 0#3 ∧ t.host.pos = s.host.src.length ∧ t.host.src = s.host.src ∧
      (∀ b, (countAt t.core.ft b).toNat = s.host.src.count b) ∧
      (∀ b ∈ s.host.src, ∃ p, pathAt t.core.st b = some p ∧ leadsToLeaf t.core.tm t.core.root p b = true) ∧
      t.host.snk = s.host.snk ++ headerBytes t.core.ft ++ payload ∧ pad < 8 ∧
      payload.flatMap byteBits =
        s.host.src.flatMap (fun b => pathBools ((pathAt t.core.st b).getD [])) ++ List.replicate pad false ∧
      t.host.answers = s.host.answers ++ [.done]

/-- R167: on a host that serves, for every `S` that is not empty, has at most 255 distinct bytes and fewer than 2^64 of
each, `ENCODE` ends `done` with the container of `S`, and `DECODE` of that container, whatever follows it, ends `done`
having written `S`; where all 256 byte values occur, `ENCODE` raises `HeaderCountOverflowError` and writes nothing. -/
def Obligations.DecodeOfEncodeIsTheMessage : Prop :=
  (∀ s : State, Ready .encode s → Serving s → s.host.src ≠ [] → s.host.src.dedup.length ≤ 255 →
    (∀ b, s.host.src.count b < 2 ^ 64) →
    ∃ t, exec .encode s = .next t ∧ t.host.answers = s.host.answers ++ [.done] ∧
      t.host.snk = s.host.snk ++ containerOf s.host.src) ∧
  (∀ (u : State) (m post : List Byte), Ready .decode u → Serving u → m ≠ [] → m.dedup.length ≤ 255 →
    (∀ b, m.count b < 2 ^ 64) → u.host.src.drop u.host.pos = containerOf m ++ post →
    ∃ v, exec .decode u = .next v ∧ v.host.answers = u.host.answers ++ [.done] ∧
      v.host.snk = u.host.snk ++ m ∧ v.host.pos = u.host.pos + (containerOf m).length ∧
      statusBits v.core.status = 0x34#8 ∧ v.core.rrem = 0#72) ∧
  (∀ s : State, Ready .encode s → Serving s → (∀ b, b ∈ s.host.src) → (∀ b, s.host.src.count b < 2 ^ 64) →
    ∃ t, exec .encode s = .next t ∧ t.core.err = 8#4 ∧ t.core.errinfo = 256#32 ∧ t.host.snk = s.host.snk)

/-- R192: `QBUILD` with no present entry, `ENCODE` of an empty source and `DECODE` of a header whose length byte is 0
raise `EmptyInputError`, and the sink receives nothing. -/
def Obligations.EmptyInputErrorCases : Prop :=
  (∀ s : State, Ready .qbuild s → nsym s.core.ft = 0 → exec .qbuild s = .next
    { core := { s.core with err := 1#4, errinfo := 0#32, status := { s.core.status with fault := true } }
      host := { s.host with answers := s.host.answers ++ [.fault 1#4] } }) ∧
  (∀ s : State, Ready .encode s → Serving s → s.host.src = [] →
    ∃ t, exec .encode s = .next t ∧ t.core.err = 1#4 ∧ t.core.errinfo = 0#32 ∧ t.host.snk = s.host.snk) ∧
  (∀ (s : State) (post : List Byte), Ready .decode s → Serving s → s.host.src.drop s.host.pos = 0x00#8 :: post →
    ∃ t, exec .decode s = .next t ∧ t.core.err = 1#4 ∧ t.core.errinfo = 0#32 ∧ t.host.snk = s.host.snk)

/-- R168: the CORE state `ENCODE` ends in and the bytes it appends are a function of `SRC.bytes` alone, on a host that
serves: nothing of the state before shows. -/
def Obligations.EncodeIsAFunctionOfTheSource : Prop :=
  ∀ s s' t : State, Ready .encode s → Ready .encode s' → Serving s → Serving s' → s.host.src = s'.host.src →
    exec .encode s = .next t →
    ∃ t' c, exec .encode s' = .next t' ∧ t'.core = t.core ∧ t'.host.pos = t.host.pos ∧
      t.host.snk = s.host.snk ++ c ∧ t'.host.snk = s'.host.snk ++ c

/-! ### The read port -/

/-- R25, R184: the registers by number, the fields of `STATUS` at their bits, `QLEN` the length of the queue, which R24
bounds by 256; an entry of `FT`, the record of R21 in `TM` and of R22 in `ST`, queue entry `k` below `QLEN`; numbers 15 and
above and indices out of range read as 0, queue entries at and past `QLEN` as 511. -/
def Obligations.ReadPortShowsTheRegisters : Prop :=
  (∀ (c : CoreState) (n : Nat), 15 ≤ n → regRead c n = 0) ∧
  (∀ c : CoreState, (regRead c 0).getLsbD 0 = c.status.fault ∧ (regRead c 0).extractLsb' 1 2 = phaseBits c.status.phase ∧
    (regRead c 0).getLsbD 3 = c.status.stv ∧ (regRead c 0).getLsbD 4 = c.status.rv ∧
    (regRead c 0).getLsbD 5 = c.status.eom ∧ (regRead c 0).getLsbD 6 = c.status.outv ∧
    (regRead c 0).getLsbD 7 = c.status.xnv) ∧
  (∀ c : CoreState, (regRead c 1).toNat = c.err.toNat ∧ (regRead c 2).toNat = c.errinfo.toNat ∧
    (regRead c 4).toNat = c.root.toNat ∧ (regRead c 5).toNat = c.nextNode.toNat ∧ (regRead c 6).toNat = c.xn.toNat ∧
    (regRead c 7).toNat = c.outb.toNat ∧ (regRead c 8).toNat = c.wacc.toNat ∧ (regRead c 9).toNat = c.wcnt.toNat ∧
    (regRead c 10).toNat = c.racc.toNat ∧ (regRead c 11).toNat = c.rcnt.toNat ∧ (regRead c 12).toNat = c.rrem.toNat ∧
    (regRead c 13).toNat = nsym c.ft ∧ (regRead c 14).toNat = (total c.ft).toNat) ∧
  (∀ (c : CoreState) (i : Nat), (256 ≤ i → memRead c .ft i = 0 ∧ memRead c .st i = 0 ∧ memRead c .qm i = 0) ∧
    (511 ≤ i → memRead c .tm i = 0) ∧
    (i < 256 → c.queue.length ≤ i → (memRead c .qm i).toNat = 511)) ∧
  (∀ c : CoreState, c.queue.length ≤ 256 → (regRead c 3).toNat = c.queue.length) ∧
  (∀ s : State, Inv s → s.core.queue.length ≤ 256) ∧
  (∀ (c : CoreState) (b : Byte), (memRead c .ft b.toNat).toNat = (countAt c.ft b).toNat) ∧
  (∀ (c : CoreState) (i : NodeIdx), i ≠ 511#9 →
    (nodeAt c.tm i = none → memRead c .tm i.toNat = 0) ∧
    (∀ (sym : Byte) (w : Weight), nodeAt c.tm i = some (.leaf sym w) →
      (memRead c .tm i.toNat).extractLsb' 100 164 = 0 ∧ (memRead c .tm i.toNat).getLsbD 99 = true ∧
      (memRead c .tm i.toNat).getLsbD 98 = false ∧ (memRead c .tm i.toNat).extractLsb' 90 8 = sym ∧
      (memRead c .tm i.toNat).extractLsb' 18 72 = w ∧ (memRead c .tm i.toNat).extractLsb' 9 9 = 0#9 ∧
      (memRead c .tm i.toNat).extractLsb' 0 9 = 0#9) ∧
    (∀ (w : Weight) (l r : NodeIdx), nodeAt c.tm i = some (.internal w l r) →
      (memRead c .tm i.toNat).extractLsb' 100 164 = 0 ∧ (memRead c .tm i.toNat).getLsbD 99 = true ∧
      (memRead c .tm i.toNat).getLsbD 98 = true ∧ (memRead c .tm i.toNat).extractLsb' 90 8 = 0#8 ∧
      (memRead c .tm i.toNat).extractLsb' 18 72 = w ∧ (memRead c .tm i.toNat).extractLsb' 9 9 = l ∧
      (memRead c .tm i.toNat).extractLsb' 0 9 = r)) ∧
  (∀ (c : CoreState) (b : Byte),
    (pathAt c.st b = none → memRead c .st b.toNat = 0) ∧
    (∀ p : Path, pathAt c.st b = some p → p.length ≤ 255 →
      (memRead c .st b.toNat).getLsbD 263 = true ∧
      ((memRead c .st b.toNat).extractLsb' 255 8).toNat = p.length ∧
      ∀ k, k < 255 → (memRead c .st b.toNat).getLsbD k = decide (p[k]? = some .left))) ∧
  (∀ (c : CoreState) (k : Nat) (a : NodeIdx), k < 256 → c.queue[k]? = some a → (memRead c .qm k).toNat = a.toNat)

/-! ### What commands leave unchanged -/

/-- R44, R61: no command writes the source or the host's script, and the sink only grows. -/
def Obligations.SourceIsNeverWrittenAndTheSinkGrows : Prop :=
  ∀ (i : Instr) (s t : State), exec i s = .next t →
    t.host.src = s.host.src ∧ t.host.script = s.host.script ∧ s.host.snk <+: t.host.snk

/-- Frame of `FSCAN` and `HREAD` (R91, R162): only `FT`, the fault registers and the source position change, for `FSCAN`
only the counts of bytes in the rest of the source; and (R24 item 8) outside phase `IDLE` no command but those that clear
the CORE changes `FT`. -/
def Obligations.FrameOfTheFrequencyTable : Prop :=
  (∀ (i : Instr) (s t : State), i = .fscan ∨ i = .hread → exec i s = .next t → NoResetPending s →
    t.core = { s.core with
      ft := t.core.ft, err := t.core.err, errinfo := t.core.errinfo
      status := { s.core.status with fault := t.core.status.fault } } ∧
    t.host.snk = s.host.snk ∧
    (i = .fscan → ∀ b, b ∉ s.host.src.drop s.host.pos → countAt t.core.ft b = countAt s.core.ft b)) ∧
  (∀ (i : Instr) (s t : State), exec i s = .next t → NoResetPending s → s.core.status.phase ≠ .idle →
    i ≠ .clr → i ≠ .encode → i ≠ .decode → t.core.ft = s.core.ft)

/-- Frame of `QBUILD`, `QINS`, `QEXT`, `TJOIN`, `TREDUCE` (R103 to R105, R121, R122): no stream changes; of the CORE only
`TM`, the queue, `ROOT`, `NEXT`, `XN`, `PHASE`, `XNV` and the fault registers, and of these each only by the commands whose
rule writes it; in `TM` only the slots of present bytes (`QBUILD`), node `NEXT` (`TJOIN`), the nodes from `NEXT` on
(`TREDUCE`). -/
def Obligations.FrameOfTheQueueAndTreeCommands : Prop :=
  ∀ (i : Instr) (idx : NodeIdx) (s t : State),
    i = .qbuild ∨ i = .qins idx ∨ i = .qext ∨ i = .tjoin ∨ i = .treduce → exec i s = .next t →
    t.core = { s.core with
      tm := t.core.tm, queue := t.core.queue, root := t.core.root, nextNode := t.core.nextNode, xn := t.core.xn
      err := t.core.err, errinfo := t.core.errinfo
      status := { s.core.status with
        fault := t.core.status.fault, phase := t.core.status.phase, xnv := t.core.status.xnv } } ∧
    t.host = { s.host with answers := t.host.answers } ∧
    (i ≠ .treduce → t.core.root = s.core.root) ∧
    (i ≠ .treduce → i ≠ .tjoin → t.core.nextNode = s.core.nextNode) ∧
    (i ≠ .treduce → i ≠ .qbuild → t.core.status.phase = s.core.status.phase) ∧
    (i = .qext ∨ i = .qins idx → t.core.tm = s.core.tm) ∧
    (i = .qbuild → t.core.xn = s.core.xn ∧ t.core.status.xnv = s.core.status.xnv ∧
      ∀ j, (∀ b, present s.core.ft b = true → j ≠ leafIdx b) → nodeAt t.core.tm j = nodeAt s.core.tm j) ∧
    (i = .tjoin → ∀ j, j ≠ s.core.nextNode → nodeAt t.core.tm j = nodeAt s.core.tm j) ∧
    (i = .treduce → ∀ j : NodeIdx, j.toNat < s.core.nextNode.toNat → nodeAt t.core.tm j = nodeAt s.core.tm j)

/-- Frame of `SDERIVE`, `RINIT`, `RNEXT` (R131, R151, R152): `SDERIVE` changes only `ST`, `STV` and the fault registers
and no stream; the reader's commands change only the reader's registers and flags, `OUTB` and the fault registers, and of
the streams only the source position. -/
def Obligations.FrameOfTheTreesReaders : Prop :=
  (∀ s t : State, exec .sderive s = .next t →
    t.core = { s.core with
      st := t.core.st, err := t.core.err, errinfo := t.core.errinfo
      status := { s.core.status with fault := t.core.status.fault, stv := t.core.status.stv } } ∧
    t.host = { s.host with answers := t.host.answers }) ∧
  (∀ (i : Instr) (s t : State), i = .rinit ∨ i = .rnext → exec i s = .next t → NoResetPending s →
    t.core = { s.core with
      racc := t.core.racc, rcnt := t.core.rcnt, outb := t.core.outb, rrem := t.core.rrem
      err := t.core.err, errinfo := t.core.errinfo
      status := { s.core.status with
        fault := t.core.status.fault, rv := t.core.status.rv, eom := t.core.status.eom, outv := t.core.status.outv } } ∧
    t.host = { s.host with pos := t.host.pos, replies := t.host.replies, answers := t.host.answers } ∧
    (i = .rinit → t.host.pos = s.host.pos))

/-- Frame of `WBIT`, `WSYM`, `WFLUSH`, `HWRITE`, `SREW` (R141 to R143, R161, R182): the writer's commands change only
`WACC`, `WCNT`, the fault registers and the sink; `HWRITE` and `SREW` of the CORE only the fault registers; `SREW` of the
streams only the source position. -/
def Obligations.FrameOfTheStreamCommands : Prop :=
  (∀ (i : Instr) (d : Decision) (sym : Byte) (s t : State),
    i = .wbit d ∨ i = .wsym sym ∨ i = .wflush ∨ i = .hwrite → exec i s = .next t → NoResetPending s →
    t.core = { s.core with
      wacc := t.core.wacc, wcnt := t.core.wcnt, err := t.core.err, errinfo := t.core.errinfo
      status := { s.core.status with fault := t.core.status.fault } } ∧
    t.host = { s.host with snk := t.host.snk, replies := t.host.replies, answers := t.host.answers } ∧
    (i = .hwrite → t.core.wacc = s.core.wacc ∧ t.core.wcnt = s.core.wcnt)) ∧
  (∀ s t : State, exec .srew s = .next t → NoResetPending s →
    t.core = { s.core with
      err := t.core.err, errinfo := t.core.errinfo
      status := { s.core.status with fault := t.core.status.fault } } ∧
    t.host = { s.host with pos := t.host.pos, replies := t.host.replies, answers := t.host.answers })

/-- Frame of `ENCODE` and `DECODE` (R163, R164) where they are accepted: `ENCODE` leaves the reader as `CLR` does,
`DECODE` leaves the symbol table and the writer as `CLR` does. -/
def Obligations.FrameOfTheWholeStreamCommands : Prop :=
  (∀ s t : State, exec .encode s = .next t → s.core.status.fault = false →
    t.core.racc = 0#8 ∧ t.core.rcnt = 0#3 ∧ t.core.rrem = 0#72 ∧ t.core.outb = 0#8 ∧ t.core.xn = 511#9 ∧
    t.core.status.rv = false ∧ t.core.status.eom = false ∧ t.core.status.outv = false ∧ t.core.status.xnv = false) ∧
  (∀ s t : State, exec .decode s = .next t → s.core.status.fault = false →
    t.core.st = [] ∧ t.core.status.stv = false ∧ t.core.wacc = 0#8 ∧ t.core.wcnt = 0#3 ∧ t.core.xn = 511#9 ∧
    t.core.status.xnv = false)

/-! ### Invariants that every step keeps -/

/-- Every step keeps the source position inside the source (R27) and the memories in canonical form: as sorted lists with
no index twice or out of its space, and no count of 0 listed. That form is the model's choice (log entry 13) for the
memories of R20 to R22. -/
def Obligations.StepKeepsTheMemoriesCanonical : Prop :=
  ∀ s t : State, MemoriesCanonical s → step s = .next t → MemoriesCanonical t

/-- Every step keeps the fault registers, the result registers and the bit counts agreed (R15 to R17, R24 items 5 to 7;
the writer's half of item 7 while `FAULT` = 0, log entry 16). -/
def Obligations.StepKeepsTheRegistersAgreed : Prop :=
  ∀ s t : State, FaultRegistersAgree s → ResultRegistersAgree s → BitCountsAgree s → step s = .next t →
    FaultRegistersAgree t ∧ ResultRegistersAgree t ∧ BitCountsAgree t

/-- Every step keeps the whole invariant: R24 items 1 to 7 (the writer's half of item 7 while `FAULT` = 0, log entry 16)
with R15 to R17 and R27. -/
def Obligations.StepKeepsTheInvariant : Prop := ∀ s t : State, Inv s → step s = .next t → Inv t
end

