-- ==== Sys2Proof/Laws/Memory.lean ====
section
/-! SUPPORT. The laws of a memory of whole entries: a read after a write, and that every memory operation keeps the
canonical form (R41, log entry 13). -/

namespace Sys2Proof.Machine

variable {α : Type}

@[simp] theorem Memory.read?_nil (a : Nat) : Memory.read? ([] : Memory α) a = none := rfl

/-- A read after a write: the entry written at its index, every other index as before. -/
theorem Memory.read?_set (m : Memory α) (a : Nat) (x : α) (a' : Nat) :
    Memory.read? (Memory.set m a x) a' = if a' = a then some x else Memory.read? m a' := by
  induction m with
  | nil => simp [Memory.set, Memory.read?]
  | cons e m ih =>
    obtain ⟨k, y⟩ := e
    simp only [Memory.set]
    split_ifs <;> simp only [Memory.read?, ih] <;> split_ifs <;> first | rfl | omega

/-- A read after an index was unlisted. -/
theorem Memory.read?_erase (m : Memory α) (a a' : Nat) :
    Memory.read? (Memory.erase m a) a' = if a' = a then none else Memory.read? m a' := by
  induction m with
  | nil => simp [Memory.erase]
  | cons e m ih =>
    obtain ⟨k, y⟩ := e
    simp only [Memory.erase]
    by_cases hk : a = k <;> simp only [hk, if_true, if_false, Memory.read?] at ih ⊢ <;> rw [ih] <;>
      split_ifs <;> first | rfl | omega

/-- A write lists nothing but the entry written and entries listed before. -/
theorem Memory.mem_set {m : Memory α} {a : Nat} {x : α} {e : Nat × α} (h : e ∈ Memory.set m a x) :
    e = (a, x) ∨ e ∈ m := by
  induction m with
  | nil => simpa [Memory.set] using h
  | cons e' m ih =>
    obtain ⟨k, y⟩ := e'
    simp only [Memory.set] at h
    split_ifs at h with h1 h2
    · simpa using h
    · rcases List.mem_cons.1 h with h | h
      · exact .inl h
      · exact .inr (List.mem_cons_of_mem _ h)
    · rcases List.mem_cons.1 h with h | h
      · exact .inr (h ▸ List.mem_cons_self)
      · rcases ih h with h | h
        · exact .inl h
        · exact .inr (List.mem_cons_of_mem _ h)

theorem Memory.mem_erase {m : Memory α} {a : Nat} {e : Nat × α} (h : e ∈ Memory.erase m a) : e ∈ m := by
  induction m with
  | nil => exact h
  | cons e' m ih =>
    obtain ⟨k, y⟩ := e'
    simp only [Memory.erase] at h
    split_ifs at h
    · exact List.mem_cons_of_mem _ (ih h)
    · rcases List.mem_cons.1 h with h | h
      · exact h ▸ List.mem_cons_self
      · exact List.mem_cons_of_mem _ (ih h)

/-- A write inside the space keeps the canonical form. -/
theorem Memory.wf_set {size : Nat} {m : Memory α} (h : Memory.wf size m) {a : Nat} (ha : a < size) (x : α) :
    Memory.wf size (Memory.set m a x) := by
  refine ⟨?_, fun e he => ?_⟩
  · have hp := h.1
    clear h ha
    induction m with
    | nil => simp [Memory.set]
    | cons e m ih =>
      obtain ⟨k, y⟩ := e
      have hm := (List.pairwise_cons.1 hp)
      simp only [Memory.set]
      split_ifs with h1 h2
      · refine List.pairwise_cons.2 ⟨fun e' he' => ?_, hp⟩
        rcases List.mem_cons.1 he' with rfl | he'
        · exact h1
        · exact lt_trans h1 (hm.1 e' he')
      · subst h2; exact List.pairwise_cons.2 ⟨hm.1, hm.2⟩
      · refine List.pairwise_cons.2 ⟨fun e' he' => ?_, ih hm.2⟩
        rcases Memory.mem_set he' with rfl | he'
        · simp only; omega
        · exact hm.1 e' he'
  · rcases Memory.mem_set he with rfl | he
    · exact ha
    · exact h.2 e he

/-- Unlisting an index keeps the canonical form. -/
theorem Memory.wf_erase {size : Nat} {m : Memory α} (h : Memory.wf size m) (a : Nat) :
    Memory.wf size (Memory.erase m a) := by
  refine ⟨?_, fun e he => h.2 e (Memory.mem_erase he)⟩
  have hp := h.1
  clear h
  induction m with
  | nil => simp [Memory.erase]
  | cons e m ih =>
    obtain ⟨k, y⟩ := e
    have hm := (List.pairwise_cons.1 hp)
    simp only [Memory.erase]
    split_ifs
    · exact ih hm.2
    · exact List.pairwise_cons.2 ⟨fun e' he' => hm.1 e' (Memory.mem_erase he'), ih hm.2⟩

/-- In canonical form, what is listed is what is read. -/
theorem Memory.read?_eq_some_iff {size : Nat} {m : Memory α} (h : Memory.wf size m) (a : Nat) (x : α) :
    Memory.read? m a = some x ↔ (a, x) ∈ m := by
  have hp := h.1
  clear h
  induction m with
  | nil => simp
  | cons e m ih =>
    obtain ⟨k, y⟩ := e
    have hm := (List.pairwise_cons.1 hp)
    simp only [Memory.read?]
    split_ifs with hk
    · subst hk
      constructor
      · rintro ⟨⟩; exact List.mem_cons_self
      · intro he
        rcases List.mem_cons.1 he with he | he
        · simp_all
        · exact absurd (hm.1 _ he) (lt_irrefl _)
    · refine (ih hm.2).trans ?_; simp [hk]

/-- Two memories in canonical form that read the same are the same list. -/
theorem Memory.ext_of_read? {size : Nat} {m m' : Memory α} (h : Memory.wf size m) (h' : Memory.wf size m')
    (hr : ∀ a, Memory.read? m a = Memory.read? m' a) : m = m' := by
  have hmem : ∀ e : Nat × α, e ∈ m ↔ e ∈ m' := fun e => by
    rw [← Memory.read?_eq_some_iff h e.1 e.2, hr, Memory.read?_eq_some_iff h' e.1 e.2]
  have hnd : ∀ {l : Memory α}, Memory.wf size l → l.Nodup := fun hl =>
    hl.1.imp fun {a b} hab hne => by subst hne; exact absurd hab (lt_irrefl _)
  exact ((List.perm_ext_iff_of_nodup (hnd h) (hnd h')).2 hmem).eq_of_pairwise
    (fun a b _ _ hab hba => absurd hab (lt_asymm hba)) h.1 h'.1

/-! ### The frequency table -/

@[simp] theorem countAt_nil (b : Byte) : countAt [] b = 0#64 := rfl

/-- `FT` after a write. -/
theorem countAt_setCount (ft : Memory Count) (b : Byte) (c : Count) (b' : Byte) :
    countAt (setCount ft b c) b' = if b' = b then c else countAt ft b' := by
  unfold countAt setCount
  split_ifs with h1 h2 h2 <;>
    simp_all [Memory.read?_set, Memory.read?_erase, ← BitVec.toNat_inj]

theorem setCount_wf {ft : Memory Count} (h : countsWf ft) (b : Byte) (c : Count) : countsWf (setCount ft b c) := by
  unfold setCount
  split_ifs with hc
  · exact ⟨Memory.wf_erase h.1 _, fun e he => h.2 e (Memory.mem_erase he)⟩
  · refine ⟨Memory.wf_set h.1 b.isLt c, fun e he => ?_⟩
    rcases Memory.mem_set he with rfl | he
    · exact hc
    · exact h.2 e he

/-- Two frequency tables in canonical form with the same counts are the same list. -/
theorem counts_ext {ft ft' : Memory Count} (h : countsWf ft) (h' : countsWf ft')
    (hc : ∀ b, countAt ft b = countAt ft' b) : ft = ft' := by
  refine Memory.ext_of_read? h.1 h'.1 fun a => ?_
  have key : ∀ {f : Memory Count}, countsWf f → ∀ a, Memory.read? f a =
      if a < 256 ∧ countAt f (BitVec.ofNat 8 a) ≠ 0#64 then some (countAt f (BitVec.ofNat 8 a)) else none := by
    intro f hf a
    cases hr : Memory.read? f a with
    | none =>
      rw [if_neg]
      rintro ⟨ha, hn⟩
      apply hn
      simp only [countAt, BitVec.toNat_ofNat]
      rw [Nat.mod_eq_of_lt ha, hr]; rfl
    | some x =>
      have hm := (Memory.read?_eq_some_iff hf.1 a x).1 hr
      have ha : a < 256 := hf.1.2 _ hm
      have hx : countAt f (BitVec.ofNat 8 a) = x := by
        simp only [countAt, BitVec.toNat_ofNat]
        rw [Nat.mod_eq_of_lt ha, hr]; rfl
      rw [hx, if_pos ⟨ha, hf.2 _ hm⟩]
  rw [key h, key h', hc]

/-! ### The tree memory and the symbol table -/

@[simp] theorem nodeAt_nil (i : NodeIdx) : nodeAt [] i = none := rfl

theorem nodeAt_setNode (tm : Memory Node) (i : NodeIdx) (n : Node) (j : NodeIdx) :
    nodeAt (setNode tm i n) j = if j = i then some n else nodeAt tm j := by
  simp [nodeAt, setNode, Memory.read?_set, ← BitVec.toNat_inj]

theorem setNode_wf {tm : Memory Node} (h : Memory.wf Config.nodeMax tm) {i : NodeIdx} (hi : i ≠ Config.noNode)
    (n : Node) : Memory.wf Config.nodeMax (setNode tm i n) := by
  refine Memory.wf_set h ?_ n
  have := i.isLt
  have hi' : i.toNat ≠ 511 := fun h => hi (BitVec.eq_of_toNat_eq h)
  show i.toNat < 511
  omega

@[simp] theorem pathAt_nil (b : Byte) : pathAt [] b = none := rfl

theorem pathAt_setPath (st : Memory Path) (b : Byte) (p : Path) (b' : Byte) :
    pathAt (setPath st b p) b' = if b' = b then some p else pathAt st b' := by
  simp [pathAt, setPath, Memory.read?_set, ← BitVec.toNat_inj]

theorem setPath_wf {st : Memory Path} (h : Memory.wf Config.nsymMax st) (b : Byte) (p : Path) :
    Memory.wf Config.nsymMax (setPath st b p) := Memory.wf_set h b.isLt p

end Sys2Proof.Machine
end

