-- ==== Sys2Proof/Laws/State.lean ====
section
/-! SUPPORT. One lemma for each field and each named update of the state, true by rfl, so that no proof unfolds a record
update. -/

namespace Sys2Proof.Machine

/-! ### `withCore` -/

@[simp] theorem State.withCore_core (s : State) (c : CoreState) : (s.withCore c).core = c := rfl
@[simp] theorem State.withCore_src (s : State) (c : CoreState) : (s.withCore c).host.src = s.host.src := rfl
@[simp] theorem State.withCore_pos (s : State) (c : CoreState) : (s.withCore c).host.pos = s.host.pos := rfl
@[simp] theorem State.withCore_snk (s : State) (c : CoreState) : (s.withCore c).host.snk = s.host.snk := rfl
@[simp] theorem State.withCore_replies (s : State) (c : CoreState) : (s.withCore c).host.replies = s.host.replies := rfl
@[simp] theorem State.withCore_script (s : State) (c : CoreState) : (s.withCore c).host.script = s.host.script := rfl
@[simp] theorem State.withCore_answers (s : State) (c : CoreState) : (s.withCore c).host.answers = s.host.answers := rfl

/-! ### `withPos` -/

@[simp] theorem State.withPos_core (s : State) (p : Nat) : (s.withPos p).core = s.core := rfl
@[simp] theorem State.withPos_src (s : State) (p : Nat) : (s.withPos p).host.src = s.host.src := rfl
@[simp] theorem State.withPos_pos (s : State) (p : Nat) : (s.withPos p).host.pos = p := rfl
@[simp] theorem State.withPos_snk (s : State) (p : Nat) : (s.withPos p).host.snk = s.host.snk := rfl
@[simp] theorem State.withPos_replies (s : State) (p : Nat) : (s.withPos p).host.replies = s.host.replies := rfl
@[simp] theorem State.withPos_script (s : State) (p : Nat) : (s.withPos p).host.script = s.host.script := rfl
@[simp] theorem State.withPos_answers (s : State) (p : Nat) : (s.withPos p).host.answers = s.host.answers := rfl

/-! ### `withSnk` -/

@[simp] theorem State.withSnk_core (s : State) (k : List Byte) : (s.withSnk k).core = s.core := rfl
@[simp] theorem State.withSnk_src (s : State) (k : List Byte) : (s.withSnk k).host.src = s.host.src := rfl
@[simp] theorem State.withSnk_pos (s : State) (k : List Byte) : (s.withSnk k).host.pos = s.host.pos := rfl
@[simp] theorem State.withSnk_snk (s : State) (k : List Byte) : (s.withSnk k).host.snk = k := rfl
@[simp] theorem State.withSnk_replies (s : State) (k : List Byte) : (s.withSnk k).host.replies = s.host.replies := rfl
@[simp] theorem State.withSnk_script (s : State) (k : List Byte) : (s.withSnk k).host.script = s.host.script := rfl
@[simp] theorem State.withSnk_answers (s : State) (k : List Byte) : (s.withSnk k).host.answers = s.host.answers := rfl

/-! ### `withReplies` -/

@[simp] theorem State.withReplies_core (s : State) (rs : List HostReply) : (s.withReplies rs).core = s.core := rfl
@[simp] theorem State.withReplies_src (s : State) (rs : List HostReply) : (s.withReplies rs).host.src = s.host.src := rfl
@[simp] theorem State.withReplies_pos (s : State) (rs : List HostReply) : (s.withReplies rs).host.pos = s.host.pos := rfl
@[simp] theorem State.withReplies_snk (s : State) (rs : List HostReply) : (s.withReplies rs).host.snk = s.host.snk := rfl
@[simp] theorem State.withReplies_replies (s : State) (rs : List HostReply) : (s.withReplies rs).host.replies = rs := rfl
@[simp] theorem State.withReplies_script (s : State) (rs : List HostReply) : (s.withReplies rs).host.script = s.host.script := rfl
@[simp] theorem State.withReplies_answers (s : State) (rs : List HostReply) : (s.withReplies rs).host.answers = s.host.answers := rfl

/-! ### `withScript` -/

@[simp] theorem State.withScript_core (s : State) (es : List HostEvent) : (s.withScript es).core = s.core := rfl
@[simp] theorem State.withScript_src (s : State) (es : List HostEvent) : (s.withScript es).host.src = s.host.src := rfl
@[simp] theorem State.withScript_pos (s : State) (es : List HostEvent) : (s.withScript es).host.pos = s.host.pos := rfl
@[simp] theorem State.withScript_snk (s : State) (es : List HostEvent) : (s.withScript es).host.snk = s.host.snk := rfl
@[simp] theorem State.withScript_replies (s : State) (es : List HostEvent) : (s.withScript es).host.replies = s.host.replies := rfl
@[simp] theorem State.withScript_script (s : State) (es : List HostEvent) : (s.withScript es).host.script = es := rfl
@[simp] theorem State.withScript_answers (s : State) (es : List HostEvent) : (s.withScript es).host.answers = s.host.answers := rfl

/-! ### `withStreams` -/

@[simp] theorem State.withStreams_core (s : State) (b : List Byte) (p : Nat) (k : List Byte) : (s.withStreams b p k).core = s.core := rfl
@[simp] theorem State.withStreams_src (s : State) (b : List Byte) (p : Nat) (k : List Byte) : (s.withStreams b p k).host.src = b := rfl
@[simp] theorem State.withStreams_pos (s : State) (b : List Byte) (p : Nat) (k : List Byte) : (s.withStreams b p k).host.pos = min p b.length := rfl
@[simp] theorem State.withStreams_snk (s : State) (b : List Byte) (p : Nat) (k : List Byte) : (s.withStreams b p k).host.snk = k := rfl
@[simp] theorem State.withStreams_replies (s : State) (b : List Byte) (p : Nat) (k : List Byte) : (s.withStreams b p k).host.replies = s.host.replies := rfl
@[simp] theorem State.withStreams_script (s : State) (b : List Byte) (p : Nat) (k : List Byte) : (s.withStreams b p k).host.script = s.host.script := rfl
@[simp] theorem State.withStreams_answers (s : State) (b : List Byte) (p : Nat) (k : List Byte) : (s.withStreams b p k).host.answers = s.host.answers := rfl

/-! ### `answered` -/

@[simp] theorem State.answered_core (s : State) (a : Answer) : (s.answered a).core = s.core := rfl
@[simp] theorem State.answered_src (s : State) (a : Answer) : (s.answered a).host.src = s.host.src := rfl
@[simp] theorem State.answered_pos (s : State) (a : Answer) : (s.answered a).host.pos = s.host.pos := rfl
@[simp] theorem State.answered_snk (s : State) (a : Answer) : (s.answered a).host.snk = s.host.snk := rfl
@[simp] theorem State.answered_replies (s : State) (a : Answer) : (s.answered a).host.replies = s.host.replies := rfl
@[simp] theorem State.answered_script (s : State) (a : Answer) : (s.answered a).host.script = s.host.script := rfl
@[simp] theorem State.answered_answers (s : State) (a : Answer) : (s.answered a).host.answers = s.host.answers ++ [a] := rfl

/-! ### `withAnswers` -/

@[simp] theorem State.withAnswers_core (s : State) (as : List Answer) : (s.withAnswers as).core = s.core := rfl
@[simp] theorem State.withAnswers_src (s : State) (as : List Answer) : (s.withAnswers as).host.src = s.host.src := rfl
@[simp] theorem State.withAnswers_pos (s : State) (as : List Answer) : (s.withAnswers as).host.pos = s.host.pos := rfl
@[simp] theorem State.withAnswers_snk (s : State) (as : List Answer) : (s.withAnswers as).host.snk = s.host.snk := rfl
@[simp] theorem State.withAnswers_replies (s : State) (as : List Answer) : (s.withAnswers as).host.replies = s.host.replies := rfl
@[simp] theorem State.withAnswers_script (s : State) (as : List Answer) : (s.withAnswers as).host.script = s.host.script := rfl
@[simp] theorem State.withAnswers_answers (s : State) (as : List Answer) : (s.withAnswers as).host.answers = as := rfl

/-! ### `dropReply` -/

@[simp] theorem State.dropReply_core (s : State) : (s.dropReply).core = s.core := rfl
@[simp] theorem State.dropReply_src (s : State) : (s.dropReply).host.src = s.host.src := rfl
@[simp] theorem State.dropReply_pos (s : State) : (s.dropReply).host.pos = s.host.pos := rfl
@[simp] theorem State.dropReply_snk (s : State) : (s.dropReply).host.snk = s.host.snk := rfl
@[simp] theorem State.dropReply_replies (s : State) : (s.dropReply).host.replies = s.host.replies.tail := rfl
@[simp] theorem State.dropReply_script (s : State) : (s.dropReply).host.script = s.host.script := rfl
@[simp] theorem State.dropReply_answers (s : State) : (s.dropReply).host.answers = s.host.answers := rfl

/-! ### `enterFault` -/

@[simp] theorem State.enterFault_status (s : State) (k : ErrorKind) (info : BitVec 32) : (s.enterFault k info).core.status = { s.core.status with fault := true } := rfl
@[simp] theorem State.enterFault_err (s : State) (k : ErrorKind) (info : BitVec 32) : (s.enterFault k info).core.err = errCode k := rfl
@[simp] theorem State.enterFault_errinfo (s : State) (k : ErrorKind) (info : BitVec 32) : (s.enterFault k info).core.errinfo = info := rfl
@[simp] theorem State.enterFault_queue (s : State) (k : ErrorKind) (info : BitVec 32) : (s.enterFault k info).core.queue = s.core.queue := rfl
@[simp] theorem State.enterFault_root (s : State) (k : ErrorKind) (info : BitVec 32) : (s.enterFault k info).core.root = s.core.root := rfl
@[simp] theorem State.enterFault_nextNode (s : State) (k : ErrorKind) (info : BitVec 32) : (s.enterFault k info).core.nextNode = s.core.nextNode := rfl
@[simp] theorem State.enterFault_xn (s : State) (k : ErrorKind) (info : BitVec 32) : (s.enterFault k info).core.xn = s.core.xn := rfl
@[simp] theorem State.enterFault_outb (s : State) (k : ErrorKind) (info : BitVec 32) : (s.enterFault k info).core.outb = s.core.outb := rfl
@[simp] theorem State.enterFault_wacc (s : State) (k : ErrorKind) (info : BitVec 32) : (s.enterFault k info).core.wacc = s.core.wacc := rfl
@[simp] theorem State.enterFault_wcnt (s : State) (k : ErrorKind) (info : BitVec 32) : (s.enterFault k info).core.wcnt = s.core.wcnt := rfl
@[simp] theorem State.enterFault_racc (s : State) (k : ErrorKind) (info : BitVec 32) : (s.enterFault k info).core.racc = s.core.racc := rfl
@[simp] theorem State.enterFault_rcnt (s : State) (k : ErrorKind) (info : BitVec 32) : (s.enterFault k info).core.rcnt = s.core.rcnt := rfl
@[simp] theorem State.enterFault_rrem (s : State) (k : ErrorKind) (info : BitVec 32) : (s.enterFault k info).core.rrem = s.core.rrem := rfl
@[simp] theorem State.enterFault_ft (s : State) (k : ErrorKind) (info : BitVec 32) : (s.enterFault k info).core.ft = s.core.ft := rfl
@[simp] theorem State.enterFault_tm (s : State) (k : ErrorKind) (info : BitVec 32) : (s.enterFault k info).core.tm = s.core.tm := rfl
@[simp] theorem State.enterFault_st (s : State) (k : ErrorKind) (info : BitVec 32) : (s.enterFault k info).core.st = s.core.st := rfl
@[simp] theorem State.enterFault_src (s : State) (k : ErrorKind) (info : BitVec 32) : (s.enterFault k info).host.src = s.host.src := rfl
@[simp] theorem State.enterFault_pos (s : State) (k : ErrorKind) (info : BitVec 32) : (s.enterFault k info).host.pos = s.host.pos := rfl
@[simp] theorem State.enterFault_snk (s : State) (k : ErrorKind) (info : BitVec 32) : (s.enterFault k info).host.snk = s.host.snk := rfl
@[simp] theorem State.enterFault_replies (s : State) (k : ErrorKind) (info : BitVec 32) : (s.enterFault k info).host.replies = s.host.replies := rfl
@[simp] theorem State.enterFault_script (s : State) (k : ErrorKind) (info : BitVec 32) : (s.enterFault k info).host.script = s.host.script := rfl
@[simp] theorem State.enterFault_answers (s : State) (k : ErrorKind) (info : BitVec 32) : (s.enterFault k info).host.answers = s.host.answers := rfl

/-! ### `cleared` -/

@[simp] theorem State.cleared_core (s : State) : (s.cleared).core = CoreState.reset := rfl
@[simp] theorem State.cleared_src (s : State) : (s.cleared).host.src = s.host.src := rfl
@[simp] theorem State.cleared_pos (s : State) : (s.cleared).host.pos = s.host.pos := rfl
@[simp] theorem State.cleared_snk (s : State) : (s.cleared).host.snk = s.host.snk := rfl
@[simp] theorem State.cleared_replies (s : State) : (s.cleared).host.replies = s.host.replies := rfl
@[simp] theorem State.cleared_script (s : State) : (s.cleared).host.script = s.host.script := rfl
@[simp] theorem State.cleared_answers (s : State) : (s.cleared).host.answers = s.host.answers := rfl

end Sys2Proof.Machine
end

