-- ==== Sys2Proof/Laws/Res.lean ====
section
/-! SUPPORT. What the end of a rule's pseudocode can be: the laws of `Res.andThen`, the property `Res.Ends` that every
final state of a rule has, and the inversion of `exec` that every claim about all commands rests on. -/

namespace Sys2Proof.Machine

variable {α β : Type}

@[simp] theorem Res.andThen_ok (a : α) (s : State) (f : α → State → Res β) : (Res.ok a s).andThen f = f a s := rfl
@[simp] theorem Res.andThen_raised (k : ErrorKind) (info : BitVec 32) (s : State) (f : α → State → Res β) :
    (Res.raised k info s : Res α).andThen f = .raised k info s := rfl
@[simp] theorem Res.andThen_abandoned (s : State) (f : α → State → Res β) :
    (Res.abandoned s : Res α).andThen f = .abandoned s := rfl
@[simp] theorem Res.andThen_stopped (x : Fault) (f : α → State → Res β) :
    (Res.stopped x : Res α).andThen f = .stopped x := rfl

theorem Res.andThen_assoc {γ : Type} (r : Res α) (f : α → State → Res β) (g : β → State → Res γ) :
    (r.andThen f).andThen g = r.andThen fun a s => (f a s).andThen g := by
  cases r <;> rfl

/-- A sequence ends with a value exactly where both parts do. -/
theorem Res.andThen_eq_ok {r : Res α} {f : α → State → Res β} {b : β} {t : State} :
    r.andThen f = .ok b t ↔ ∃ a s, r = .ok a s ∧ f a s = .ok b t := by
  cases r <;> simp

/-- A sequence raises where its first part does, or its second after the first ended with a value. -/
theorem Res.andThen_eq_raised {r : Res α} {f : α → State → Res β} {k : ErrorKind} {i : BitVec 32} {t : State} :
    r.andThen f = .raised k i t ↔ r = .raised k i t ∨ ∃ a s, r = .ok a s ∧ f a s = .raised k i t := by
  cases r <;> simp

theorem Res.andThen_eq_abandoned {r : Res α} {f : α → State → Res β} {t : State} :
    r.andThen f = .abandoned t ↔ r = .abandoned t ∨ ∃ a s, r = .ok a s ∧ f a s = .abandoned t := by
  cases r <;> simp

theorem Res.andThen_eq_stopped {r : Res α} {f : α → State → Res β} {x : Fault} :
    r.andThen f = .stopped x ↔ r = .stopped x ∨ ∃ a s, r = .ok a s ∧ f a s = .stopped x := by
  cases r <;> simp

/-- Every state the pseudocode can end in has the property, however it ends; a stop has no state. -/
def Res.Ends (P : State → Prop) : Res α → Prop
  | .ok _ s => P s
  | .raised _ _ s => P s
  | .abandoned s => P s
  | .stopped _ => True

@[simp] theorem Res.ends_ok (P : State → Prop) (a : α) (s : State) : (Res.ok a s).Ends P ↔ P s := Iff.rfl
@[simp] theorem Res.ends_raised (P : State → Prop) (k : ErrorKind) (i : BitVec 32) (s : State) :
    (Res.raised k i s : Res α).Ends P ↔ P s := Iff.rfl
@[simp] theorem Res.ends_abandoned (P : State → Prop) (s : State) : (Res.abandoned s : Res α).Ends P ↔ P s := Iff.rfl
@[simp] theorem Res.ends_stopped (P : State → Prop) (x : Fault) : (Res.stopped x : Res α).Ends P ↔ True := Iff.rfl

theorem Res.Ends.imp {P Q : State → Prop} {r : Res α} (h : r.Ends P) (hpq : ∀ s, P s → Q s) : r.Ends Q := by
  cases r <;> simp_all [Res.Ends]

/-- A sequence keeps a property that its first part ends in and its second part, from there, ends in. -/
theorem Res.ends_andThen {P : State → Prop} {r : Res α} {f : α → State → Res β} (h : r.Ends P)
    (hf : ∀ a s, r = .ok a s → P s → (f a s).Ends P) : (r.andThen f).Ends P := by
  cases r with
  | ok a s => exact hf a s rfl h
  | raised k i s => exact h
  | abandoned s => exact h
  | stopped x => trivial

/-- The pseudocode of each command, as its meaning performs it. -/
def ruleOf : Instr → State → Res Unit
  | .fscan => fscanRule
  | .qbuild => qbuildRule
  | .qins idx => qinsRule idx
  | .qext => qextRule
  | .tjoin => tjoinRule
  | .treduce => treduceRule
  | .sderive => sderiveRule
  | .wbit d => wbitRule d
  | .wsym sym => wsymRule sym
  | .wflush => wflushRule
  | .rinit => rinitRule
  | .rnext => rnextRule
  | .hwrite => hwriteRule
  | .hread => hreadRule
  | .encode => encodeRule
  | .decode => decodeRule
  | .clr => clrRule
  | .srew => srewRule

/-- Every command is the acceptance of R77 around its pseudocode. -/
theorem exec_eq_perform (i : Instr) (s : State) : exec i s = perform i s (ruleOf i) := by
  cases i <;> rfl

/-- A command refused: a fault is pending and it is not `CLR` (R77 step 1). -/
theorem exec_refused {i : Instr} {s : State} (hf : s.core.status.fault = true) (hi : i ≠ .clr) :
    exec i s = .next (s.answered .refused) := by
  rw [exec_eq_perform, perform, if_pos ⟨hf, hi⟩]

/-- A command whose precondition fails (R77 step 3). -/
theorem exec_sequence {i : Instr} {s : State} (hf : s.core.status.fault = false)
    (hp : precondition i s.core.status = false) :
    exec i s = .next (takeFault .sequence ((encode i).setWidth 32) s) := by
  rw [exec_eq_perform, perform, if_neg (by simp [hf]), if_neg (by simp [hp])]

/-- A command accepted: its pseudocode decides (R77 step 4). -/
theorem exec_ready {i : Instr} {s : State} (hf : s.core.status.fault = false)
    (hp : precondition i s.core.status = true) : exec i s = conclude (ruleOf i s) := by
  rw [exec_eq_perform, perform, if_neg (by simp [hf]), if_pos hp]

/-- What a command can do when it answers: refused, `SequenceError`, or its pseudocode from a state in which it is
accepted (`CLR` also from the fault state), ended with a value, with a `raise`, or abandoned by reset. -/
theorem exec_next_cases {i : Instr} {s t : State} (h : exec i s = .next t) :
    (s.core.status.fault = true ∧ i ≠ .clr ∧ t = s.answered .refused) ∨
    (s.core.status.fault = false ∧ precondition i s.core.status = false ∧
      t = takeFault .sequence ((encode i).setWidth 32) s) ∨
    ((s.core.status.fault = false ∨ i = .clr) ∧ precondition i s.core.status = true ∧
      ((∃ u, ruleOf i s = .ok () u ∧ t = u.answered .done) ∨
       (∃ k info u, ruleOf i s = .raised k info u ∧ t = takeFault k info u) ∨
       (∃ u, ruleOf i s = .abandoned u ∧ t = u.cleared))) := by
  rw [exec_eq_perform, perform] at h
  split_ifs at h with h1 h2
  · left
    refine ⟨h1.1, h1.2, ?_⟩
    injection h with h
    exact h.symm
  · right; right
    refine ⟨?_, h2, ?_⟩
    · by_cases hi : i = .clr
      · exact .inr hi
      · left
        by_contra hc
        exact h1 ⟨by simpa using hc, hi⟩
    · cases hr : ruleOf i s with
      | ok a u => rw [hr] at h; injection h with h; exact .inl ⟨u, rfl, h.symm⟩
      | raised k info u => rw [hr] at h; injection h with h; exact .inr (.inl ⟨k, info, u, rfl, h.symm⟩)
      | abandoned u => rw [hr] at h; injection h with h; exact .inr (.inr ⟨u, rfl, h.symm⟩)
      | stopped f => rw [hr] at h; cases h
  · right; left
    refine ⟨?_, by simpa using h2, ?_⟩
    · by_cases hi : i = .clr
      · subst hi; exact absurd rfl h2
      · by_contra hc
        exact h1 ⟨by simpa using hc, hi⟩
    · injection h with h
      exact h.symm

/-- A property of the end states of a command: enough that refusing, taking a fault, answering and resetting keep it and
that the pseudocode, where it runs, ends in it. -/
theorem exec_next_of_rule {P : State → Prop} {i : Instr} {s t : State} (h : exec i s = .next t)
    (hs : P s) (hans : ∀ u a, P u → P (u.answered a)) (hfault : ∀ u k info, P u → P (u.enterFault k info))
    (hclear : ∀ u, P u → P u.cleared)
    (hrule : (s.core.status.fault = false ∨ i = .clr) → precondition i s.core.status = true → (ruleOf i s).Ends P) :
    P t := by
  rcases exec_next_cases h with ⟨_, _, rfl⟩ | ⟨_, _, rfl⟩ | ⟨hf, hp, ⟨u, hu, rfl⟩ | ⟨k, info, u, hu, rfl⟩ | ⟨u, hu, rfl⟩⟩
  · exact hans _ _ hs
  · exact hans _ _ (hfault _ _ _ hs)
  · have := hrule hf hp; rw [hu] at this; exact hans _ _ this
  · have := hrule hf hp; rw [hu] at this; exact hans _ _ (hfault _ _ _ this)
  · have := hrule hf hp; rw [hu] at this; exact hclear _ this

end Sys2Proof.Machine
end

