-- ==== Sys2Proof/Laws/Streams.lean ====
section
/-! SUPPORT. What one stream request can do (rules R45 to R48), said once for each primitive, and what it does on a host
that serves every request. -/

namespace Sys2Proof.Machine

@[simp] theorem State.cleared_cleared (s : State) : s.cleared.cleared = s.cleared := rfl

/-- Every end of `SrcRead`: a reply used up and the source at some position inside it, nothing else. -/
theorem srcRead_ends {P : State → Prop} {s : State}
    (h : ∀ p, (s.host.pos ≤ s.host.src.length → p ≤ s.host.src.length) → P (s.dropReply.withPos p)) :
    (srcRead s).Ends P := by
  unfold srcRead
  split
  · split
    · next v hv =>
      refine h _ fun _ => ?_
      obtain ⟨hl, _⟩ := List.getElem?_eq_some_iff.1 hv
      exact hl
    · exact h s.host.pos id
  · exact h _ fun _ => Nat.min_le_right _ _
  · exact h s.host.pos id
  · trivial

/-- Every end of `SrcRewind`. -/
theorem srcRewind_ends {P : State → Prop} {s : State}
    (h : ∀ p, (s.host.pos ≤ s.host.src.length → p ≤ s.host.src.length) → P (s.dropReply.withPos p)) :
    (srcRewind s).Ends P := by
  unfold srcRewind
  split
  · exact h _ fun _ => Nat.zero_le _
  · exact h _ fun _ => Nat.min_le_right _ _
  · exact h s.host.pos id
  · trivial

/-- Every end of `SnkWrite(v)`: a reply used up and the sink as before or one byte longer (U6), nothing else. -/
theorem snkWrite_ends {P : State → Prop} {v : Byte} {s : State}
    (h : ∀ k, k = s.host.snk ∨ k = s.host.snk ++ [v] → P (s.dropReply.withSnk k)) : (snkWrite v s).Ends P := by
  unfold snkWrite
  split
  · exact h _ (.inr rfl)
  · refine h _ ?_
    split_ifs
    · exact .inr rfl
    · exact .inl rfl
  · exact h s.host.snk (.inl rfl)
  · trivial

/-- `SrcRead` that ends with a value: the request was served. -/
theorem srcRead_eq_ok {s t : State} {r : Option Byte} :
    srcRead s = .ok r t ↔ s.nextReply = .serves ∧ r = s.host.src[s.host.pos]? ∧
      t = s.dropReply.withPos (if r.isSome then s.host.pos + 1 else s.host.pos) := by
  unfold srcRead
  split
  · next hn =>
    split
    · next v hv =>
      simp only [Res.ok.injEq, hn, hv, true_and]
      constructor
      · rintro ⟨rfl, rfl⟩; exact ⟨rfl, rfl⟩
      · rintro ⟨rfl, rfl⟩; exact ⟨rfl, rfl⟩
    · next hv =>
      simp only [Res.ok.injEq, hn, hv, true_and]
      constructor
      · rintro ⟨rfl, rfl⟩; exact ⟨rfl, rfl⟩
      · rintro ⟨rfl, rfl⟩; exact ⟨rfl, rfl⟩
  all_goals next hn => simp [hn]

/-- `SrcRead` raises `IoError(e)` exactly where the reply is a failure with code `e` (R195, U15). -/
theorem srcRead_eq_raised {s t : State} {k : ErrorKind} {i : BitVec 32} :
    srcRead s = .raised k i t ↔ k = .io ∧ ∃ p b, s.nextReply = .fails i p b ∧
      t = s.dropReply.withPos (min p s.host.src.length) := by
  unfold srcRead
  split
  · next hn => split <;> simp [hn]
  · next e p b hn =>
    rw [hn]
    simp only [Res.raised.injEq, HostReply.fails.injEq]
    constructor
    · rintro ⟨rfl, rfl, rfl⟩; exact ⟨rfl, p, b, ⟨rfl, rfl, rfl⟩, rfl⟩
    · rintro ⟨rfl, _, _, ⟨rfl, rfl, rfl⟩, rfl⟩; exact ⟨rfl, rfl, rfl⟩
  all_goals next hn => simp [hn]

theorem srcRewind_eq_ok {s t : State} :
    srcRewind s = .ok () t ↔ s.nextReply = .serves ∧ t = s.dropReply.withPos 0 := by
  unfold srcRewind
  split <;> next hn => simp only [hn, Res.ok.injEq, reduceCtorEq, true_and, false_and, eq_comm]

theorem srcRewind_eq_raised {s t : State} {k : ErrorKind} {i : BitVec 32} :
    srcRewind s = .raised k i t ↔ k = .io ∧ ∃ p b, s.nextReply = .fails i p b ∧
      t = s.dropReply.withPos (min p s.host.src.length) := by
  unfold srcRewind
  split
  · next hn => simp [hn]
  · next e p b hn =>
    rw [hn]
    simp only [Res.raised.injEq, HostReply.fails.injEq]
    constructor
    · rintro ⟨rfl, rfl, rfl⟩; exact ⟨rfl, p, b, ⟨rfl, rfl, rfl⟩, rfl⟩
    · rintro ⟨rfl, _, _, ⟨rfl, rfl, rfl⟩, rfl⟩; exact ⟨rfl, rfl, rfl⟩
  all_goals next hn => simp [hn]

theorem snkWrite_eq_ok {v : Byte} {s t : State} :
    snkWrite v s = .ok () t ↔ s.nextReply = .serves ∧ t = s.dropReply.withSnk (s.host.snk ++ [v]) := by
  unfold snkWrite
  split <;> next hn => simp only [hn, Res.ok.injEq, reduceCtorEq, true_and, false_and, eq_comm]

theorem snkWrite_eq_raised {v : Byte} {s t : State} {k : ErrorKind} {i : BitVec 32} :
    snkWrite v s = .raised k i t ↔ k = .io ∧ ∃ p b, s.nextReply = .fails i p b ∧
      t = s.dropReply.withSnk (if b then s.host.snk ++ [v] else s.host.snk) := by
  unfold snkWrite
  split
  · next hn => simp [hn]
  · next e p b hn =>
    rw [hn]
    simp only [Res.raised.injEq, HostReply.fails.injEq]
    constructor
    · rintro ⟨rfl, rfl, rfl⟩; exact ⟨rfl, p, b, ⟨rfl, rfl, rfl⟩, rfl⟩
    · rintro ⟨rfl, _, _, ⟨rfl, rfl, rfl⟩, rfl⟩; exact ⟨rfl, rfl, rfl⟩
  all_goals next hn => simp [hn]

/-! ### A host that serves every request -/

theorem Serving.nextReply {s : State} (h : Serving s) : s.nextReply = .serves := by
  unfold State.nextReply
  cases hr : s.host.replies with
  | nil => rfl
  | cons r rs => exact h r (by rw [hr]; exact List.mem_cons_self)

/-- Serving is a property of the coming replies alone, and using one up keeps it. -/
theorem Serving.of_suffix {s t : State} (h : Serving s) (n : Nat) (ht : t.host.replies = s.host.replies.drop n) :
    Serving t := fun r hr => h r (List.mem_of_mem_drop (ht ▸ hr))

theorem Serving.dropReply {s : State} (h : Serving s) : Serving s.dropReply :=
  h.of_suffix 1 (by simp)

theorem srcRead_serving {s : State} (h : Serving s) :
    srcRead s = .ok s.host.src[s.host.pos]?
      (s.dropReply.withPos (if s.host.src[s.host.pos]?.isSome then s.host.pos + 1 else s.host.pos)) :=
  srcRead_eq_ok.2 ⟨h.nextReply, rfl, rfl⟩

theorem srcRewind_serving {s : State} (h : Serving s) : srcRewind s = .ok () (s.dropReply.withPos 0) :=
  srcRewind_eq_ok.2 ⟨h.nextReply, rfl⟩

theorem snkWrite_serving {s : State} (h : Serving s) (v : Byte) :
    snkWrite v s = .ok () (s.dropReply.withSnk (s.host.snk ++ [v])) := snkWrite_eq_ok.2 ⟨h.nextReply, rfl⟩

end Sys2Proof.Machine
end

