-- ==== Sys2Proof/Laws/Frames.lean ====
section
/-! SUPPORT. What each rule's pseudocode can change, however it ends: one lemma per rule and per loop. The claims about
frames, invariants and the matrix of faults cite these and never unfold a rule. -/

namespace Sys2Proof.Machine

/-- From `s` to `t` only the source was moved: the position stays inside the source, replies were used up. -/
structure SourceMoved (s t : State) : Prop where
  host : t.host = { s.host with pos := t.host.pos, replies := t.host.replies }
  replies : t.host.replies <:+ s.host.replies
  pos : s.host.pos ≤ s.host.src.length → t.host.pos ≤ s.host.src.length

/-- From `s` to `t` only the sink was moved: it grew, replies were used up. -/
structure SinkMoved (s t : State) : Prop where
  host : t.host = { s.host with snk := t.host.snk, replies := t.host.replies }
  replies : t.host.replies <:+ s.host.replies
  snk : s.host.snk <+: t.host.snk

/-- From `s` to `t` only the streams were moved. -/
structure StreamsMoved (s t : State) : Prop where
  host : t.host = { s.host with pos := t.host.pos, snk := t.host.snk, replies := t.host.replies }
  replies : t.host.replies <:+ s.host.replies
  pos : s.host.pos ≤ s.host.src.length → t.host.pos ≤ s.host.src.length
  snk : s.host.snk <+: t.host.snk

theorem SourceMoved.of_host_eq {s t : State} (h : t.host = s.host) : SourceMoved s t :=
  ⟨by rw [h], by rw [h], fun hp => by rw [h]; exact hp⟩

theorem SourceMoved.withCore (s : State) (c : CoreState) : SourceMoved s (s.withCore c) := .of_host_eq rfl

theorem SourceMoved.src {s t : State} (h : SourceMoved s t) : t.host.src = s.host.src := by rw [h.host]

theorem SourceMoved.trans {s t u : State} (h : SourceMoved s t) (h' : SourceMoved t u) : SourceMoved s u := by
  refine ⟨?_, h'.replies.trans h.replies, fun hp => ?_⟩
  · rw [h'.host, h.host]
  · have := h'.pos (by rw [h.src]; exact h.pos hp); rwa [h.src] at this

theorem SinkMoved.of_host_eq {s t : State} (h : t.host = s.host) : SinkMoved s t :=
  ⟨by rw [h], by rw [h], by rw [h]⟩

theorem SinkMoved.withCore (s : State) (c : CoreState) : SinkMoved s (s.withCore c) := .of_host_eq rfl

theorem SinkMoved.trans {s t u : State} (h : SinkMoved s t) (h' : SinkMoved t u) : SinkMoved s u :=
  ⟨by rw [h'.host, h.host], h'.replies.trans h.replies, h.snk.trans h'.snk⟩

theorem StreamsMoved.src {s t : State} (h : StreamsMoved s t) : t.host.src = s.host.src := by rw [h.host]

theorem StreamsMoved.trans {s t u : State} (h : StreamsMoved s t) (h' : StreamsMoved t u) : StreamsMoved s u := by
  refine ⟨?_, h'.replies.trans h.replies, fun hp => ?_, h.snk.trans h'.snk⟩
  · rw [h'.host, h.host]
  · have := h'.pos (by rw [h.src]; exact h.pos hp); rwa [h.src] at this

theorem StreamsMoved.of_host_eq {s t : State} (h : t.host = s.host) : StreamsMoved s t :=
  ⟨by rw [h], by rw [h], fun hp => by rw [h]; exact hp, by rw [h]⟩

theorem SourceMoved.streams {s t : State} (h : SourceMoved s t) : StreamsMoved s t :=
  ⟨by rw [h.host], h.replies, h.pos, by rw [h.host]⟩

theorem SinkMoved.streams {s t : State} (h : SinkMoved s t) : StreamsMoved s t :=
  ⟨by rw [h.host], h.replies, fun hp => by rw [h.host]; exact hp, h.snk⟩

/-! ### The primitives -/

theorem srcRead_frame (s : State) : (srcRead s).Ends fun t => SourceMoved s t ∧ t.core = s.core :=
  srcRead_ends fun _ hp => ⟨⟨rfl, List.tail_suffix _, hp⟩, rfl⟩

theorem srcRewind_frame (s : State) : (srcRewind s).Ends fun t => SourceMoved s t ∧ t.core = s.core :=
  srcRewind_ends fun _ hp => ⟨⟨rfl, List.tail_suffix _, hp⟩, rfl⟩

theorem snkWrite_frame (v : Byte) (s : State) : (snkWrite v s).Ends fun t => SinkMoved s t ∧ t.core = s.core :=
  snkWrite_ends fun k hk => ⟨⟨rfl, List.tail_suffix _, by
    rcases hk with rfl | rfl
    · exact List.prefix_rfl
    · exact List.prefix_append _ _⟩, rfl⟩

theorem snkWriteAll_frame (vs : List Byte) (s : State) :
    (snkWriteAll vs s).Ends fun t => SinkMoved s t ∧ t.core = s.core := by
  induction vs generalizing s with
  | nil => exact ⟨.of_host_eq rfl, rfl⟩
  | cons v vs ih =>
    refine Res.ends_andThen (snkWrite_frame v s) fun _ u _ hu => (ih u).imp fun t ht => ?_
    exact ⟨hu.1.trans ht.1, ht.2.trans hu.2⟩

/-! ### The frequency table -/

/-- Every end of counting: the source moved, of the CORE only `FT` may change, in canonical form, no count shrinks. -/
theorem fscanLoop_frame (n : Nat) (s : State) : (fscanLoop n s).Ends fun t =>
    SourceMoved s t ∧ t.core = { s.core with ft := t.core.ft } ∧ (countsWf s.core.ft → countsWf t.core.ft) := by
  induction n generalizing s with
  | zero => trivial
  | succ n ih =>
    unfold fscanLoop
    refine Res.ends_andThen ((srcRead_frame s).imp fun t ht => ⟨ht.1, by rw [ht.2], fun h => by rwa [ht.2]⟩) ?_
    intro r u _ hu
    match r with
    | none => exact hu
    | some b =>
      refine Res.ends_andThen (P := fun t => SourceMoved s t ∧ t.core = { s.core with ft := t.core.ft } ∧
        (countsWf s.core.ft → countsWf t.core.ft)) ?_ ?_
      · unfold countByte
        dsimp only
        split_ifs
        · exact hu
        · refine ⟨hu.1.trans (.withCore _ _), by rw [State.withCore_core]; rw [hu.2.1], fun h => ?_⟩
          exact setCount_wf (hu.2.2 h) b _
      · intro _ v _ hv
        refine (ih v).imp fun t ht => ⟨hv.1.trans ht.1, ?_, fun h => ht.2.2 (hv.2.2 h)⟩
        rw [ht.2.1, hv.2.1]

theorem fscanRule_frame (s : State) : (fscanRule s).Ends fun t =>
    SourceMoved s t ∧ t.core = { s.core with ft := t.core.ft } ∧ (countsWf s.core.ft → countsWf t.core.ft) :=
  fscanLoop_frame _ s

/-! ### The header -/

theorem headerGet_frame (n : Nat) (s : State) : (headerGet n s).Ends fun t => SourceMoved s t ∧ t.core = s.core := by
  refine Res.ends_andThen (srcRead_frame s) fun r u _ hu => ?_
  match r with
  | none => exact hu
  | some v => exact hu

theorem headerCount_frame (k n : Nat) (c : Count) (s : State) :
    (headerCount k n c s).Ends fun t => SourceMoved s t ∧ t.core = s.core := by
  induction k generalizing n c s with
  | zero => exact ⟨.of_host_eq rfl, rfl⟩
  | succ k ih =>
    refine Res.ends_andThen (headerGet_frame n s) fun v u _ hu => (ih _ _ u).imp fun t ht => ?_
    exact ⟨hu.1.trans ht.1, ht.2.trans hu.2⟩

theorem headerEntries_frame (k i : Nat) (prev : Option Byte) (s : State) : (headerEntries k i prev s).Ends fun t =>
    SourceMoved s t ∧ t.core = { s.core with ft := t.core.ft } ∧ (countsWf s.core.ft → countsWf t.core.ft) := by
  induction k generalizing i prev s with
  | zero => exact ⟨.of_host_eq rfl, rfl, id⟩
  | succ k ih =>
    unfold headerEntries
    refine Res.ends_andThen ((headerGet_frame _ s).imp fun t ht => ⟨ht.1, by rw [ht.2], fun h => by rwa [ht.2]⟩) ?_
    intro v u _ hu
    refine Res.ends_andThen ((headerCount_frame _ _ _ u).imp fun t ht =>
      ⟨hu.1.trans ht.1, by rw [ht.2]; exact hu.2.1, fun h => by rw [ht.2]; exact hu.2.2 h⟩) ?_
    intro c w _ hw
    split_ifs
    · exact hw
    · exact hw
    · refine (ih _ _ _).imp fun t ht => ⟨(hw.1.trans (.withCore _ _)).trans ht.1, ?_, fun h => ht.2.2 ?_⟩
      · rw [ht.2.1, State.withCore_core, hw.2.1]
      · exact setCount_wf (hw.2.2 h) v c

/-- Every end of `HREAD`: the source moved, of the CORE only `FT` may change, and it is in canonical form. -/
theorem hreadRule_frame (s : State) : (hreadRule s).Ends fun t =>
    SourceMoved s t ∧ t.core = { s.core with ft := t.core.ft } ∧ countsWf t.core.ft := by
  have wf0 : countsWf ([] : Memory Count) := by decide
  refine Res.ends_andThen ((headerGet_frame 0 _).imp fun t ht =>
    ⟨(SourceMoved.withCore _ _).trans ht.1, by rw [ht.2]; rfl, by rw [ht.2]; exact wf0⟩) ?_
  intro n u _ hu
  refine (headerEntries_frame _ _ _ u).imp fun t ht => ⟨hu.1.trans ht.1, ?_, ht.2.2 hu.2.2⟩
  rw [ht.2.1, hu.2.1]

theorem hwriteRule_frame (s : State) : (hwriteRule s).Ends fun t => SinkMoved s t ∧ t.core = s.core := by
  unfold hwriteRule
  split_ifs
  · exact ⟨.of_host_eq rfl, rfl⟩
  · exact snkWriteAll_frame _ s

/-! ### The writer -/

/-- Every end of `WBIT`: the sink moved, of the CORE only the writer changes. -/
theorem wbitRule_frame (d : Decision) (s : State) : (wbitRule d s).Ends fun t =>
    SinkMoved s t ∧ t.core = { s.core with wacc := t.core.wacc, wcnt := t.core.wcnt } := by
  unfold wbitRule
  dsimp only
  split_ifs
  · refine Res.ends_andThen ((snkWrite_frame _ _).imp fun t ht =>
      ⟨(SinkMoved.withCore _ _).trans ht.1, by rw [ht.2]; rfl⟩) ?_
    intro _ u _ hu
    exact ⟨hu.1.trans (.withCore _ _), by rw [State.withCore_core, hu.2]⟩
  · exact ⟨.of_host_eq rfl, rfl⟩

theorem writePath_frame (p : Path) (s : State) : (writePath p s).Ends fun t =>
    SinkMoved s t ∧ t.core = { s.core with wacc := t.core.wacc, wcnt := t.core.wcnt } := by
  induction p generalizing s with
  | nil => exact ⟨.of_host_eq rfl, rfl⟩
  | cons d p ih =>
    refine Res.ends_andThen (wbitRule_frame d s) fun _ u _ hu => (ih u).imp fun t ht => ?_
    exact ⟨hu.1.trans ht.1, by rw [ht.2, hu.2]⟩

theorem wsymRule_frame (sym : Byte) (s : State) : (wsymRule sym s).Ends fun t =>
    SinkMoved s t ∧ t.core = { s.core with wacc := t.core.wacc, wcnt := t.core.wcnt } := by
  unfold wsymRule
  split
  · exact ⟨.of_host_eq rfl, rfl⟩
  · exact writePath_frame _ s

theorem wflushRule_frame (s : State) : (wflushRule s).Ends fun t =>
    SinkMoved s t ∧ t.core = { s.core with wacc := t.core.wacc, wcnt := t.core.wcnt } := by
  unfold wflushRule
  split_ifs
  · exact ⟨.of_host_eq rfl, rfl⟩
  · refine Res.ends_andThen ((snkWrite_frame _ _).imp fun t ht => ⟨ht.1, by rw [ht.2]⟩) ?_
    intro _ u _ hu
    exact ⟨hu.1.trans (.withCore _ _), by rw [State.withCore_core, hu.2]⟩

/-! ### The reader -/

theorem readBit_frame (s : State) : (readBit s).Ends fun t =>
    SourceMoved s t ∧ t.core = { s.core with racc := t.core.racc, rcnt := t.core.rcnt } := by
  unfold readBit
  split_ifs
  · refine Res.ends_andThen ((srcRead_frame s).imp fun t ht => ⟨ht.1, by rw [ht.2]⟩) ?_
    intro r u _ hu
    match r with
    | none => exact hu
    | some v => exact ⟨hu.1.trans (.withCore _ _), by rw [State.withCore_core, hu.2]⟩
  · exact ⟨.of_host_eq rfl, rfl⟩

theorem walkBits_frame (n : Nat) (i : NodeIdx) (s : State) : (walkBits n i s).Ends fun t =>
    SourceMoved s t ∧ t.core = { s.core with racc := t.core.racc, rcnt := t.core.rcnt } := by
  induction n generalizing i s with
  | zero => trivial
  | succ n ih =>
    unfold walkBits
    split_ifs
    · trivial
    · split
      · refine Res.ends_andThen (readBit_frame s) fun _ u _ hu => (ih _ u).imp fun t ht => ?_
        exact ⟨hu.1.trans ht.1, by rw [ht.2, hu.2]⟩
      · exact ⟨.of_host_eq rfl, rfl⟩
      · exact ⟨.of_host_eq rfl, rfl⟩

/-- Every end of `RNEXT`: the source moved, of the CORE only the reader, `OUTB`, `EOM` and `OUTV` may change. -/
theorem rnextRule_frame (s : State) : (rnextRule s).Ends fun t =>
    SourceMoved s t ∧ t.core = { s.core with
      racc := t.core.racc, rcnt := t.core.rcnt, outb := t.core.outb, rrem := t.core.rrem
      status := { s.core.status with eom := t.core.status.eom, outv := t.core.status.outv } } := by
  unfold rnextRule
  split_ifs
  · exact ⟨.of_host_eq rfl, rfl⟩
  · refine Res.ends_andThen ((walkBits_frame _ _ s).imp fun t ht => ⟨ht.1, by rw [ht.2]⟩) ?_
    intro _ u _ hu
    refine ⟨hu.1.trans (.withCore _ _), ?_⟩
    rw [State.withCore_core, hu.2]; rfl

/-! ### The queue, the tree and the symbol table: no stream is moved -/

theorem qbuildRule_frame (s : State) : (qbuildRule s).Ends fun t =>
    t.host = s.host ∧ t.core = { s.core with
      tm := t.core.tm, queue := t.core.queue, status := { s.core.status with phase := t.core.status.phase } } := by
  unfold qbuildRule
  split_ifs
  · exact ⟨rfl, rfl⟩
  · exact ⟨rfl, rfl⟩

theorem qinsRule_frame (idx : NodeIdx) (s : State) : (qinsRule idx s).Ends fun t =>
    t.host = s.host ∧ t.core = { s.core with
      queue := t.core.queue, xn := t.core.xn, status := { s.core.status with xnv := t.core.status.xnv } } := by
  unfold qinsRule
  split
  · exact ⟨rfl, rfl⟩
  · split
    · trivial
    · split
      · trivial
      · exact ⟨rfl, rfl⟩

theorem qextRule_frame (s : State) : (qextRule s).Ends fun t =>
    t.host = s.host ∧ t.core = { s.core with
      queue := t.core.queue, xn := t.core.xn, status := { s.core.status with xnv := t.core.status.xnv } } := by
  unfold qextRule
  split
  · exact ⟨rfl, rfl⟩
  · exact ⟨rfl, rfl⟩

/-- What a join that ends with a value did: it took the first two entries, `NEXT` was a node, and the queue's nodes could
be compared. -/
theorem tjoinRule_eq_ok {s t : State} : tjoinRule s = .ok () t ↔ ∃ a b q,
    s.core.queue = a :: b :: q ∧ s.core.nextNode ≠ Config.noNode ∧
    orderFault (setNode s.core.tm s.core.nextNode (joinNode s.core.tm a b)) (s.core.nextNode :: q) = none ∧
    t = s.withCore { s.core with
      tm := setNode s.core.tm s.core.nextNode (joinNode s.core.tm a b)
      queue := placeInQueue (setNode s.core.tm s.core.nextNode (joinNode s.core.tm a b)) q s.core.nextNode
      nextNode := s.core.nextNode + 1#9
      xn := Config.noNode
      status := s.core.status.setXnv false } := by
  unfold tjoinRule
  split
  · next a b q hq =>
    rw [hq]
    dsimp only
    split_ifs with hn
    · simp [hn]
    · split
      · next f hf =>
        simp only [reduceCtorEq, false_iff]
        rintro ⟨a', b', q', hq', _, ho, _⟩
        simp only [List.cons.injEq] at hq'
        obtain ⟨rfl, rfl, rfl⟩ := hq'
        rw [hf] at ho; cases ho
      · next ho =>
        simp only [Res.ok.injEq, true_and]
        constructor
        · rintro rfl; exact ⟨a, b, q, rfl, hn, ho, rfl⟩
        · rintro ⟨a', b', q', hq', _, _, rfl⟩
          simp only [List.cons.injEq] at hq'
          obtain ⟨rfl, rfl, rfl⟩ := hq'
          rfl
  · next hq => simp [hq]
  · next hq => simp [hq]

theorem tjoinRule_frame (s : State) : (tjoinRule s).Ends fun t =>
    t.host = s.host ∧ t.core = { s.core with
      tm := t.core.tm, queue := t.core.queue, nextNode := t.core.nextNode, xn := t.core.xn
      status := { s.core.status with xnv := t.core.status.xnv } } := by
  unfold tjoinRule
  split
  · dsimp only
    split_ifs
    · trivial
    · split
      · trivial
      · exact ⟨rfl, rfl⟩
  · exact ⟨rfl, rfl⟩
  · exact ⟨rfl, rfl⟩

theorem reduceLoop_frame (n : Nat) (s : State) : (reduceLoop n s).Ends fun t =>
    t.host = s.host ∧ t.core = { s.core with
      tm := t.core.tm, queue := t.core.queue, nextNode := t.core.nextNode, xn := t.core.xn
      status := { s.core.status with xnv := t.core.status.xnv } } := by
  induction n generalizing s with
  | zero => trivial
  | succ n ih =>
    unfold reduceLoop
    split_ifs
    · exact ⟨rfl, rfl⟩
    · refine Res.ends_andThen (tjoinRule_frame s) fun _ u _ hu => (ih u).imp fun t ht => ?_
      exact ⟨ht.1.trans hu.1, by rw [ht.2, hu.2]⟩

theorem treduceRule_frame (s : State) : (treduceRule s).Ends fun t =>
    t.host = s.host ∧ t.core = { s.core with
      tm := t.core.tm, queue := t.core.queue, root := t.core.root, nextNode := t.core.nextNode, xn := t.core.xn
      status := { s.core.status with phase := t.core.status.phase, xnv := t.core.status.xnv } } := by
  unfold treduceRule
  split_ifs
  · exact ⟨rfl, rfl⟩
  · refine Res.ends_andThen ((reduceLoop_frame _ s).imp fun t ht => ⟨ht.1, by rw [ht.2]⟩) fun _ u _ hu => ?_
    refine ⟨hu.1, ?_⟩
    simp only [State.withCore_core]
    rw [hu.2]; rfl

theorem sderiveRule_frame (s : State) : (sderiveRule s).Ends fun t =>
    t.host = s.host ∧ t.core = { s.core with
      st := t.core.st, status := { s.core.status with stv := t.core.status.stv } } := by
  unfold sderiveRule
  split
  · exact ⟨rfl, rfl⟩
  · trivial

theorem rinitRule_frame (s : State) : (rinitRule s).Ends fun t =>
    t.host = s.host ∧ t.core = { s.core with
      racc := t.core.racc, rcnt := t.core.rcnt, outb := t.core.outb, rrem := t.core.rrem
      status := { s.core.status with
        rv := t.core.status.rv, eom := t.core.status.eom, outv := t.core.status.outv } } := ⟨rfl, rfl⟩

/-! ### Whole streams -/

/-- Every end of the second pass of `ENCODE`: the streams moved, of the CORE only the writer changes. -/
theorem encodeLoop_frame (n : Nat) (s : State) : (encodeLoop n s).Ends fun t =>
    StreamsMoved s t ∧ t.core = { s.core with wacc := t.core.wacc, wcnt := t.core.wcnt } := by
  induction n generalizing s with
  | zero => trivial
  | succ n ih =>
    unfold encodeLoop
    refine Res.ends_andThen ((srcRead_frame s).imp fun t ht => ⟨ht.1.streams, by rw [ht.2]⟩) fun r u _ hu => ?_
    match r with
    | none => exact hu
    | some b =>
      refine Res.ends_andThen ((wsymRule_frame b u).imp fun t ht =>
        ⟨hu.1.trans ht.1.streams, by rw [ht.2, hu.2]⟩) fun _ v _ hv => (ih v).imp fun t ht => ?_
      exact ⟨hv.1.trans ht.1, by rw [ht.2, hv.2]⟩

/-- Every end of the loop of `DECODE`: the streams moved, of the CORE only the reader, `OUTB`, `EOM` and `OUTV` change. -/
theorem decodeLoop_frame (n : Nat) (s : State) : (decodeLoop n s).Ends fun t =>
    StreamsMoved s t ∧ t.core = { s.core with
      racc := t.core.racc, rcnt := t.core.rcnt, outb := t.core.outb, rrem := t.core.rrem
      status := { s.core.status with eom := t.core.status.eom, outv := t.core.status.outv } } := by
  induction n generalizing s with
  | zero => trivial
  | succ n ih =>
    unfold decodeLoop
    refine Res.ends_andThen ((rnextRule_frame s).imp fun t ht => ⟨ht.1.streams, ht.2⟩) fun _ u _ hu => ?_
    split_ifs
    · exact hu
    · refine Res.ends_andThen ((snkWrite_frame _ u).imp fun t ht =>
        ⟨hu.1.trans ht.1.streams, by rw [ht.2]; exact hu.2⟩) fun _ v _ hv => (ih v).imp fun t ht => ?_
      exact ⟨hv.1.trans ht.1, by rw [ht.2, hv.2]⟩

/-- Every end of `ENCODE`: the streams moved; the reader, `OUTB`, `RREM`, `XN` and their flags are as `CLR` leaves them, and
so are the fault registers. -/
theorem encodeRule_frame (s : State) : (encodeRule s).Ends fun t =>
    StreamsMoved s t ∧ t.core = { CoreState.reset with
      ft := t.core.ft, tm := t.core.tm, st := t.core.st, queue := t.core.queue, root := t.core.root
      nextNode := t.core.nextNode, wacc := t.core.wacc, wcnt := t.core.wcnt, xn := t.core.xn
      status := { CoreState.reset.status with
        phase := t.core.status.phase, stv := t.core.status.stv, xnv := t.core.status.xnv } } := by
  unfold encodeRule
  refine Res.ends_andThen (r := clrRule s) ⟨.of_host_eq rfl, rfl⟩ fun _ u _ hu => ?_
  refine Res.ends_andThen ((srcRewind_frame u).imp fun t ht =>
    ⟨hu.1.trans ht.1.streams, by rw [ht.2]; exact hu.2⟩) fun _ u _ hu => ?_
  refine Res.ends_andThen ((fscanRule_frame u).imp fun t ht =>
    ⟨hu.1.trans ht.1.streams, by rw [ht.2.1, hu.2]⟩) fun _ u _ hu => ?_
  refine Res.ends_andThen ((qbuildRule_frame u).imp fun t ht =>
    ⟨hu.1.trans (.of_host_eq ht.1), by rw [ht.2, hu.2]⟩) fun _ u _ hu => ?_
  refine Res.ends_andThen ((treduceRule_frame u).imp fun t ht =>
    ⟨hu.1.trans (.of_host_eq ht.1), by rw [ht.2, hu.2]⟩) fun _ u _ hu => ?_
  refine Res.ends_andThen ((sderiveRule_frame u).imp fun t ht =>
    ⟨hu.1.trans (.of_host_eq ht.1), by rw [ht.2, hu.2]⟩) fun _ u _ hu => ?_
  refine Res.ends_andThen ((hwriteRule_frame u).imp fun t ht =>
    ⟨hu.1.trans ht.1.streams, by rw [ht.2]; exact hu.2⟩) fun _ u _ hu => ?_
  refine Res.ends_andThen ((srcRewind_frame u).imp fun t ht =>
    ⟨hu.1.trans ht.1.streams, by rw [ht.2]; exact hu.2⟩) fun _ u _ hu => ?_
  refine Res.ends_andThen ((encodeLoop_frame _ u).imp fun t ht =>
    ⟨hu.1.trans ht.1, by rw [ht.2, hu.2]⟩) fun _ u _ hu => ?_
  exact (wflushRule_frame u).imp fun t ht => ⟨hu.1.trans ht.1.streams, by rw [ht.2, hu.2]⟩

/-- The last two statements of `DECODE` (R164). Irreducible: to unfold it is to unfold the sum of 256 counts. -/
@[irreducible] def readAll (s : State) : Res Unit := (rinitRule s).andThen fun _ s => decodeLoop (s.core.rrem.toNat + 1) s

theorem decodeRule_eq (s : State) : decodeRule s =
    (clrRule s).andThen fun _ s => (hreadRule s).andThen fun _ s => (qbuildRule s).andThen fun _ s =>
      (treduceRule s).andThen fun _ s => readAll s := by unfold readAll; rfl

theorem readAll_frame (s : State) : (readAll s).Ends fun t =>
      StreamsMoved s t ∧ t.core = { s.core with
        racc := t.core.racc, rcnt := t.core.rcnt, outb := t.core.outb, rrem := t.core.rrem
        status := { s.core.status with
          rv := t.core.status.rv, eom := t.core.status.eom, outv := t.core.status.outv } } := by
  unfold readAll rinitRule
  rw [Res.andThen_ok]
  generalize hu : s.withCore _ = u
  have h1 : StreamsMoved s u := by rw [← hu]; exact .of_host_eq rfl
  have h2 : u.core = { s.core with
      racc := u.core.racc, rcnt := u.core.rcnt, outb := u.core.outb, rrem := u.core.rrem
      status := { s.core.status with
        rv := u.core.status.rv, eom := u.core.status.eom, outv := u.core.status.outv } } := by rw [← hu]; rfl
  exact (decodeLoop_frame _ u).imp fun t ht => ⟨h1.trans ht.1, by rw [ht.2, h2]⟩

/-- Every end of `DECODE`: the streams moved; the symbol table and the writer are as `CLR` leaves them, and so are the
fault registers. -/
theorem decodeRule_frame (s : State) : (decodeRule s).Ends fun t =>
    StreamsMoved s t ∧ t.core = { CoreState.reset with
      ft := t.core.ft, tm := t.core.tm, queue := t.core.queue, root := t.core.root, nextNode := t.core.nextNode
      racc := t.core.racc, rcnt := t.core.rcnt, outb := t.core.outb, rrem := t.core.rrem, xn := t.core.xn
      status := { CoreState.reset.status with
        phase := t.core.status.phase, rv := t.core.status.rv, eom := t.core.status.eom, outv := t.core.status.outv
        xnv := t.core.status.xnv } } := by
  rw [decodeRule_eq]
  refine Res.ends_andThen (r := clrRule s) ⟨.of_host_eq rfl, rfl⟩ fun _ u _ hu => ?_
  refine Res.ends_andThen ((hreadRule_frame u).imp fun t ht =>
    ⟨hu.1.trans ht.1.streams, by rw [ht.2.1, hu.2]⟩) fun _ u _ hu => ?_
  refine Res.ends_andThen ((qbuildRule_frame u).imp fun t ht =>
    ⟨hu.1.trans (.of_host_eq ht.1), by rw [ht.2, hu.2]⟩) fun _ u _ hu => ?_
  refine Res.ends_andThen ((treduceRule_frame u).imp fun t ht =>
    ⟨hu.1.trans (.of_host_eq ht.1), by rw [ht.2, hu.2]⟩) fun _ u _ hu => ?_
  exact (readAll_frame u).imp fun t ht => ⟨hu.1.trans ht.1, by rw [ht.2, hu.2]⟩

/-- However a rule ends, the source's bytes, the script and the answers are as before, the position stays inside the source
and the sink only grew (R44, R61). -/
theorem ruleOf_streams (i : Instr) (s : State) : (ruleOf i s).Ends (StreamsMoved s) := by
  cases i with
  | fscan => exact (fscanRule_frame s).imp fun t h => h.1.streams
  | qbuild => exact (qbuildRule_frame s).imp fun t h => .of_host_eq h.1
  | qins idx => exact (qinsRule_frame idx s).imp fun t h => .of_host_eq h.1
  | qext => exact (qextRule_frame s).imp fun t h => .of_host_eq h.1
  | tjoin => exact (tjoinRule_frame s).imp fun t h => .of_host_eq h.1
  | treduce => exact (treduceRule_frame s).imp fun t h => .of_host_eq h.1
  | sderive => exact (sderiveRule_frame s).imp fun t h => .of_host_eq h.1
  | wbit d => exact (wbitRule_frame d s).imp fun t h => h.1.streams
  | wsym sym => exact (wsymRule_frame sym s).imp fun t h => h.1.streams
  | wflush => exact (wflushRule_frame s).imp fun t h => h.1.streams
  | rinit => exact .of_host_eq rfl
  | rnext => exact (rnextRule_frame s).imp fun t h => h.1.streams
  | hwrite => exact (hwriteRule_frame s).imp fun t h => h.1.streams
  | hread => exact (hreadRule_frame s).imp fun t h => h.1.streams
  | encode => exact (encodeRule_frame s).imp fun t h => h.1
  | decode => exact (decodeRule_frame s).imp fun t h => h.1
  | clr => exact .of_host_eq rfl
  | srew => exact (srcRewind_frame s).imp fun t h => h.1.streams

/-- However a rule but those of `ENCODE`, `DECODE` and `CLR` ends, the fault registers are as before. -/
theorem ruleOf_faultRegisters {i : Instr} (s : State) (h1 : i ≠ .encode) (h2 : i ≠ .decode) (h3 : i ≠ .clr) :
    (ruleOf i s).Ends fun t =>
      t.core.err = s.core.err ∧ t.core.errinfo = s.core.errinfo ∧ t.core.status.fault = s.core.status.fault := by
  cases i with
  | fscan => exact (fscanRule_frame s).imp fun t h => by rw [h.2.1]; exact ⟨rfl, rfl, rfl⟩
  | qbuild => exact (qbuildRule_frame s).imp fun t h => by rw [h.2]; exact ⟨rfl, rfl, rfl⟩
  | qins idx => exact (qinsRule_frame idx s).imp fun t h => by rw [h.2]; exact ⟨rfl, rfl, rfl⟩
  | qext => exact (qextRule_frame s).imp fun t h => by rw [h.2]; exact ⟨rfl, rfl, rfl⟩
  | tjoin => exact (tjoinRule_frame s).imp fun t h => by rw [h.2]; exact ⟨rfl, rfl, rfl⟩
  | treduce => exact (treduceRule_frame s).imp fun t h => by rw [h.2]; exact ⟨rfl, rfl, rfl⟩
  | sderive => exact (sderiveRule_frame s).imp fun t h => by rw [h.2]; exact ⟨rfl, rfl, rfl⟩
  | wbit d => exact (wbitRule_frame d s).imp fun t h => by rw [h.2]; exact ⟨rfl, rfl, rfl⟩
  | wsym sym => exact (wsymRule_frame sym s).imp fun t h => by rw [h.2]; exact ⟨rfl, rfl, rfl⟩
  | wflush => exact (wflushRule_frame s).imp fun t h => by rw [h.2]; exact ⟨rfl, rfl, rfl⟩
  | rinit => exact ⟨rfl, rfl, rfl⟩
  | rnext => exact (rnextRule_frame s).imp fun t h => by rw [h.2]; exact ⟨rfl, rfl, rfl⟩
  | hwrite => exact (hwriteRule_frame s).imp fun t h => by rw [h.2]; exact ⟨rfl, rfl, rfl⟩
  | hread => exact (hreadRule_frame s).imp fun t h => by rw [h.2.1]; exact ⟨rfl, rfl, rfl⟩
  | encode => exact absurd rfl h1
  | decode => exact absurd rfl h2
  | clr => exact absurd rfl h3
  | srew => exact (srcRewind_frame s).imp fun t h => by rw [h.2]; exact ⟨rfl, rfl, rfl⟩

/-- However a rule ends from a state without a fault, `FAULT` is 0: only `raise` sets it (R196). -/
theorem ruleOf_noFault (i : Instr) {s : State} (h : s.core.status.fault = false) :
    (ruleOf i s).Ends fun t => t.core.status.fault = false := by
  by_cases h1 : i = .encode
  · subst h1; exact (encodeRule_frame s).imp fun t h => by rw [h.2]; rfl
  by_cases h2 : i = .decode
  · subst h2; exact (decodeRule_frame s).imp fun t h => by rw [h.2]; rfl
  by_cases h3 : i = .clr
  · subst h3; rfl
  exact (ruleOf_faultRegisters s h1 h2 h3).imp fun t ht => ht.2.2.trans h

end Sys2Proof.Machine
end

