-- ==== Sys2Proof/Laws/Queue.lean ====
section
/-! SUPPORT. The order of the queue (R101) and the operation that puts a node at its place in it (R104, R121). -/

namespace Sys2Proof.Machine

/-- The comparator on numbers (R101). -/
theorem nodeLt_iff (tm : Memory Node) (i j : NodeIdx) : nodeLt tm i j = true ↔
    (weight tm i).toNat < (weight tm j).toNat ∨
      weight tm i = weight tm j ∧ (leftmost tm i).toNat < (leftmost tm j).toNat := by
  simp [nodeLt, BitVec.ult]

theorem nodeLt_irrefl (tm : Memory Node) (i : NodeIdx) : nodeLt tm i i = false := by
  rw [← Bool.not_eq_true, nodeLt_iff]; omega

theorem nodeLt_trans {tm : Memory Node} {i j k : NodeIdx} (h : nodeLt tm i j = true) (h' : nodeLt tm j k = true) :
    nodeLt tm i k = true := by
  rw [nodeLt_iff] at *
  rcases h with h | ⟨h, h1⟩ <;> rcases h' with h' | ⟨h', h1'⟩
  · omega
  · rw [← h']; omega
  · rw [h]; omega
  · right; rw [h, h']; exact ⟨rfl, by omega⟩

theorem nodeLt_asymm {tm : Memory Node} {i j : NodeIdx} (h : nodeLt tm i j = true) : nodeLt tm j i = false := by
  by_contra hc
  have := nodeLt_trans h (by simpa using hc)
  rw [nodeLt_irrefl] at this; cases this

/-- Nodes with different leftmost leaves are ordered one way or the other (R101). -/
theorem nodeLt_total {tm : Memory Node} {i j : NodeIdx} (h : leftmost tm i ≠ leftmost tm j) :
    nodeLt tm i j = true ∨ nodeLt tm j i = true := by
  simp only [nodeLt_iff]
  have hl : (leftmost tm i).toNat ≠ (leftmost tm j).toNat := fun hc => h (BitVec.eq_of_toNat_eq hc)
  by_cases hw : weight tm i = weight tm j
  · rcases Nat.lt_or_gt_of_ne hl with hl | hl
    · exact .inl (.inr ⟨hw, hl⟩)
    · exact .inr (.inr ⟨hw.symm, hl⟩)
  · have hw' : (weight tm i).toNat ≠ (weight tm j).toNat := fun hc => hw (BitVec.eq_of_toNat_eq hc)
    omega

/-- A queue in the comparator's order. -/
abbrev Sorted (tm : Memory Node) (q : List NodeIdx) : Prop := q.Pairwise fun i j => nodeLt tm i j = true

/-- Two sorted queues of the same nodes are the same queue (R102). -/
theorem sorted_unique {tm : Memory Node} {q q' : List NodeIdx} (h : Sorted tm q) (h' : Sorted tm q')
    (hp : q.Perm q') : q = q' :=
  hp.eq_of_pairwise (fun a b _ _ hab hba => by rw [nodeLt_asymm hab] at hba; cases hba) h h'

theorem placeInQueue_perm (tm : Memory Node) (q : List NodeIdx) (i : NodeIdx) :
    (placeInQueue tm q i).Perm (i :: q) := by
  unfold placeInQueue
  exact List.perm_middle.trans (by rw [List.take_append_drop])

@[simp] theorem placeInQueue_length (tm : Memory Node) (q : List NodeIdx) (i : NodeIdx) :
    (placeInQueue tm q i).length = q.length + 1 := (placeInQueue_perm tm q i).length_eq

@[simp] theorem mem_placeInQueue {tm : Memory Node} {q : List NodeIdx} {i k : NodeIdx} :
    k ∈ placeInQueue tm q i ↔ k = i ∨ k ∈ q := by
  rw [(placeInQueue_perm tm q i).mem_iff, List.mem_cons]

/-- In a sorted queue the entries below a node come first. -/
theorem sorted_below {tm : Memory Node} {q : List NodeIdx} (h : Sorted tm q) (i : NodeIdx) :
    q.take (q.countP fun k => nodeLt tm k i) = q.filter (fun k => nodeLt tm k i) ∧
    q.drop (q.countP fun k => nodeLt tm k i) = q.filter fun k => !nodeLt tm k i := by
  induction q with
  | nil => simp
  | cons a q ih =>
    obtain ⟨ha, hq⟩ := List.pairwise_cons.1 h
    cases hai : nodeLt tm a i
    · have hall : ∀ k ∈ q, nodeLt tm k i = false := fun k hk => by
        by_contra hc
        rw [nodeLt_trans (ha k hk) (by simpa using hc)] at hai; cases hai
      have h0 : q.countP (fun k => nodeLt tm k i) = 0 := List.countP_eq_zero.2 fun k hk => by simp [hall k hk]
      simp only [List.countP_cons, hai, h0, List.filter_cons]
      simp only [Bool.false_eq_true, if_false, Bool.not_false, if_true, Nat.add_zero, List.take_zero, List.drop_zero]
      refine ⟨(List.filter_eq_nil_iff.2 fun k hk => by simp [hall k hk]).symm, ?_⟩
      rw [List.filter_eq_self.2 fun k hk => by simp [hall k hk]]
    · simp [hai, ih hq]

/-- The place of a node in a sorted queue: after the entries below it, before the others. -/
theorem placeInQueue_eq {tm : Memory Node} {q : List NodeIdx} (h : Sorted tm q) (i : NodeIdx) :
    placeInQueue tm q i =
      q.filter (fun k => nodeLt tm k i) ++ i :: q.filter fun k => !nodeLt tm k i := by
  unfold placeInQueue
  simp only [(sorted_below h i).1, (sorted_below h i).2]

/-- A node put at its place keeps the queue sorted, where the comparator orders it against every entry. -/
theorem placeInQueue_sorted {tm : Memory Node} {q : List NodeIdx} (h : Sorted tm q) {i : NodeIdx}
    (hi : ∀ k ∈ q, leftmost tm k ≠ leftmost tm i) : Sorted tm (placeInQueue tm q i) := by
  rw [placeInQueue_eq h, Sorted, List.pairwise_append]
  have hup : ∀ k ∈ q.filter (fun k => !nodeLt tm k i), nodeLt tm i k = true := fun k hk => by
    obtain ⟨hk, hn⟩ := List.mem_filter.1 hk
    rcases nodeLt_total (hi k hk) with hlt | hlt
    · simp [hlt] at hn
    · exact hlt
  refine ⟨h.sublist List.filter_sublist, List.pairwise_cons.2 ⟨hup, h.sublist List.filter_sublist⟩, ?_⟩
  intro a ha b hb
  have ha' : nodeLt tm a i = true := (List.mem_filter.1 ha).2
  rcases List.mem_cons.1 hb with rfl | hb
  · exact ha'
  · exact nodeLt_trans ha' (hup b hb)

/-- Sorting keeps the nodes. -/
theorem sortNodes_perm (tm : Memory Node) (is : List NodeIdx) : (sortNodes tm is).Perm is := by
  have key : ∀ (is acc : List NodeIdx), (is.foldl (placeInQueue tm) acc).Perm (acc ++ is) := by
    intro is
    induction is with
    | nil => intro acc; simp
    | cons i is ih =>
      intro acc
      refine (ih _).trans (((placeInQueue_perm tm acc i).append_right is).trans ?_)
      exact List.perm_middle.symm
  simpa [sortNodes] using key is []

/-- Sorting sorts, where the comparator orders all the nodes. -/
theorem sortNodes_sorted (tm : Memory Node) (is : List NodeIdx) (h : (is.map (leftmost tm)).Nodup) :
    Sorted tm (sortNodes tm is) := by
  have key : ∀ (is acc : List NodeIdx), Sorted tm acc → ((acc ++ is).map (leftmost tm)).Nodup →
      Sorted tm (is.foldl (placeInQueue tm) acc) := by
    intro is
    induction is with
    | nil => intro acc ha _; exact ha
    | cons i is ih =>
      intro acc ha hn
      rw [List.map_append, List.map_cons] at hn
      refine ih _ (placeInQueue_sorted ha fun k hk => ?_) ?_
      · exact (List.nodup_append.1 hn).2.2 _ (List.mem_map_of_mem hk) _ List.mem_cons_self
      · rw [List.map_append]
        refine ((((placeInQueue_perm tm acc i).map _).append_right _).nodup_iff).2 ?_
        rw [List.map_cons, List.cons_append]
        exact List.perm_middle.nodup_iff.1 hn
  exact key is [] List.Pairwise.nil (by simpa using h)

end Sys2Proof.Machine
end

