-- ==== Sys2Proof/Laws/Forest.lean ====
section
/-! SUPPORT. The trees of TM (R24 items 1 to 4): the forest of a frequency table said through reads of records, what the
first leaves and a join make of it, paths to leaves, and the count of nodes that bounds `NEXT` and the queue. -/

namespace Sys2Proof.Machine

/-! ### Records and reads -/

theorem nodeAt_eq_some_iff {tm : Memory Node} (h : Memory.wf Config.nodeMax tm) (i : NodeIdx) (n : Node) :
    nodeAt tm i = some n ↔ (i.toNat, n) ∈ tm := Memory.read?_eq_some_iff h _ _

theorem nodeAt_of_mem {tm : Memory Node} (h : Memory.wf Config.nodeMax tm) {e : Nat × Node} (he : e ∈ tm) :
    nodeAt tm (BitVec.ofNat 9 e.1) = some e.2 ∧ (BitVec.ofNat 9 e.1).toNat = e.1 := by
  have hlt : e.1 < 511 := h.2 e he
  have ht : (BitVec.ofNat 9 e.1).toNat = e.1 := by rw [BitVec.toNat_ofNat]; omega
  refine ⟨(nodeAt_eq_some_iff h _ _).2 ?_, ht⟩
  rw [ht]; exact he

theorem nodeAt_noNode {tm : Memory Node} (h : Memory.wf Config.nodeMax tm) : nodeAt tm Config.noNode = none := by
  cases hn : nodeAt tm Config.noNode with
  | none => rfl
  | some n => exact absurd (show (511 : Nat) < 511 from h.2 _ ((nodeAt_eq_some_iff h _ _).1 hn)) (lt_irrefl _)

theorem validNode_iff {tm : Memory Node} (h : Memory.wf Config.nodeMax tm) (i : NodeIdx) :
    validNode tm i = true ↔ ∃ n, nodeAt tm i = some n := by
  simp only [validNode, Bool.and_eq_true, bne_iff_ne, Option.isSome_iff_exists]
  refine ⟨fun h => h.2, fun hn => ⟨?_, hn⟩⟩
  rintro rfl
  obtain ⟨n, hn⟩ := hn
  rw [nodeAt_noNode h] at hn; cases hn

theorem mem_childList {tm : Memory Node} (h : Memory.wf Config.nodeMax tm) (i : NodeIdx) :
    i ∈ childList tm ↔ ∃ m w l r, nodeAt tm m = some (.internal w l r) ∧ (i = l ∨ i = r) := by
  simp only [childList, List.mem_flatMap]
  constructor
  · rintro ⟨⟨k, n⟩, he, hi⟩
    cases n with
    | leaf sym w => simp at hi
    | internal w l r => exact ⟨_, w, l, r, (nodeAt_of_mem h he).1, by simpa using hi⟩
  · rintro ⟨m, w, l, r, hm, hi⟩
    exact ⟨_, (nodeAt_eq_some_iff h _ _).1 hm, by simpa using hi⟩

theorem hasParent_iff {tm : Memory Node} (i : NodeIdx) : hasParent tm i = true ↔ i ∈ childList tm := by
  simp only [hasParent, List.any_eq_true, childList, List.mem_flatMap]
  refine exists_congr fun e => and_congr_right fun _ => ?_
  obtain ⟨k, n⟩ := e
  cases n with
  | leaf sym w => exact ⟨fun h => (by cases h), fun h => absurd h List.not_mem_nil⟩
  | internal w l r =>
    simp only [Node.hasChild, Bool.or_eq_true, beq_iff_eq, List.mem_cons, List.not_mem_nil, or_false]
    exact or_congr eq_comm eq_comm

theorem freeRoot_iff {tm : Memory Node} (i : NodeIdx) :
    freeRoot tm i = true ↔ validNode tm i = true ∧ i ∉ childList tm := by
  rw [freeRoot, Bool.and_eq_true, ← hasParent_iff]; simp

/-! ### The forest of a frequency table -/

/-- R24 items 1 to 4, the parts about `TM`, said through reads. -/
structure Forest (ft : Memory Count) (tm : Memory Node) (next : NodeIdx) : Prop where
  wf : Memory.wf Config.nodeMax tm
  next_ge : 256 ≤ next.toNat
  leaf : ∀ {i sym w}, nodeAt tm i = some (.leaf sym w) →
    i = leafIdx sym ∧ w = (countAt ft sym).setWidth 72 ∧ present ft sym = true
  node : ∀ {i w l r}, nodeAt tm i = some (.internal w l r) → 256 ≤ i.toNat ∧ i.toNat < next.toNat ∧
    validNode tm l = true ∧ validNode tm r = true ∧ l.toNat < i.toNat ∧ r.toNat < i.toNat ∧
    w = weight tm l + weight tm r
  filled : ∀ i : NodeIdx, 256 ≤ i.toNat → i.toNat < next.toNat → validNode tm i = true
  children : (childList tm).Nodup
  roots : ∀ {i j}, freeRoot tm i = true → freeRoot tm j = true → leftmost tm i = leftmost tm j → i = j

theorem leafIdx_toNat (b : Byte) : (leafIdx b).toNat = b.toNat := by
  have := b.isLt
  rw [leafIdx, BitVec.toNat_setWidth, Nat.mod_eq_of_lt (by omega)]

theorem leafIdx_inj {b b' : Byte} (h : leafIdx b = leafIdx b') : b = b' := by
  have := congrArg BitVec.toNat h
  rw [leafIdx_toNat, leafIdx_toNat] at this
  exact BitVec.eq_of_toNat_eq this

/-- The forest of an invariant's state. -/
theorem forest_of_forestOk {s : State} (h : Memory.wf Config.nodeMax s.core.tm) (hf : ForestOk s) :
    Forest s.core.ft s.core.tm s.core.nextNode := by
  obtain ⟨hr, hn, hfill, hc, _, _, hroots, _, _⟩ := hf
  have hrec : ∀ {i : NodeIdx} {n : Node}, nodeAt s.core.tm i = some n → recordOk s.core (i.toNat, n) = true :=
    fun hi => hr _ ((nodeAt_eq_some_iff h _ _).1 hi)
  refine ⟨h, hn.1, fun hi => ?_, fun hi => ?_, fun i h1 h2 => ?_, hc, fun {i j} hi hj hl => ?_⟩
  · have := hrec hi
    simp only [recordOk, Bool.and_eq_true, beq_iff_eq] at this
    refine ⟨BitVec.eq_of_toNat_eq ?_, this.1.2, this.2⟩
    rw [leafIdx_toNat]; exact this.1.1.symm
  · have := hrec hi
    simp only [recordOk, Bool.and_eq_true, decide_eq_true_eq, beq_iff_eq] at this
    tauto
  · have := hfill i.toNat (List.mem_range.2 h2) h1
    obtain ⟨n, hn⟩ := Option.isSome_iff_exists.1 this
    exact (validNode_iff h i).2 ⟨n, hn⟩
  · have mem : ∀ {k}, freeRoot s.core.tm k = true → k ∈ freeRoots s.core.tm := fun {k} hk => by
      have hk' := hk
      simp only [freeRoot, Bool.and_eq_true] at hk'
      obtain ⟨n, hn⟩ := (validNode_iff h k).1 hk'.1
      refine List.mem_filter.2 ⟨List.mem_map.2 ⟨_, (nodeAt_eq_some_iff h _ _).1 hn, ?_⟩, by simpa using hk'.2⟩
      simp
    exact List.inj_on_of_nodup_map hroots (mem hi) (mem hj) hl

/-- The parts of the invariant about `TM`, from a forest. -/
theorem Forest.parts {s : State} (h : Forest s.core.ft s.core.tm s.core.nextNode) :
    (∀ e ∈ s.core.tm, recordOk s.core e = true) ∧
    (∀ i ∈ List.range s.core.nextNode.toNat, 256 ≤ i → (Memory.read? s.core.tm i).isSome = true) ∧
    ((freeRoots s.core.tm).map (leftmost s.core.tm)).Nodup := by
  refine ⟨fun e he => ?_, fun i hi h1 => ?_, ?_⟩
  · obtain ⟨hn, ht⟩ := nodeAt_of_mem h.wf he
    obtain ⟨k, n⟩ := e
    cases n with
    | leaf sym w =>
      obtain ⟨h1, h2, h3⟩ := h.leaf hn
      have : sym.toNat = k := by rw [← leafIdx_toNat, ← h1]; exact ht
      simp [recordOk, this, h2, h3]
    | internal w l r =>
      obtain ⟨h1, h2, h3, h4, h5, h6, h7⟩ := h.node hn
      simp only at ht
      rw [ht] at h1 h2 h5 h6
      simp [recordOk, h1, h2, h3, h4, h5, h6, h7]
  · have hlt := s.core.nextNode.isLt
    have hi' := List.mem_range.1 hi
    have ht : (BitVec.ofNat 9 i).toNat = i := by rw [BitVec.toNat_ofNat]; omega
    obtain ⟨n, hn⟩ := (validNode_iff h.wf _).1 (h.filled (BitVec.ofNat 9 i) (by omega) (by omega))
    rw [nodeAt, ht] at hn
    rw [hn]; rfl
  · refine List.Nodup.map_on (fun i hi j hj hl => ?_) ?_
    · have free : ∀ {k}, k ∈ freeRoots s.core.tm → freeRoot s.core.tm k = true := fun {k} hk => by
        obtain ⟨hk, hp⟩ := List.mem_filter.1 hk
        obtain ⟨e, he, rfl⟩ := List.mem_map.1 hk
        rw [freeRoot, Bool.and_eq_true]
        exact ⟨(validNode_iff h.wf _).2 ⟨_, (nodeAt_of_mem h.wf he).1⟩, hp⟩
      exact h.roots (free hi) (free hj) hl
    · refine List.Nodup.filter _ (List.Nodup.map_on (fun e he e' he' hee => ?_) ?_)
      · have h1 := nodeAt_of_mem h.wf he
        have h2 := nodeAt_of_mem h.wf he'
        rw [← hee] at h2
        exact Prod.ext (h1.2.symm.trans h2.2) (Option.some.inj (h1.1.symm.trans h2.1))
      · exact h.wf.1.imp fun {a b} hab hne => by subst hne; exact absurd hab (lt_irrefl _)

/-! ### Children and parents -/

theorem Forest.mem_children {ft tm next} (_ : Forest ft tm next) {m w l r}
    (h' : Memory.wf Config.nodeMax tm) (hm : nodeAt tm m = some (.internal w l r)) :
    l ∈ childList tm ∧ r ∈ childList tm :=
  ⟨(mem_childList h' _).2 ⟨m, w, l, r, hm, .inl rfl⟩, (mem_childList h' _).2 ⟨m, w, l, r, hm, .inr rfl⟩⟩

/-- Where a list of lists joins to one without repeats, a member comes from one list only. -/
theorem eq_of_mem_flatMap {α β : Type} {f : α → List β} {l : List α} (h : (l.flatMap f).Nodup) {x y : α}
    (hx : x ∈ l) (hy : y ∈ l) {b : β} (hbx : b ∈ f x) (hby : b ∈ f y) : x = y := by
  induction l with
  | nil => cases hx
  | cons a l ih =>
    rw [List.flatMap_cons, List.nodup_append] at h
    rcases List.mem_cons.1 hx with hx | hx <;> rcases List.mem_cons.1 hy with hy | hy
    · rw [hx, hy]
    · exact absurd rfl (h.2.2 b (hx ▸ hbx) b (List.mem_flatMap.2 ⟨y, hy, hby⟩))
    · exact absurd rfl (h.2.2 b (hy ▸ hby) b (List.mem_flatMap.2 ⟨x, hx, hbx⟩))
    · exact ih h.2.1 hx hy

/-- A child has one parent, and one position (R24 item 3). -/
theorem Forest.parent_unique {ft tm next} (h : Forest ft tm next) {m w l r m' w' l' r'}
    (hm : nodeAt tm m = some (.internal w l r)) (hm' : nodeAt tm m' = some (.internal w' l' r')) :
    l ≠ r ∧ (l = l' → m = m') ∧ (r = r' → m = m') ∧ l ≠ r' := by
  have e := (nodeAt_eq_some_iff h.wf _ _).1 hm
  have e' := (nodeAt_eq_some_iff h.wf _ _).1 hm'
  have hn := h.children
  rw [childList, List.nodup_flatMap] at hn
  have hself : ∀ {m w l r}, (m, Node.internal w l r) ∈ tm → l ≠ r := fun he => by
    have := hn.1 _ he
    simpa using this
  by_cases hmm : m = m'
  · subst hmm
    rw [hm] at hm'
    injection hm' with hm'
    injection hm' with _ h2 h3
    subst h2 h3
    exact ⟨hself e, fun _ => rfl, fun _ => rfl, hself e⟩
  · have hd : ∀ {j}, j ∈ [l, r] → j ∈ [l', r'] → False := fun {j} hj hj' =>
      hmm (BitVec.eq_of_toNat_eq (congrArg Prod.fst
        (eq_of_mem_flatMap h.children e e' (by simpa using hj) (by simpa using hj'))))
    refine ⟨hself e, fun hc => ?_, fun hc => ?_, fun hc => ?_⟩
    · subst hc; exact (hd (j := l) (by simp) (by simp)).elim
    · subst hc; exact (hd (j := r) (by simp) (by simp)).elim
    · subst hc; exact hd (j := l) (by simp) (by simp)

theorem Forest.eq_parent {ft tm next} (h : Forest ft tm next) {m w l r m' w' l' r' j}
    (hm : nodeAt tm m = some (.internal w l r)) (hm' : nodeAt tm m' = some (.internal w' l' r'))
    (hj : j = l ∨ j = r) (hj' : j = l' ∨ j = r') : m = m' ∧ (j = l ↔ j = l') := by
  obtain ⟨h1, h2, h3, h4⟩ := h.parent_unique hm hm'
  obtain ⟨h1', _, _, h4'⟩ := h.parent_unique hm' hm
  rcases hj with rfl | rfl <;> rcases hj' with rfl | rfl
  · exact ⟨h2 rfl, by simp⟩
  · exact absurd rfl h4
  · exact absurd rfl h4'
  · refine ⟨h3 rfl, ?_⟩
    have a : j ≠ l := fun hc => h1 hc.symm
    have b : j ≠ l' := fun hc => h1' hc.symm
    simp [a, b]

/-! ### Induction over a tree -/

/-- What holds of every leaf, and of an internal node where it holds of its children, holds of every valid node. -/
theorem Forest.induction {ft tm next} (h : Forest ft tm next) {P : NodeIdx → Prop}
    (leaf : ∀ i sym w, nodeAt tm i = some (.leaf sym w) → P i)
    (node : ∀ i w l r, nodeAt tm i = some (.internal w l r) → P l → P r → P i) :
    ∀ i, validNode tm i = true → P i := by
  have key : ∀ k, ∀ i : NodeIdx, i.toNat < k → validNode tm i = true → P i := by
    intro k
    induction k with
    | zero => intro i hi; omega
    | succ k ih =>
      intro i hi hv
      obtain ⟨n, hn⟩ := (validNode_iff h.wf i).1 hv
      cases n with
      | leaf sym w => exact leaf i sym w hn
      | internal w l r =>
        obtain ⟨-, -, h3, h4, h5, h6, -⟩ := h.node hn
        exact node i w l r hn (ih l (by omega) h3) (ih r (by omega) h4)
  exact fun i => key _ i (Nat.lt_succ_self _)

/-- The longest path a walk from `i` can take: internal nodes start at 256 and children have smaller indices. -/
def depthBound (i : NodeIdx) : Nat := i.toNat - 255

theorem Forest.lt_depthBound {ft tm next} (h : Forest ft tm next) {i w l r}
    (hi : nodeAt tm i = some (.internal w l r)) :
    ∃ k, depthBound i = k + 1 ∧ depthBound l ≤ k ∧ depthBound r ≤ k := by
  obtain ⟨h1, -, -, -, h5, h6, -⟩ := h.node hi
  exact ⟨i.toNat - 256, by unfold depthBound; omega, by unfold depthBound; omega,
    by unfold depthBound; omega⟩

/-- The leftmost leaf does not depend on the bound of the walk, and the walk meets no stop. -/
theorem Forest.leftmostFrom_eq {ft tm next} (h : Forest ft tm next) : ∀ i, validNode tm i = true →
    ∀ n m, depthBound i ≤ n → depthBound i ≤ m →
      leftmostFrom tm (n + 1) i = leftmostFrom tm (m + 1) i ∧ leftWalkFault tm (n + 1) i = none := by
  refine h.induction (fun i sym w hi n m _ _ => ?_) (fun i w l r hi ihl ihr n m hn hm => ?_)
  · have hne : i ≠ Config.noNode := fun hc => by rw [hc, nodeAt_noNode h.wf] at hi; cases hi
    simp [leftmostFrom, leftWalkFault, hi, hne]
  · have hne : i ≠ Config.noNode := fun hc => by rw [hc, nodeAt_noNode h.wf] at hi; cases hi
    obtain ⟨k, h1, h2, h3⟩ := h.lt_depthBound hi
    obtain ⟨n, rfl⟩ : ∃ n', n = n' + 1 := ⟨n - 1, by omega⟩
    obtain ⟨m, rfl⟩ : ∃ m', m = m' + 1 := ⟨m - 1, by omega⟩
    have := ihl n m (by omega) (by omega)
    rw [leftmostFrom, leftmostFrom, leftWalkFault, if_neg hne, hi]
    exact this

theorem depthBound_le (i : NodeIdx) : depthBound i ≤ 256 := by
  have := i.isLt; unfold depthBound; omega

/-- The leftmost leaf of a leaf is itself, of an internal node that of its left child (R100). -/
theorem Forest.leftmost_leaf {ft tm next} (_ : Forest ft tm next) {i sym w}
    (hi : nodeAt tm i = some (.leaf sym w)) : leftmost tm i = sym := by
  simp [leftmost, leftmostFrom, hi]

theorem Forest.leftmost_node {ft tm next} (h : Forest ft tm next) {i w l r}
    (hi : nodeAt tm i = some (.internal w l r)) : leftmost tm i = leftmost tm l := by
  have hv := (h.node hi).2.2.1
  have := depthBound_le l
  rw [leftmost, show Config.nodeMax = 510 + 1 from rfl, leftmostFrom, hi]
  exact (h.leftmostFrom_eq l hv 509 510 (by omega) (by omega)).1

/-- The comparator is defined on every valid node: no stop (log entries 14, 15). -/
theorem Forest.orderFault_none {ft tm next} (h : Forest ft tm next) {is : List NodeIdx}
    (his : ∀ i ∈ is, validNode tm i = true) : orderFault tm is = none := by
  rw [orderFault, List.findSome?_eq_none_iff]
  intro i hi
  have := depthBound_le i
  exact (h.leftmostFrom_eq i (his i hi) 510 510 (by omega) (by omega)).2

/-- Different free roots are ordered one way or the other (R101). -/
theorem Forest.roots_ordered {ft tm next} (h : Forest ft tm next) {i j} (hi : freeRoot tm i = true)
    (hj : freeRoot tm j = true) (hij : i ≠ j) : leftmost tm i ≠ leftmost tm j :=
  fun hc => hij (h.roots hi hj hc)

theorem Forest.root_valid {ft tm next} (h : Forest ft tm next) {i} (hi : freeRoot tm i = true) :
    ∃ n, nodeAt tm i = some n := (validNode_iff h.wf i).1 ((freeRoot_iff i).1 hi).1

/-! ### A memory with more records -/

/-- Every record of the first memory is a record of the second. -/
def Extends (tm tm' : Memory Node) : Prop := ∀ i n, nodeAt tm i = some n → nodeAt tm' i = some n

theorem Extends.refl (tm : Memory Node) : Extends tm tm := fun _ _ h => h

theorem Extends.trans {tm tm' tm'' : Memory Node} (h : Extends tm tm') (h' : Extends tm' tm'') : Extends tm tm'' :=
  fun i n hi => h' i n (h i n hi)

theorem Extends.weight_eq {tm tm' : Memory Node} (h : Extends tm tm') {i n} (hi : nodeAt tm i = some n) :
    weight tm' i = weight tm i := by rw [weight, weight, hi, h i n hi]

theorem Extends.leftmostFrom_eq {ft next} {tm tm' : Memory Node} (h : Extends tm tm') (hf : Forest ft tm next) :
    ∀ i, validNode tm i = true → ∀ n, leftmostFrom tm' n i = leftmostFrom tm n i := by
  refine hf.induction (fun i sym w hi n => ?_) (fun i w l r hi ihl ihr n => ?_)
  · cases n <;> simp [leftmostFrom, hi, h i _ hi]
  · cases n with
    | zero => simp [leftmostFrom, hi, h i _ hi]
    | succ n => rw [leftmostFrom, leftmostFrom, hi, h i _ hi]; exact ihl n

/-- The leftmost leaf of an old node is the one it had. -/
theorem Extends.leftmost_eq {ft next} {tm tm' : Memory Node} (h : Extends tm tm') (hf : Forest ft tm next) (i : NodeIdx)
    (hi : validNode tm i = true) : leftmost tm' i = leftmost tm i := h.leftmostFrom_eq hf i hi _

/-- The comparator gives old nodes the order they had. -/
theorem Extends.nodeLt_eq {ft next} {tm tm' : Memory Node} (h : Extends tm tm') (hf : Forest ft tm next) {i j}
    (hi : validNode tm i = true) (hj : validNode tm j = true) : nodeLt tm' i j = nodeLt tm i j := by
  obtain ⟨n, hn⟩ := (validNode_iff hf.wf i).1 hi
  obtain ⟨m, hm⟩ := (validNode_iff hf.wf j).1 hj
  rw [nodeLt, nodeLt, h.weight_eq hn, h.weight_eq hm, h.leftmost_eq hf i hi, h.leftmost_eq hf j hj]

/-- Sorted queues of old nodes stay sorted. -/
theorem Extends.sorted {ft next} {tm tm' : Memory Node} (h : Extends tm tm') (hf : Forest ft tm next) {q : List NodeIdx}
    (hv : ∀ i ∈ q, validNode tm i = true) (hs : Sorted tm q) : Sorted tm' q :=
  hs.imp_of_mem fun {i j} hi hj hij => by rw [h.nodeLt_eq hf (hv i hi) (hv j hj)]; exact hij

/-- Paths from an old node lead where they led. -/
theorem Extends.follow_eq {ft next} {tm tm' : Memory Node} (h : Extends tm tm') (hf : Forest ft tm next) :
    ∀ (p : Path) (i : NodeIdx), validNode tm i = true → follow tm' i p = follow tm i p := by
  intro p
  induction p with
  | nil => intro i _; rfl
  | cons d p ih =>
    intro i hi
    obtain ⟨n, hn⟩ := (validNode_iff hf.wf i).1 hi
    rw [follow, follow, hn, h i n hn]
    cases n with
    | leaf sym w => rfl
    | internal w l r =>
      obtain ⟨-, -, hl, hr, -⟩ := hf.node hn
      cases d
      · exact ih l hl
      · exact ih r hr

/-- A path from a valid node ends at a valid node, no higher than where it began. -/
theorem Forest.follow_valid {ft tm next} (h : Forest ft tm next) : ∀ (p : Path) (i j : NodeIdx),
    validNode tm i = true → follow tm i p = some j → validNode tm j = true ∧ j.toNat + p.length ≤ i.toNat ∧
      (p ≠ [] → j ∈ childList tm) := by
  intro p
  induction p with
  | nil => rintro i j hi ⟨⟩; exact ⟨hi, le_rfl, fun hc => absurd rfl hc⟩
  | cons d p ih =>
    intro i j hi hj
    obtain ⟨n, hn⟩ := (validNode_iff h.wf i).1 hi
    rw [follow, hn] at hj
    cases n with
    | leaf sym w => cases hj
    | internal w l r =>
      obtain ⟨-, -, hl, hr, h5, h6, -⟩ := h.node hn
      have hc := h.mem_children h.wf hn
      have step : ∀ c, validNode tm c = true → c.toNat < i.toNat → c ∈ childList tm → follow tm c p = some j →
          validNode tm j = true ∧ j.toNat + (d :: p).length ≤ i.toNat ∧ (d :: p ≠ [] → j ∈ childList tm) := by
        intro c hcv hci hcm hcf
        obtain ⟨h1, h2, h3⟩ := ih c j hcv hcf
        refine ⟨h1, by simp only [List.length_cons]; omega, fun _ => ?_⟩
        by_cases hp : p = []
        · subst hp; cases hcf; exact hcm
        · exact h3 hp
      cases d
      · exact step l hl h5 hc.1 hj
      · exact step r hr h6 hc.2 hj

theorem Extends.leads_iff {ft next} {tm tm' : Memory Node} (h : Extends tm tm') (hf : Forest ft tm next)
    {i : NodeIdx} (hi : validNode tm i = true) (p : Path) (b : Byte) :
    leadsToLeaf tm' i p b = leadsToLeaf tm i p b := by
  rw [leadsToLeaf, leadsToLeaf, h.follow_eq hf p i hi]
  cases hj : follow tm i p with
  | none => rfl
  | some j =>
    obtain ⟨n, hn⟩ := (validNode_iff hf.wf j).1 (hf.follow_valid p i j hi hj).1
    simp only [hn, h j n hn]

/-! ### A join -/

theorem Memory.set_above {α : Type} (m : Memory α) (a : Nat) (x : α) (h : ∀ e ∈ m, e.1 < a) :
    Memory.set m a x = m ++ [(a, x)] := by
  induction m with
  | nil => rfl
  | cons e m ih =>
    obtain ⟨k, y⟩ := e
    have hk : k < a := h _ List.mem_cons_self
    rw [Memory.set, if_neg (by omega), if_neg (by omega), ih fun e he => h e (List.mem_cons_of_mem _ he)]
    rfl

theorem Forest.keys_lt {ft tm next} (h : Forest ft tm next) : ∀ e ∈ tm, e.1 < next.toNat := by
  intro e he
  obtain ⟨hn, ht⟩ := nodeAt_of_mem h.wf he
  have := h.next_ge
  obtain ⟨k, n⟩ := e
  cases n with
  | leaf sym w =>
    have h1 := (h.leaf hn).1
    have h2 := leafIdx_toNat sym
    rw [← h1, ht] at h2
    have := sym.isLt
    simp only at h2 ⊢; omega
  | internal w l r => have := (h.node hn).2.1; rwa [ht] at this

theorem Forest.next_fresh {ft tm next} (h : Forest ft tm next) : nodeAt tm next = none := by
  cases hn : nodeAt tm next with
  | none => rfl
  | some n => exact absurd (h.keys_lt _ ((nodeAt_eq_some_iff h.wf _ _).1 hn)) (lt_irrefl _)

theorem Forest.extends_set {ft tm next} (h : Forest ft tm next) (n : Node) : Extends tm (setNode tm next n) := by
  intro i m hi
  rw [nodeAt_setNode, if_neg]
  · exact hi
  · rintro rfl; rw [h.next_fresh] at hi; cases hi

/-- A join of two free roots (R121): the new forest, its free roots, and the place of the new node in the order. -/
theorem Forest.join {ft tm next} (h : Forest ft tm next) (hn : next ≠ Config.noNode) {a b}
    (ha : freeRoot tm a = true) (hb : freeRoot tm b = true) (hab : a ≠ b) :
    Forest ft (setNode tm next (joinNode tm a b)) (next + 1#9) ∧ (next + 1#9).toNat = next.toNat + 1 ∧
    (∀ i, freeRoot (setNode tm next (joinNode tm a b)) i = true ↔
      i = next ∨ (freeRoot tm i = true ∧ i ≠ a ∧ i ≠ b)) ∧
    leftmost (setNode tm next (joinNode tm a b)) next = leftmost tm a := by
  have hge := h.next_ge
  have hlt := next.isLt
  have hne : next.toNat ≠ 511 := fun hc => hn (BitVec.eq_of_toNat_eq hc)
  have hnext : (next + 1#9).toNat = next.toNat + 1 := by
    rw [BitVec.toNat_add, show (1#9).toNat = 1 from rfl, Nat.mod_eq_of_lt (by omega)]
  obtain ⟨hav, hap⟩ := (freeRoot_iff a).1 ha
  obtain ⟨hbv, hbp⟩ := (freeRoot_iff b).1 hb
  obtain ⟨na, hna⟩ := (validNode_iff h.wf a).1 hav
  obtain ⟨nb, hnb⟩ := (validNode_iff h.wf b).1 hbv
  have halt : a.toNat < next.toNat := h.keys_lt _ ((nodeAt_eq_some_iff h.wf _ _).1 hna)
  have hblt : b.toNat < next.toNat := h.keys_lt _ ((nodeAt_eq_some_iff h.wf _ _).1 hnb)
  have hset : setNode tm next (joinNode tm a b) = tm ++ [(next.toNat, joinNode tm a b)] :=
    Memory.set_above _ _ _ h.keys_lt
  have hwf : Memory.wf Config.nodeMax (setNode tm next (joinNode tm a b)) := setNode_wf h.wf hn _
  have hch : childList (setNode tm next (joinNode tm a b)) = childList tm ++ [a, b] := by
    rw [hset]; simp [childList, joinNode]
  have hext := h.extends_set (joinNode tm a b)
  have hval : ∀ {i}, validNode tm i = true → validNode (setNode tm next (joinNode tm a b)) i = true := fun {i} hi => by
    obtain ⟨n, hi⟩ := (validNode_iff h.wf i).1 hi
    exact (validNode_iff hwf i).2 ⟨n, hext i n hi⟩
  have hnv : nodeAt (setNode tm next (joinNode tm a b)) next = some (joinNode tm a b) := by
    rw [nodeAt_setNode, if_pos rfl]
  have hcase : ∀ {i n}, nodeAt (setNode tm next (joinNode tm a b)) i = some n →
      (i = next ∧ n = joinNode tm a b) ∨ nodeAt tm i = some n := fun {i n} hi => by
    rw [nodeAt_setNode] at hi
    split_ifs at hi with hc
    · exact .inl ⟨hc, (Option.some.inj hi).symm⟩
    · exact .inr hi
  have hchild : ∀ {i}, i ∈ childList tm → i ≠ next := fun {i} hi => by
    obtain ⟨m, w, l, r, hm, hi⟩ := (mem_childList h.wf i).1 hi
    obtain ⟨-, h2, -, -, h5, h6, -⟩ := h.node hm
    rintro rfl
    rcases hi with rfl | rfl <;> omega
  have hroots : ∀ i, freeRoot (setNode tm next (joinNode tm a b)) i = true ↔
      i = next ∨ (freeRoot tm i = true ∧ i ≠ a ∧ i ≠ b) := fun i => by
    rw [freeRoot_iff, freeRoot_iff, hch]
    simp only [List.mem_append, List.mem_cons, List.not_mem_nil, or_false, not_or]
    constructor
    · rintro ⟨hv, hc, hia, hib⟩
      obtain ⟨n, hv⟩ := (validNode_iff hwf i).1 hv
      rcases hcase hv with ⟨hi, -⟩ | hi
      · exact .inl hi
      · exact .inr ⟨⟨(validNode_iff h.wf i).2 ⟨n, hi⟩, hc⟩, hia, hib⟩
    · rintro (rfl | ⟨⟨hv, hc⟩, hia, hib⟩)
      · refine ⟨(validNode_iff hwf i).2 ⟨_, hnv⟩, fun hc => hchild hc rfl, ?_, ?_⟩
        · rintro rfl; omega
        · rintro rfl; omega
      · exact ⟨hval hv, hc, hia, hib⟩
  -- the left child of the new node keeps its leftmost leaf
  have hleft : leftmost (setNode tm next (joinNode tm a b)) next = leftmost tm a := by
    have := depthBound_le a
    have h1 := (h.leftmostFrom_eq a hav 509 510 (by omega) (by omega)).1
    rw [leftmost, show Config.nodeMax = 510 + 1 from rfl, leftmostFrom, hnv]
    exact (hext.leftmostFrom_eq h a hav 510).trans h1
  refine ⟨⟨hwf, by omega, fun {i sym w} hi => ?_, fun {i w l r} hi => ?_, fun i h1 h2 => ?_, ?_,
    fun {i j} hi hj hl => ?_⟩, hnext, hroots, hleft⟩
  · rcases hcase hi with ⟨-, hc⟩ | hi
    · cases hc
    · exact h.leaf hi
  · rcases hcase hi with ⟨rfl, hc⟩ | hi
    · injection hc with hw hl hr
      subst hl hr
      rw [hext.weight_eq hna, hext.weight_eq hnb]
      exact ⟨hge, by omega, hval hav, hval hbv, halt, hblt, hw⟩
    · obtain ⟨h1, h2, h3, h4, h5, h6, h7⟩ := h.node hi
      obtain ⟨nl, hnl⟩ := (validNode_iff h.wf l).1 h3
      obtain ⟨nr, hnr⟩ := (validNode_iff h.wf r).1 h4
      rw [hext.weight_eq hnl, hext.weight_eq hnr]
      exact ⟨h1, by omega, hval h3, hval h4, h5, h6, h7⟩
  · by_cases hi : i = next
    · subst hi; exact (validNode_iff hwf i).2 ⟨_, hnv⟩
    · have : i.toNat ≠ next.toNat := fun hc => hi (BitVec.eq_of_toNat_eq hc)
      exact hval (h.filled i h1 (by omega))
  · rw [hch]
    refine List.nodup_append.2 ⟨h.children, by simp [hab], fun x hx y hy => ?_⟩
    rintro rfl
    simp only [List.mem_cons, List.not_mem_nil, or_false] at hy
    rcases hy with rfl | rfl
    · exact hap hx
    · exact hbp hx
  · have lm : ∀ {k}, freeRoot tm k = true → leftmost (setNode tm next (joinNode tm a b)) k = leftmost tm k :=
      fun hk => hext.leftmost_eq h _ ((freeRoot_iff _).1 hk).1
    rcases (hroots i).1 hi with rfl | ⟨hi', hia, -⟩ <;> rcases (hroots j).1 hj with rfl | ⟨hj', hja, -⟩
    · rfl
    · rw [hleft, lm hj'] at hl; exact absurd (h.roots ha hj' hl).symm hja
    · rw [hleft, lm hi'] at hl; exact absurd (h.roots hi' ha hl) hia
    · rw [lm hi', lm hj'] at hl; exact h.roots hi' hj' hl

/-! ### How many nodes there are -/

/-- Whether a node is an internal one. -/
def Node.isInternal : Node → Bool
  | .leaf _ _ => false
  | .internal _ _ _ => true

theorem childList_length (tm : Memory Node) : (childList tm).length = 2 * tm.countP fun e => e.2.isInternal := by
  induction tm with
  | nil => rfl
  | cons e tm ih =>
    obtain ⟨k, n⟩ := e
    rw [childList, List.flatMap_cons, List.length_append]
    rw [childList] at ih
    rw [ih]
    cases n with
    | leaf sym w => simp [Node.isInternal]
    | internal w l r => simp [Node.isInternal]; omega

/-- The joins made and the free roots are at most 256 together: a join makes one tree of two, and there are at most 256
leaves (R104, R121: why `QLEN` cannot pass 256 and `NEXT` cannot pass 511). -/
theorem Forest.count_le {ft tm next} (h : Forest ft tm next) {rs : List NodeIdx} (hn : rs.Nodup)
    (hr : ∀ i ∈ rs, freeRoot tm i = true) : next.toNat + rs.length ≤ 512 := by
  have hkey : (tm.map Prod.fst).Nodup :=
    (List.pairwise_map.2 h.wf.1).imp fun {a b} hab => Nat.ne_of_lt hab
  -- children and the given roots are different nodes
  have h1 : (childList tm ++ rs).length ≤ tm.length := by
    rw [← List.length_map (f := fun e : Nat × Node => BitVec.ofNat 9 e.1)]
    refine (List.subperm_of_subset (List.nodup_append.2 ⟨h.children, hn, ?_⟩) ?_).length_le
    · rintro x hx y hy rfl
      exact ((freeRoot_iff x).1 (hr x hy)).2 hx
    · intro i hi
      have hv : validNode tm i = true := by
        rcases List.mem_append.1 hi with hi | hi
        · obtain ⟨m, w, l, r, hm, hi⟩ := (mem_childList h.wf i).1 hi
          obtain ⟨-, -, h3, h4, -⟩ := h.node hm
          rcases hi with rfl | rfl
          · exact h3
          · exact h4
        · exact ((freeRoot_iff i).1 (hr i hi)).1
      obtain ⟨n, hi⟩ := (validNode_iff h.wf i).1 hv
      exact List.mem_map.2 ⟨_, (nodeAt_eq_some_iff h.wf _ _).1 hi, by simp⟩
  -- at most 256 leaves
  have h2 : tm.countP (fun e => !e.2.isInternal) ≤ 256 := by
    rw [List.countP_eq_length_filter, ← List.length_map (f := Prod.fst), ← List.length_range (n := 256)]
    refine (List.subperm_of_subset (hkey.sublist (List.filter_sublist.map _)) fun k hk => ?_).length_le
    obtain ⟨e, he, rfl⟩ := List.mem_map.1 hk
    obtain ⟨he, hl⟩ := List.mem_filter.1 he
    obtain ⟨hi, ht⟩ := nodeAt_of_mem h.wf he
    obtain ⟨k, n⟩ := e
    cases n with
    | internal w l r => simp [Node.isInternal] at hl
    | leaf sym w =>
      have h3 := leafIdx_toNat sym
      rw [← (h.leaf hi).1, ht] at h3
      have := sym.isLt
      rw [List.mem_range]; simp only at h3 ⊢; omega
  -- an internal node at every index from 256 to NEXT - 1
  have h3 : next.toNat - 256 ≤ tm.countP (fun e => e.2.isInternal) := by
    rw [List.countP_eq_length_filter, ← List.length_map (f := Prod.fst),
      ← List.length_range' (s := 256) (step := 1) (n := next.toNat - 256)]
    refine (List.subperm_of_subset (List.nodup_range') fun k hk => ?_).length_le
    rw [List.mem_range'_1] at hk
    have hlt := next.isLt
    have ht : (BitVec.ofNat 9 k).toNat = k := by rw [BitVec.toNat_ofNat]; omega
    obtain ⟨n, hi⟩ := (validNode_iff h.wf _).1 (h.filled (BitVec.ofNat 9 k) (by omega) (by omega))
    refine List.mem_map.2 ⟨_, List.mem_filter.2 ⟨(nodeAt_eq_some_iff h.wf _ _).1 hi, ?_⟩, ht⟩
    cases n with
    | internal w l r => rfl
    | leaf sym w =>
      have h4 := leafIdx_toNat sym
      rw [← (h.leaf hi).1, ht] at h4
      have := sym.isLt
      omega
  have h4 := List.length_eq_countP_add_countP (fun e : Nat × Node => e.2.isInternal) (l := tm)
  rw [List.length_append, childList_length] at h1
  simp only [Bool.not_eq_true, Bool.decide_eq_false] at h4
  have := h.next_ge
  omega

/-! ### Paths to leaves -/

/-- The child a decision takes. -/
def pick (d : Decision) (l r : NodeIdx) : NodeIdx :=
  match d with
  | .left => l
  | .right => r

theorem follow_snoc {tm : Memory Node} (d : Decision) (j : NodeIdx) : ∀ (p : Path) (i : NodeIdx),
    follow tm i (p ++ [d]) = some j ↔
      ∃ m w l r, follow tm i p = some m ∧ nodeAt tm m = some (.internal w l r) ∧ j = pick d l r := by
  intro p
  induction p with
  | nil =>
    intro i
    simp only [List.nil_append, follow]
    cases hn : nodeAt tm i with
    | none => simp [hn]
    | some n =>
      cases n with
      | leaf sym w => simp [hn]
      | internal w l r =>
        constructor
        · intro hj; exact ⟨i, w, l, r, rfl, hn, by cases d <;> simpa [pick, eq_comm] using hj⟩
        · rintro ⟨m, w', l', r', hm, hn', rfl⟩
          cases hm
          rw [hn] at hn'; cases hn'
          cases d <;> rfl
  | cons e p ih =>
    intro i
    simp only [List.cons_append, follow]
    cases hn : nodeAt tm i with
    | none => simp
    | some n =>
      cases n with
      | leaf sym w => simp
      | internal w l r => exact ih _

theorem follow_append {tm : Memory Node} (q : Path) : ∀ (p : Path) (i : NodeIdx),
    follow tm i (p ++ q) = (follow tm i p).bind fun j => follow tm j q := by
  intro p
  induction p with
  | nil => intro i; rfl
  | cons e p ih =>
    intro i
    simp only [List.cons_append, follow]
    cases hn : nodeAt tm i with
    | none => rfl
    | some n =>
      cases n with
      | leaf sym w => rfl
      | internal w l r => exact ih _

theorem leadsToLeaf_iff {tm : Memory Node} {i : NodeIdx} {p : Path} {b : Byte} : leadsToLeaf tm i p b = true ↔
    ∃ j w, follow tm i p = some j ∧ nodeAt tm j = some (.leaf b w) := by
  unfold leadsToLeaf
  cases follow tm i p with
  | none => simp
  | some j =>
    cases hn : nodeAt tm j with
    | none => simp [hn]
    | some n => cases n <;> simp [hn]

theorem leadsToLeaf_leaf {tm : Memory Node} {i : NodeIdx} {sym w} (hi : nodeAt tm i = some (.leaf sym w)) (p : Path)
    (b : Byte) : leadsToLeaf tm i p b = true ↔ p = [] ∧ b = sym := by
  rw [leadsToLeaf_iff]
  cases p with
  | nil => simp [follow, hi, eq_comm]
  | cons d p => simp [follow, hi]

theorem leadsToLeaf_node {tm : Memory Node} {i : NodeIdx} {w l r} (hi : nodeAt tm i = some (.internal w l r))
    (p : Path) (b : Byte) : leadsToLeaf tm i p b = true ↔
      ∃ d p', p = d :: p' ∧ leadsToLeaf tm (pick d l r) p' b = true := by
  cases p with
  | nil => rw [leadsToLeaf_iff]; simp [follow, hi]
  | cons d p =>
    rw [leadsToLeaf_iff]
    simp only [follow, hi, List.cons.injEq]
    constructor
    · rintro h; exact ⟨d, p, ⟨rfl, rfl⟩, leadsToLeaf_iff.2 h⟩
    · rintro ⟨d', p', ⟨rfl, rfl⟩, h⟩; exact leadsToLeaf_iff.1 h

/-- No path from a node is longer than its bound: at most 255 decisions (R6, R131). -/
theorem Forest.follow_length {ft tm next} (h : Forest ft tm next) : ∀ i, validNode tm i = true → ∀ (p : Path) (j : NodeIdx),
    follow tm i p = some j → p.length ≤ depthBound i := by
  refine h.induction (fun i sym w hi p j hj => ?_) (fun i w l r hi ihl ihr p j hj => ?_)
  · cases p with
    | nil => exact Nat.zero_le _
    | cons d p => rw [follow, hi] at hj; cases hj
  · obtain ⟨k, h1, h2, h3⟩ := h.lt_depthBound hi
    cases p with
    | nil => exact Nat.zero_le _
    | cons d p =>
      rw [follow, hi] at hj
      rw [List.length_cons, h1]
      cases d
      · have := ihl p j hj; omega
      · have := ihr p j hj; omega

/-- Of two nodes with a common descendant one is an ancestor of the other. -/
theorem Forest.comparable {ft tm next} (h : Forest ft tm next) {x y : NodeIdx} : ∀ (p q : Path) (j : NodeIdx),
    follow tm x p = some j → follow tm y q = some j →
      (∃ t, follow tm x t = some y ∧ p = t ++ q) ∨ (∃ t, follow tm y t = some x ∧ q = t ++ p) := by
  intro p
  induction p using List.reverseRecOn with
  | nil => rintro q j ⟨⟩ hq; exact .inr ⟨q, hq, by simp⟩
  | append_singleton p d ih =>
    intro q j hp hq
    cases q using List.reverseRecOn with
    | nil => cases hq; exact .inl ⟨p ++ [d], hp, by simp⟩
    | append_singleton q e =>
      obtain ⟨m, w, l, r, hm, hn, hj⟩ := (follow_snoc d j p x).1 hp
      obtain ⟨m', w', l', r', hm', hn', hj'⟩ := (follow_snoc e j q y).1 hq
      have hmem : ∀ (d : Decision) (l r : NodeIdx), pick d l r = l ∨ pick d l r = r := by
        intro d l r; cases d; exacts [.inl rfl, .inr rfl]
      obtain ⟨rfl, hside⟩ := h.eq_parent (j := j) hn hn' (by rw [hj]; exact hmem d l r) (by rw [hj']; exact hmem e l' r')
      rw [hn] at hn'; cases hn'
      have hlr := (h.parent_unique hn hn).1
      have hde : d = e := by
        cases d <;> cases e <;> simp only [pick] at hj hj' <;> first | rfl | skip
        · exact absurd (hj.symm.trans hj') hlr
        · exact absurd (hj'.symm.trans hj) hlr
      subst hde
      rcases ih q m hm hm' with ⟨t, ht, rfl⟩ | ⟨t, ht, rfl⟩
      · exact .inl ⟨t, ht, by simp⟩
      · exact .inr ⟨t, ht, by simp⟩

/-- A leaf is in one tree only, at the end of one path (R24 item 3, R131). -/
theorem Forest.path_unique {ft tm next} (h : Forest ft tm next) {x y : NodeIdx} (hx : freeRoot tm x = true)
    (hy : freeRoot tm y = true) {p q : Path} {b : Byte} (hp : leadsToLeaf tm x p b = true)
    (hq : leadsToLeaf tm y q b = true) : x = y ∧ p = q := by
  obtain ⟨j, w, hj, hn⟩ := leadsToLeaf_iff.1 hp
  obtain ⟨j', w', hj', hn'⟩ := leadsToLeaf_iff.1 hq
  have : j = j' := (h.leaf hn).1.trans (h.leaf hn').1.symm
  subst this
  have top : ∀ {x y : NodeIdx} {t : Path}, freeRoot tm x = true → freeRoot tm y = true → follow tm x t = some y →
      t = [] ∧ x = y := fun {x y t} hx hy ht => by
    by_cases h0 : t = []
    · subst h0; cases ht; exact ⟨rfl, rfl⟩
    · exact absurd ((h.follow_valid t x y ((freeRoot_iff x).1 hx).1 ht).2.2 h0) ((freeRoot_iff y).1 hy).2
  rcases h.comparable p q j hj hj' with ⟨t, ht, rfl⟩ | ⟨t, ht, rfl⟩
  · obtain ⟨rfl, rfl⟩ := top hx hy ht; exact ⟨rfl, rfl⟩
  · obtain ⟨rfl, rfl⟩ := top hy hx ht; exact ⟨rfl, rfl⟩

/-- The two subtrees of an internal node have no leaf in common. -/
theorem Forest.subtrees_disjoint {ft tm next} (h : Forest ft tm next) {i w l r}
    (hi : nodeAt tm i = some (.internal w l r)) {p q : Path} {b : Byte} (hp : leadsToLeaf tm l p b = true)
    (hq : leadsToLeaf tm r q b = true) : False := by
  obtain ⟨j, w1, hj, hn⟩ := leadsToLeaf_iff.1 hp
  obtain ⟨j', w2, hj', hn'⟩ := leadsToLeaf_iff.1 hq
  have : j = j' := (h.leaf hn).1.trans (h.leaf hn').1.symm
  subst this
  obtain ⟨-, -, hl, hr, hli, hri, -⟩ := h.node hi
  have hlr := (h.parent_unique hi hi).1
  have no : ∀ {x y : NodeIdx} {t : Path}, (x = l ∨ x = r) → (y = l ∨ y = r) → x ≠ y → validNode tm x = true →
      x.toNat < i.toNat → follow tm x t = some y → False := fun {x y t} hx hy hxy hv hlt ht => by
    cases t using List.reverseRecOn with
    | nil => cases ht; exact hxy rfl
    | append_singleton t d =>
      obtain ⟨m, wm, lm, rm, hm, hmn, hmy⟩ := (follow_snoc d y t x).1 ht
      have hy' : y = lm ∨ y = rm := by rw [hmy]; cases d; exacts [.inl rfl, .inr rfl]
      have := (h.eq_parent hmn hi hy' hy).1
      have h2 := (h.follow_valid t x m hv hm).2.1
      subst this
      omega
  rcases h.comparable p q j hj hj' with ⟨t, ht, -⟩ | ⟨t, ht, -⟩
  · exact no (.inl rfl) (.inr rfl) hlr hl hli ht
  · exact no (.inr rfl) (.inl rfl) hlr.symm hr hri ht

/-- Every node has a leaf below it. -/
theorem Forest.has_leaf {ft tm next} (h : Forest ft tm next) : ∀ i, validNode tm i = true →
    ∃ p b, leadsToLeaf tm i p b = true := by
  refine h.induction (fun i sym w hi => ⟨[], sym, (leadsToLeaf_leaf hi _ _).2 ⟨rfl, rfl⟩⟩) (fun i w l r hi ihl _ => ?_)
  obtain ⟨p, b, hp⟩ := ihl
  exact ⟨.left :: p, b, (leadsToLeaf_node hi _ _).2 ⟨.left, p, rfl, hp⟩⟩

end Sys2Proof.Machine
end

