-- ==== Sys2Proof/Laws/Trees.lean ====
section
/-! SUPPORT. What the queue's and the tree's commands do in a state whose TM is a forest and whose queue is sorted: each
completes, and what it leaves. -/

namespace Sys2Proof.Machine

/-- R24 items 1 to 4: the forest, with the queue a sorted list of free roots. -/
structure QueueForest (c : CoreState) : Prop extends Forest c.ft c.tm c.nextNode where
  queued : ∀ i ∈ c.queue, freeRoot c.tm i = true
  sorted : Sorted c.tm c.queue

theorem queueForest_of_inv {s : State} (h : Inv s) : QueueForest s.core :=
  ⟨forest_of_forestOk h.1.2.1 h.2.2.2.2, h.2.2.2.2.2.2.2.2.1, h.2.2.2.2.2.2.2.2.2.1⟩

theorem Sorted.nodup {tm : Memory Node} {q : List NodeIdx} (h : Sorted tm q) : q.Nodup :=
  h.imp fun {a b} hab => by rintro rfl; rw [nodeLt_irrefl] at hab; cases hab

theorem QueueForest.valid {c : CoreState} (h : QueueForest c) {i} (hi : i ∈ c.queue) : validNode c.tm i = true :=
  ((freeRoot_iff i).1 (h.queued i hi)).1

/-- The queue has at most 256 entries, and room for one more beside a node outside it (R104). -/
theorem QueueForest.queue_room {c : CoreState} (h : QueueForest c) {i} (hi : freeRoot c.tm i = true)
    (hq : i ∉ c.queue) : c.queue.length < 256 := by
  have := h.count_le (List.nodup_cons.2 ⟨hq, h.sorted.nodup⟩) (fun j hj => by
    rcases List.mem_cons.1 hj with rfl | hj
    · exact hi
    · exact h.queued j hj)
  have := h.next_ge
  rw [List.length_cons] at *
  omega

/-! ### QINS -/

/-- `QINS` of an eligible node (R104). -/
theorem qinsRule_ok {s : State} (h : QueueForest s.core) {idx : NodeIdx} (he : eligible s.core idx = true) :
    qinsRule idx s = .ok () (s.withCore { s.core with
      queue := placeInQueue s.core.tm s.core.queue idx
      xn := if s.core.status.xnv && s.core.xn == idx then Config.noNode else s.core.xn
      status := s.core.status.setXnv (s.core.status.xnv && !(s.core.status.xnv && s.core.xn == idx)) }) := by
  have he' := he
  simp only [eligible, Bool.and_eq_true, bne_iff_ne] at he'
  obtain ⟨⟨⟨-, hv⟩, hf⟩, hq⟩ := he'
  have hq : idx ∉ s.core.queue := by simpa [inQueue] using hq
  have ho : orderFault s.core.tm (idx :: s.core.queue) = none := h.orderFault_none fun i hi => by
    rcases List.mem_cons.1 hi with rfl | hi
    · exact hv
    · exact h.valid hi
  have hroom := h.queue_room hf hq
  rw [qinsRule, he, if_neg (by decide), ho, if_neg (by simp only [Config.nsymMax]; omega)]

theorem QueueForest.insert {c : CoreState} (h : QueueForest c) {idx : NodeIdx} (hf : freeRoot c.tm idx = true)
    (hq : idx ∉ c.queue) (xn : NodeIdx) (st : Status) :
    QueueForest { c with queue := placeInQueue c.tm c.queue idx, xn := xn, status := st } :=
  { toForest := h.toForest
    queued := fun i hi => by
      rcases mem_placeInQueue.1 hi with rfl | hi
      · exact hf
      · exact h.queued i hi
    sorted := placeInQueue_sorted h.sorted fun k hk =>
      h.roots_ordered (h.queued k hk) hf fun hc => hq (hc ▸ hk) }

/-! ### TJOIN and TREDUCE -/

/-- The CORE after a join of the first two entries (R121). -/
def CoreState.joined (c : CoreState) (a b : NodeIdx) (q : List NodeIdx) : CoreState :=
  { c with
    tm := setNode c.tm c.nextNode (joinNode c.tm a b)
    queue := placeInQueue (setNode c.tm c.nextNode (joinNode c.tm a b)) q c.nextNode
    nextNode := c.nextNode + 1#9
    xn := Config.noNode
    status := c.status.setXnv false }

/-- What a join of the first two entries needs: both are free roots, and there is a slot (R121: "`NEXT` cannot pass
511"). -/
theorem QueueForest.next_room {c : CoreState} (h : QueueForest c) {a b q} (hq : c.queue = a :: b :: q) :
    c.nextNode ≠ Config.noNode := by
  intro hc
  have h1 := h.count_le h.sorted.nodup h.queued
  rw [hc, hq] at h1
  simp only [List.length_cons, Config.noNode] at h1
  have : (511#9).toNat = 511 := rfl
  omega

theorem QueueForest.join {c : CoreState} (h : QueueForest c) {a b q} (hq : c.queue = a :: b :: q) :
    QueueForest (c.joined a b q) ∧ (c.joined a b q).nextNode.toNat = c.nextNode.toNat + 1 ∧
    leftmost (c.joined a b q).tm c.nextNode = leftmost c.tm a ∧
    (∀ i, freeRoot (c.joined a b q).tm i = true ↔ i = c.nextNode ∨ (freeRoot c.tm i = true ∧ i ≠ a ∧ i ≠ b)) := by
  have hnd := h.sorted.nodup
  have hs := h.sorted
  rw [hq] at hnd hs
  have ha : freeRoot c.tm a = true := h.queued a (by rw [hq]; simp)
  have hb : freeRoot c.tm b = true := h.queued b (by rw [hq]; simp)
  have hab : a ≠ b := fun hc => by subst hc; simp at hnd
  obtain ⟨hf, hn, hr, hl⟩ := h.toForest.join (h.next_room hq) ha hb hab
  have hqv : ∀ i ∈ q, validNode c.tm i = true := fun i hi => h.valid (by rw [hq]; simp [hi])
  have hfree : ∀ i ∈ q, freeRoot (c.joined a b q).tm i = true := fun i hi => (hr i).2 (.inr ⟨h.queued i (by
    rw [hq]; simp [hi]), fun hc => by subst hc; simp [hi] at hnd, fun hc => by subst hc; simp [hi] at hnd⟩)
  refine ⟨{ toForest := hf, queued := fun i hi => ?_, sorted := ?_ }, hn, hl, hr⟩
  · rcases mem_placeInQueue.1 hi with rfl | hi
    · exact (hr _).2 (.inl rfl)
    · exact hfree i hi
  · refine placeInQueue_sorted ((h.extends_set _).sorted h.toForest hqv
      (List.pairwise_cons.1 (List.pairwise_cons.1 hs).2).2) fun k hk => ?_
    refine hf.roots_ordered (hfree k hk) ((hr _).2 (.inl rfl)) ?_
    rintro rfl
    obtain ⟨n, hn⟩ := (validNode_iff h.wf _).1 (hqv _ hk)
    rw [h.next_fresh] at hn; cases hn

/-- A join completes where two entries are queued (R121). -/
theorem tjoinRule_ok {s : State} (h : QueueForest s.core) {a b q} (hq : s.core.queue = a :: b :: q) :
    tjoinRule s = .ok () (s.withCore (s.core.joined a b q)) := by
  refine tjoinRule_eq_ok.2 ⟨a, b, q, hq, h.next_room hq, ?_, rfl⟩
  obtain ⟨hf, -⟩ := h.join hq
  refine hf.orderFault_none fun i hi => hf.valid ?_
  rcases List.mem_cons.1 hi with rfl | hi
  · exact mem_placeInQueue.2 (.inl rfl)
  · exact mem_placeInQueue.2 (.inr hi)

/-- What `k` joins leave of the CORE they begin with. -/
structure Joined (c c' : CoreState) (k : Nat) : Prop where
  ext : Extends c.tm c'.tm
  next : c'.nextNode.toNat = c.nextNode.toNat + k
  length : c.queue.length = c'.queue.length + k
  keep : ∀ i : NodeIdx, i.toNat < c.nextNode.toNat ∨ c'.nextNode.toNat ≤ i.toNat → nodeAt c'.tm i = nodeAt c.tm i
  leaves : ∀ b, (∃ i ∈ c'.queue, ∃ p, leadsToLeaf c'.tm i p b = true) ↔
    ∃ i ∈ c.queue, ∃ p, leadsToLeaf c.tm i p b = true
  weights : (c'.queue.map (weight c'.tm)).sum = (c.queue.map (weight c.tm)).sum
  last : 0 < k → ∃ n ∈ c'.queue, n.toNat + 1 = c'.nextNode.toNat
  same : k = 0 → c'.queue = c.queue ∧ c'.tm = c.tm

theorem Joined.zero (c : CoreState) : Joined c c 0 :=
  ⟨.refl _, rfl, rfl, fun _ _ => rfl, fun _ => Iff.rfl, rfl, fun h => absurd h (lt_irrefl _), fun _ => ⟨rfl, rfl⟩⟩

theorem Joined.trans {c c' c'' : CoreState} {k k' : Nat} (h : Joined c c' k) (h' : Joined c' c'' k') :
    Joined c c'' (k + k') := by
  refine ⟨h.ext.trans h'.ext, by rw [h'.next, h.next, Nat.add_assoc], ?_, fun i hi => ?_,
    fun b => (h'.leaves b).trans (h.leaves b), h'.weights.trans h.weights, fun hk => ?_, fun hk => ?_⟩
  · rw [h.length, h'.length]; omega
  · have h1 := h.next
    have h2 := h'.next
    rw [h'.keep i (by omega), h.keep i (by omega)]
  · by_cases h0 : 0 < k'
    · exact h'.last h0
    · obtain ⟨e1, e2⟩ := h'.same (by omega)
      have := h'.next
      obtain ⟨n, hn, hn'⟩ := h.last (by omega)
      exact ⟨n, by rw [e1]; exact hn, by omega⟩
  · obtain ⟨e1, e2⟩ := h.same (by omega)
    obtain ⟨e3, e4⟩ := h'.same (by omega)
    exact ⟨e3.trans e1, e4.trans e2⟩

theorem QueueForest.joined_one {c : CoreState} (h : QueueForest c) {a b q} (hq : c.queue = a :: b :: q) :
    Joined c (c.joined a b q) 1 := by
  obtain ⟨hf, hn, -, -⟩ := h.join hq
  have hext : Extends c.tm (c.joined a b q).tm := h.extends_set _
  have hnode : nodeAt (c.joined a b q).tm c.nextNode = some (joinNode c.tm a b) := by
    rw [CoreState.joined, nodeAt_setNode, if_pos rfl]
  have hv : ∀ i ∈ c.queue, validNode c.tm i = true := fun i hi => h.valid hi
  rw [hq] at hv
  have hperm : (c.joined a b q).queue.Perm (c.nextNode :: q) := placeInQueue_perm _ _ _
  refine ⟨hext, hn, ?_, fun i hi => ?_, fun x => ?_, ?_, fun _ => ⟨c.nextNode, ?_, hn.symm⟩, fun hk => by cases hk⟩
  · rw [hperm.length_eq, hq]; rfl
  · rw [hn] at hi
    rw [CoreState.joined, nodeAt_setNode, if_neg]
    rintro rfl; omega
  · simp only [hperm.mem_iff, hq, List.mem_cons, exists_eq_or_imp]
    have old : ∀ i, validNode c.tm i = true →
        ((∃ p, leadsToLeaf (c.joined a b q).tm i p x = true) ↔ ∃ p, leadsToLeaf c.tm i p x = true) :=
      fun i hi => exists_congr fun p => by rw [hext.leads_iff h.toForest hi]
    rw [← old a (hv a (by simp)), ← old b (hv b (by simp)), ← or_assoc]
    refine or_congr ?_ (exists_congr fun i => and_congr_right fun hi => old i (hv i (by simp [hi])))
    constructor
    · rintro ⟨p, hp⟩
      obtain ⟨d, p', -, hp⟩ := (leadsToLeaf_node hnode p x).1 hp
      cases d
      · exact .inl ⟨p', hp⟩
      · exact .inr ⟨p', hp⟩
    · rintro (⟨p, hp⟩ | ⟨p, hp⟩)
      · exact ⟨.left :: p, (leadsToLeaf_node hnode _ x).2 ⟨.left, p, rfl, hp⟩⟩
      · exact ⟨.right :: p, (leadsToLeaf_node hnode _ x).2 ⟨.right, p, rfl, hp⟩⟩
  · have hw : ∀ i ∈ c.queue, weight (c.joined a b q).tm i = weight c.tm i := fun i hi => by
      obtain ⟨n, hi⟩ := (validNode_iff h.wf i).1 (h.valid hi)
      exact hext.weight_eq hi
    rw [(hperm.map _).sum_eq, hq, List.map_cons, List.sum_cons, List.map_cons, List.map_cons, List.sum_cons,
      List.sum_cons, ← add_assoc]
    rw [show weight (c.joined a b q).tm c.nextNode = weight c.tm a + weight c.tm b by rw [weight, hnode]; rfl]
    congr 2
    exact List.map_congr_left fun i hi => hw i (by rw [hq]; simp [hi])
  · exact hperm.mem_iff.2 List.mem_cons_self

/-- The loop of `TREDUCE` completes and leaves one entry (R122). -/
theorem reduceLoop_ok : ∀ (n : Nat) {s : State}, QueueForest s.core → s.core.queue ≠ [] → s.core.queue.length ≤ n →
    ∃ t, reduceLoop n s = .ok () t ∧ QueueForest t.core ∧ t.core.queue.length = 1 ∧
      Joined s.core t.core (s.core.queue.length - 1) := by
  intro n
  induction n with
  | zero => intro s _ hq hn; exact absurd (List.eq_nil_of_length_eq_zero (by omega)) hq
  | succ n ih =>
    intro s h hq hn
    rw [reduceLoop]
    by_cases h1 : s.core.queue.length ≤ 1
    · have hl : s.core.queue.length = 1 := by
        have := List.length_pos_iff.2 hq; omega
      rw [if_pos h1]
      exact ⟨s, rfl, h, hl, by rw [hl]; exact .zero _⟩
    · match hs : s.core.queue with
      | [] => exact absurd hs hq
      | [a] => rw [hs] at h1; simp at h1
      | a :: b :: q =>
        rw [← hs, if_neg h1, tjoinRule_ok h hs, Res.andThen_ok]
        have hj := h.joined_one hs
        have hl := hj.length
        have hne : (s.core.joined a b q).queue ≠ [] := fun hc => by rw [hc] at hl; simp at hl; omega
        obtain ⟨t, ht, hf, ht1, hjt⟩ := ih (s := s.withCore (s.core.joined a b q)) (h.join hs).1 hne (by
          simp only [State.withCore_core]; omega)
        refine ⟨t, ht, hf, ht1, ?_⟩
        have := hj.trans hjt
        simp only [State.withCore_core] at this
        convert this using 1
        omega

/-- `TREDUCE` completes where the queue is not empty (R122). -/
theorem treduceRule_ok {s : State} (h : QueueForest s.core) (hq : s.core.queue ≠ []) :
    ∃ (c : CoreState) (x : NodeIdx), treduceRule s = .ok () (s.withCore { s.core with
        tm := c.tm, queue := [], root := x, nextNode := c.nextNode, xn := Config.noNode
        status := s.core.status.enterTree }) ∧
      QueueForest c ∧ c.queue = [x] ∧ c.ft = s.core.ft ∧ Joined s.core c (s.core.queue.length - 1) := by
  obtain ⟨t, ht, hf, h1, hj⟩ := reduceLoop_ok s.core.queue.length h hq le_rfl
  have hfr := reduceLoop_frame s.core.queue.length s
  rw [ht] at hfr
  obtain ⟨hh, hc⟩ := hfr
  obtain ⟨x, hx⟩ := List.length_eq_one_iff.1 h1
  refine ⟨t.core, x, ?_, hf, hx, by rw [hc], hj⟩
  have hl : s.core.queue.length ≠ 0 := fun hc => hq (List.eq_nil_of_length_eq_zero hc)
  rw [treduceRule, if_neg hl, ht, Res.andThen_ok, designateRoot, hx]
  have hst : t = { core := t.core, host := s.host } := by rw [← hh]
  rw [hst, hc]
  rfl

/-! ### QBUILD -/

theorem mem_allBytes (b : Byte) : b ∈ allBytes :=
  List.mem_map.2 ⟨b.toNat, List.mem_range.2 b.isLt, by simp⟩

theorem allBytes_nodup : allBytes.Nodup := by
  refine List.Nodup.map_on (fun a ha b hb hab => ?_) List.nodup_range
  have := congrArg BitVec.toNat hab
  rw [List.mem_range] at ha hb
  simp only [Config.nsymMax] at ha hb
  rw [BitVec.toNat_ofNat, BitVec.toNat_ofNat, Nat.mod_eq_of_lt (by omega), Nat.mod_eq_of_lt (by omega)] at this
  exact this

@[simp] theorem mem_presentBytes {ft : Memory Count} {b : Byte} : b ∈ presentBytes ft ↔ present ft b = true := by
  simp [presentBytes, mem_allBytes]

theorem presentBytes_nodup (ft : Memory Count) : (presentBytes ft).Nodup := allBytes_nodup.filter _

theorem present_iff {ft : Memory Count} {b : Byte} : present ft b = true ↔ countAt ft b ≠ 0#64 := by simp [present]

/-- The record of a byte's leaf (R103). -/
abbrev leafOf (ft : Memory Count) (b : Byte) : Node := .leaf b ((countAt ft b).setWidth 72)

/-- `TM` after the leaves were written: the leaf of each present byte, every other record as before (R103). -/
theorem nodeAt_putLeaves (ft : Memory Count) (tm : Memory Node) (i : NodeIdx) :
    (∀ b, present ft b = true → i = leafIdx b → nodeAt (putLeaves ft tm) i = some (leafOf ft b)) ∧
    ((∀ b, present ft b = true → i ≠ leafIdx b) → nodeAt (putLeaves ft tm) i = nodeAt tm i) := by
  have key : ∀ (bs : List Byte) (tm : Memory Node),
      (∀ b ∈ bs, i = leafIdx b → nodeAt (bs.foldl (putLeaf ft) tm) i = some (leafOf ft b)) ∧
      ((∀ b ∈ bs, i ≠ leafIdx b) → nodeAt (bs.foldl (putLeaf ft) tm) i = nodeAt tm i) := by
    intro bs
    induction bs with
    | nil => intro tm; exact ⟨fun b hb => absurd hb List.not_mem_nil, fun _ => rfl⟩
    | cons a bs ih =>
      intro tm
      obtain ⟨h1, h2⟩ := ih (putLeaf ft tm a)
      refine ⟨fun b hb hi => ?_, fun hb => ?_⟩
      · by_cases hbs : b ∈ bs
        · exact h1 b hbs hi
        · have hab : b = a := by
            rcases List.mem_cons.1 hb with hb | hb
            · exact hb
            · exact absurd hb hbs
          subst hab
          refine (h2 fun x hx hc => hbs ?_).trans ?_
          · rw [leafIdx_inj (hi.symm.trans hc)]; exact hx
          · rw [putLeaf, nodeAt_setNode, if_pos hi]
      · refine (h2 fun x hx => hb x (List.mem_cons_of_mem _ hx)).trans ?_
        rw [putLeaf, nodeAt_setNode, if_neg (hb a List.mem_cons_self)]
  obtain ⟨h1, h2⟩ := key (presentBytes ft) tm
  exact ⟨fun b hb => h1 b (mem_presentBytes.2 hb), fun h => h2 fun b hb => h b (mem_presentBytes.1 hb)⟩

theorem putLeaves_wf {ft : Memory Count} {tm : Memory Node} (h : Memory.wf Config.nodeMax tm) :
    Memory.wf Config.nodeMax (putLeaves ft tm) := by
  have key : ∀ (bs : List Byte) (tm : Memory Node), Memory.wf Config.nodeMax tm →
      Memory.wf Config.nodeMax (bs.foldl (putLeaf ft) tm) := by
    intro bs
    induction bs with
    | nil => intro tm h; exact h
    | cons a bs ih =>
      intro tm h
      refine ih _ (setNode_wf h ?_ _)
      intro hc
      have := congrArg BitVec.toNat hc
      have ha := a.isLt
      rw [leafIdx_toNat] at this
      change a.toNat = 511 at this
      omega
  exact key _ tm h

/-- The leaves of the present bytes have their own byte as leftmost leaf, whatever else `TM` holds. -/
theorem leftmost_putLeaves (ft : Memory Count) (tm : Memory Node) {b : Byte} (hb : present ft b = true) :
    leftmost (putLeaves ft tm) (leafIdx b) = b ∧ weight (putLeaves ft tm) (leafIdx b) = (countAt ft b).setWidth 72 := by
  have := (nodeAt_putLeaves ft tm (leafIdx b)).1 b hb rfl
  exact ⟨by simp [leftmost, leftmostFrom, this], by simp [weight, weightOf, this]⟩

/-- The queue `QBUILD` makes: the leaves of the present bytes, sorted (R103). -/
theorem sorted_leaves (ft : Memory Count) (tm : Memory Node) :
    (sortNodes (putLeaves ft tm) ((presentBytes ft).map leafIdx)).Perm ((presentBytes ft).map leafIdx) ∧
    Sorted (putLeaves ft tm) (sortNodes (putLeaves ft tm) ((presentBytes ft).map leafIdx)) := by
  refine ⟨sortNodes_perm _ _, sortNodes_sorted _ _ ?_⟩
  rw [List.map_map]
  have : (presentBytes ft).map (leftmost (putLeaves ft tm) ∘ leafIdx) = presentBytes ft := by
    conv => rhs; rw [← List.map_id (presentBytes ft)]
    exact List.map_congr_left fun b hb => (leftmost_putLeaves ft tm (mem_presentBytes.1 hb)).1
  rw [this]
  exact presentBytes_nodup ft

/-- The CORE after `QBUILD` (R103). -/
def CoreState.built (c : CoreState) : CoreState :=
  { c with
    tm := putLeaves c.ft c.tm
    queue := sortNodes (putLeaves c.ft c.tm) ((presentBytes c.ft).map leafIdx)
    status := c.status.enterQueue }

theorem qbuildRule_ok {s : State} (h : nsym s.core.ft ≠ 0) : qbuildRule s = .ok () (s.withCore s.core.built) := by
  rw [qbuildRule, if_neg h]; rfl

theorem built_queue_length (c : CoreState) : c.built.queue.length = nsym c.ft := by
  rw [CoreState.built, (sortNodes_perm _ _).length_eq, List.length_map]; rfl

/-- From an empty `TM`, `QBUILD` makes a forest of leaves, one for each present byte. -/
theorem built_forest {c : CoreState} (ht : c.tm = []) (hn : c.nextNode = Config.firstInternal) :
    QueueForest c.built := by
  have hcase : ∀ {i n}, nodeAt c.built.tm i = some n → ∃ b, present c.ft b = true ∧ i = leafIdx b ∧
      n = leafOf c.ft b := fun {i n} hi => by
    by_cases hc : ∃ b, present c.ft b = true ∧ i = leafIdx b
    · obtain ⟨b, hb, hib⟩ := hc
      have := (nodeAt_putLeaves c.ft c.tm i).1 b hb hib
      rw [CoreState.built] at hi
      exact ⟨b, hb, hib, Option.some.inj (hi.symm.trans this)⟩
    · have := (nodeAt_putLeaves c.ft c.tm i).2 fun b hb hib => hc ⟨b, hb, hib⟩
      rw [CoreState.built, this, ht] at hi
      cases hi
  have hwf : Memory.wf Config.nodeMax c.built.tm := putLeaves_wf (by rw [ht]; decide)
  have hch : childList c.built.tm = [] := by
    rw [List.eq_nil_iff_forall_not_mem]
    intro i hi
    obtain ⟨m, w, l, r, hm, -⟩ := (mem_childList hwf i).1 hi
    obtain ⟨b, -, -, hb⟩ := hcase hm
    cases hb
  have h256 : c.built.nextNode.toNat = 256 := by rw [CoreState.built, hn]; rfl
  obtain ⟨hp, hs⟩ := sorted_leaves c.ft c.tm
  have hleft : ∀ {i}, freeRoot c.built.tm i = true → ∃ b, i = leafIdx b ∧ leftmost c.built.tm i = b :=
    fun {i} hi => by
      obtain ⟨n, hn⟩ := (validNode_iff hwf i).1 ((freeRoot_iff i).1 hi).1
      obtain ⟨b, hb, rfl, -⟩ := hcase hn
      exact ⟨b, rfl, (leftmost_putLeaves c.ft c.tm hb).1⟩
  refine ⟨⟨hwf, by omega, fun {i sym w} hi => ?_, fun {i w l r} hi => ?_, fun i h1 h2 => by omega,
    by rw [hch]; exact List.nodup_nil, fun {i j} hi hj hl => ?_⟩, fun i hi => ?_, hs⟩
  · obtain ⟨b, hb, rfl, hbn⟩ := hcase hi
    injection hbn with h1 h2
    subst h1
    exact ⟨rfl, h2, hb⟩
  · obtain ⟨b, -, -, hbn⟩ := hcase hi
    cases hbn
  · obtain ⟨b, rfl, hb⟩ := hleft hi
    obtain ⟨b', rfl, hb'⟩ := hleft hj
    rw [← hb, ← hb', hl]
  · have := hp.mem_iff.1 hi
    obtain ⟨b, hb, rfl⟩ := List.mem_map.1 this
    rw [freeRoot_iff, hch]
    exact ⟨(validNode_iff hwf _).2 ⟨_, (nodeAt_putLeaves c.ft c.tm _).1 b (mem_presentBytes.1 hb) rfl⟩,
      List.not_mem_nil⟩

/-! ### SDERIVE -/

/-- The walk of `SDERIVE` below a node completes: it gives the byte of each leaf below the node its path, and leaves the
other entries (R131). -/
theorem Forest.deriveWalk_ok {ft tm next} (h : Forest ft tm next) : ∀ i, validNode tm i = true →
    ∀ (n : Nat) (p : Path) (st : Memory Path), depthBound i ≤ n → Memory.wf Config.nsymMax st →
      ∃ st', deriveWalk tm (n + 1) i p st = .ok st' ∧ Memory.wf Config.nsymMax st' ∧
        ∀ b q, pathAt st' b = some q ↔ (∃ t, q = p ++ t ∧ leadsToLeaf tm i t b = true) ∨
          ((∀ t, leadsToLeaf tm i t b = false) ∧ pathAt st b = some q) := by
  refine h.induction (fun i sym w hi n p st _ hst => ?_) (fun i w l r hi ihl ihr n p st hn hst => ?_)
  · have hne : i ≠ Config.noNode := fun hc => by rw [hc, nodeAt_noNode h.wf] at hi; cases hi
    refine ⟨setPath st sym p, by rw [deriveWalk, if_neg hne, hi], setPath_wf hst _ _, fun b q => ?_⟩
    rw [pathAt_setPath]
    simp only [leadsToLeaf_leaf hi, ← Bool.not_eq_true, not_and]
    by_cases hb : b = sym
    · simp [hb, eq_comm]
    · simp [hb]
  · have hne : i ≠ Config.noNode := fun hc => by rw [hc, nodeAt_noNode h.wf] at hi; cases hi
    obtain ⟨k, h1, h2, h3⟩ := h.lt_depthBound hi
    obtain ⟨n, rfl⟩ : ∃ n', n = n' + 1 := ⟨n - 1, by omega⟩
    obtain ⟨st1, hw1, hwf1, hs1⟩ := ihl n (p ++ [.left]) st (by omega) hst
    obtain ⟨st2, hw2, hwf2, hs2⟩ := ihr n (p ++ [.right]) st1 (by omega) hwf1
    refine ⟨st2, ?_, hwf2, fun b q => ?_⟩
    · rw [deriveWalk, if_neg hne, hi]
      simp only [hw1, hw2]
    · rw [hs2, hs1]
      have hdis : ∀ {t t' : Path}, leadsToLeaf tm l t b = true → leadsToLeaf tm r t' b = true → False :=
        fun hl hr => h.subtrees_disjoint hi hl hr
      simp only [leadsToLeaf_node hi, ← Bool.not_eq_true, List.append_assoc, List.singleton_append]
      constructor
      · rintro (⟨t, rfl, ht⟩ | ⟨hr, ⟨t, rfl, ht⟩ | ⟨hl, hq⟩⟩)
        · exact .inl ⟨.right :: t, rfl, .right, t, rfl, ht⟩
        · exact .inl ⟨.left :: t, rfl, .left, t, rfl, ht⟩
        · refine .inr ⟨?_, hq⟩
          rintro t ⟨d, t', -, ht⟩
          cases d
          · exact hl t' ht
          · exact hr t' ht
      · rintro (⟨t, rfl, d, t', rfl, ht⟩ | ⟨hno, hq⟩)
        · cases d
          · exact .inr ⟨fun t ht' => hdis ht ht', .inl ⟨t', rfl, ht⟩⟩
          · exact .inl ⟨t', rfl, ht⟩
        · exact .inr ⟨fun t ht => hno (.right :: t) ⟨.right, t, rfl, ht⟩,
            .inr ⟨fun t ht => hno (.left :: t) ⟨.left, t, rfl, ht⟩, hq⟩⟩

/-- `SDERIVE` completes where the root is a node of the forest (R131). -/
theorem sderiveRule_ok {s : State} {ft next} (h : Forest ft s.core.tm next) (hr : validNode s.core.tm s.core.root = true) :
    ∃ st, sderiveRule s = .ok () (s.withCore { s.core with st := st, status := s.core.status.setStv }) ∧
      Memory.wf Config.nsymMax st ∧
      ∀ b p, pathAt st b = some p ↔ leadsToLeaf s.core.tm s.core.root p b = true := by
  have hd : depthBound s.core.root ≤ 255 := by
    have hlt := s.core.root.isLt
    have : s.core.root.toNat ≠ 511 := fun hc => by
      have : s.core.root = Config.noNode := BitVec.eq_of_toNat_eq hc
      obtain ⟨n, hn⟩ := (validNode_iff h.wf _).1 hr
      rw [this, nodeAt_noNode h.wf] at hn; cases hn
    unfold depthBound; omega
  obtain ⟨st, h1, h2, h3⟩ := h.deriveWalk_ok s.core.root hr 255 [] [] hd (by decide)
  refine ⟨st, ?_, h2, fun b p => ?_⟩
  · rw [sderiveRule, show Config.pathMax + 1 = 255 + 1 from rfl, h1]
  · rw [h3]; simp

end Sys2Proof.Machine
end

