-- ==== Sys2Proof/Laws/Serving.lean ====
section
/-! SUPPORT. What the loops over the streams do on a host that serves every request: bytes in, bytes out, bits in, bits
out. -/

namespace Sys2Proof.Machine

/-- The state after `n` served requests that left the source at `p` and the sink as `k`. -/
def State.moved (s : State) (n p : Nat) (k : List Byte) : State :=
  ((s.withReplies (s.host.replies.drop n)).withPos p).withSnk k

@[simp] theorem State.moved_core (s : State) (n p : Nat) (k : List Byte) : (s.moved n p k).core = s.core := rfl
@[simp] theorem State.moved_src (s : State) (n p : Nat) (k : List Byte) : (s.moved n p k).host.src = s.host.src := rfl
@[simp] theorem State.moved_pos (s : State) (n p : Nat) (k : List Byte) : (s.moved n p k).host.pos = p := rfl
@[simp] theorem State.moved_snk (s : State) (n p : Nat) (k : List Byte) : (s.moved n p k).host.snk = k := rfl
@[simp] theorem State.moved_replies (s : State) (n p : Nat) (k : List Byte) :
    (s.moved n p k).host.replies = s.host.replies.drop n := rfl
@[simp] theorem State.moved_answers (s : State) (n p : Nat) (k : List Byte) :
    (s.moved n p k).host.answers = s.host.answers := rfl
@[simp] theorem State.moved_moved (s : State) (n p n' p' : Nat) (k k' : List Byte) :
    (s.moved n p k).moved n' p' k' = s.moved (n + n') p' k' := by
  simp [State.moved, State.withReplies, State.withPos, State.withSnk]
@[simp] theorem State.moved_withCore (s : State) (n p : Nat) (k : List Byte) (c : CoreState) :
    (s.moved n p k).withCore c = (s.withCore c).moved n p k := rfl
@[simp] theorem State.moved_zero (s : State) : s.moved 0 s.host.pos s.host.snk = s := rfl
@[simp] theorem State.withCore_withCore (s : State) (c c' : CoreState) : (s.withCore c).withCore c' = s.withCore c' := rfl
@[simp] theorem State.withCore_self (s : State) : s.withCore s.core = s := rfl

theorem Serving.moved {s : State} (h : Serving s) (n p : Nat) (k : List Byte) : Serving (s.moved n p k) :=
  h.of_suffix n rfl

theorem Serving.withCore {s : State} (h : Serving s) (c : CoreState) : Serving (s.withCore c) := h

/-- The bytes of the source from its position on. -/
def State.rest (s : State) : List Byte := s.host.src.drop s.host.pos

/-- The state after `n` bytes were read. -/
def State.took (s : State) (n : Nat) : State := s.moved n (s.host.pos + n) s.host.snk

/-- The state with another frequency table. -/
def State.withFt (s : State) (ft : Memory Count) : State := s.withCore { s.core with ft := ft }

@[simp] theorem State.took_core (s : State) (n : Nat) : (s.took n).core = s.core := rfl
@[simp] theorem State.took_pos (s : State) (n : Nat) : (s.took n).host.pos = s.host.pos + n := rfl
@[simp] theorem State.took_snk (s : State) (n : Nat) : (s.took n).host.snk = s.host.snk := rfl
@[simp] theorem State.took_src (s : State) (n : Nat) : (s.took n).host.src = s.host.src := rfl
@[simp] theorem State.took_replies (s : State) (n : Nat) : (s.took n).host.replies = s.host.replies.drop n := rfl
@[simp] theorem State.took_zero (s : State) : s.took 0 = s := rfl
@[simp] theorem State.took_took (s : State) (n m : Nat) : (s.took n).took m = s.took (n + m) := by
  simp [State.took, Nat.add_assoc]
@[simp] theorem State.took_rest (s : State) (n : Nat) : (s.took n).rest = s.rest.drop n := by
  simp [State.rest]
@[simp] theorem State.withFt_ft (s : State) (ft : Memory Count) : (s.withFt ft).core.ft = ft := rfl
@[simp] theorem State.withFt_rest (s : State) (ft : Memory Count) : (s.withFt ft).rest = s.rest := rfl
@[simp] theorem State.withFt_host (s : State) (ft : Memory Count) : (s.withFt ft).host = s.host := rfl
@[simp] theorem State.withFt_withFt (s : State) (ft ft' : Memory Count) : (s.withFt ft).withFt ft' = s.withFt ft' := rfl
@[simp] theorem State.withFt_self (s : State) : s.withFt s.core.ft = s := rfl
@[simp] theorem State.took_withFt (s : State) (n : Nat) (ft : Memory Count) :
    (s.took n).withFt ft = (s.withFt ft).took n := rfl

theorem Serving.took {s : State} (h : Serving s) (n : Nat) : Serving (s.took n) := h.moved _ _ _
theorem Serving.withFt {s : State} (h : Serving s) (ft : Memory Count) : Serving (s.withFt ft) := h

theorem rest_cons {s : State} {v : Byte} {vs : List Byte} (h : s.rest = v :: vs) :
    s.host.src[s.host.pos]? = some v := by
  have := congrArg List.head? h
  rwa [State.rest, List.head?_drop] at this

theorem rest_nil {s : State} (h : s.rest = []) : s.host.src[s.host.pos]? = none := by
  rw [State.rest, List.drop_eq_nil_iff] at h
  exact List.getElem?_eq_none h

/-- `SrcRead` of a byte. -/
theorem srcRead_cons {s : State} (h : Serving s) {v : Byte} {vs : List Byte} (hv : s.rest = v :: vs) :
    srcRead s = .ok (some v) (s.took 1) := by
  rw [srcRead_serving h, rest_cons hv]
  simp [State.took, State.moved, State.dropReply, State.withReplies, State.withPos, State.withSnk]

/-- `SrcRead` at the end. -/
theorem srcRead_nil {s : State} (h : Serving s) (hv : s.rest = []) :
    srcRead s = .ok none (s.moved 1 s.host.pos s.host.snk) := by
  rw [srcRead_serving h, rest_nil hv]
  simp [State.moved, State.dropReply, State.withReplies, State.withPos, State.withSnk]

theorem snkWrite_moved {s : State} (h : Serving s) (v : Byte) :
    snkWrite v s = .ok () (s.moved 1 s.host.pos (s.host.snk ++ [v])) := by
  rw [snkWrite_serving h]
  simp [State.moved, State.dropReply, State.withReplies, State.withPos, State.withSnk]

theorem srcRewind_moved {s : State} (h : Serving s) : srcRewind s = .ok () (s.moved 1 0 s.host.snk) := by
  rw [srcRewind_serving h]
  simp [State.moved, State.dropReply, State.withReplies, State.withPos, State.withSnk]

/-- Writing bytes appends them (R61). -/
theorem snkWriteAll_moved (vs : List Byte) : ∀ {s : State}, Serving s →
    snkWriteAll vs s = .ok () (s.moved vs.length s.host.pos (s.host.snk ++ vs)) := by
  induction vs with
  | nil => intro s _; simp [snkWriteAll]
  | cons v vs ih =>
    intro s h
    rw [snkWriteAll, snkWrite_moved h, Res.andThen_ok, ih (h.moved _ _ _)]
    simp [Nat.add_comm]

/-- Bytes written by a sequence of writes that ends with a value, whatever the host does besides. -/
theorem snkWriteAll_ok_snk (vs : List Byte) : ∀ {s t : State}, snkWriteAll vs s = .ok () t →
    t.host.snk = s.host.snk ++ vs := by
  induction vs with
  | nil => rintro s t ⟨⟩; simp
  | cons v vs ih =>
    intro s t h
    rw [snkWriteAll] at h
    obtain ⟨_, u, hu, h⟩ := Res.andThen_eq_ok.1 h
    obtain ⟨-, rfl⟩ := snkWrite_eq_ok.1 hu
    rw [ih h]; simp

/-! ### The frequency table -/

/-- A byte counted below its limit (R91). -/
theorem countByte_ok {s : State} {b : Byte} (h : (countAt s.core.ft b).toNat + 1 < 2 ^ 64) :
    ∃ ft, countByte b s = .ok () (s.withFt ft) ∧ (countsWf s.core.ft → countsWf ft) ∧
      ∀ x, (countAt ft x).toNat = (countAt s.core.ft x).toNat + if x = b then 1 else 0 := by
  have hne : countAt s.core.ft b ≠ BitVec.allOnes 64 := fun hc => by
    rw [hc] at h; simp at h
  refine ⟨setCount s.core.ft b (countAt s.core.ft b + 1#64), by rw [countByte]; exact if_neg hne,
    fun hw => setCount_wf hw _ _, fun x => ?_⟩
  rw [countAt_setCount]
  split_ifs with hx
  · rw [hx, BitVec.toNat_add, show (1#64).toNat = 1 from rfl, Nat.mod_eq_of_lt h]
  · rfl

/-- Counting bytes none of which reaches the limit (R91, R92). -/
theorem fscanLoop_took (bs : List Byte) : ∀ (n : Nat) {s : State} (post : List Byte), Serving s → s.rest = bs ++ post →
    (∀ b, (countAt s.core.ft b).toNat + bs.count b < 2 ^ 64) →
    ∃ ft, fscanLoop (bs.length + n) s = fscanLoop n ((s.withFt ft).took bs.length) ∧
      (∀ b, (countAt ft b).toNat = (countAt s.core.ft b).toNat + bs.count b) ∧
      (countsWf s.core.ft → countsWf ft) := by
  induction bs with
  | nil =>
    intro n s post h hr _
    exact ⟨s.core.ft, by simp, by simp, id⟩
  | cons b bs ih =>
    intro n s post h hr hc
    obtain ⟨ft1, h1, h2, h3⟩ := countByte_ok (s := s.took 1) (b := b) (by
      have := hc b
      rw [List.count_cons_self] at this; simp only [State.took_core]; omega)
    have hcnt : ∀ x, (countAt ft1 x).toNat + bs.count x = (countAt s.core.ft x).toNat + (b :: bs).count x :=
      fun x => by
        rw [h3, List.count_cons]
        by_cases hx : x = b
        · subst hx; simp; omega
        · have : ¬ b = x := fun hc => hx hc.symm
          simp [hx, this]
    obtain ⟨ft, e1, e2, e3⟩ := ih n (s := (s.withFt ft1).took 1) post (h.took 1) (by simp [hr])
      (fun x => (hcnt x).trans_lt (hc x))
    refine ⟨ft, ?_, fun x => (e2 x).trans (hcnt x), fun hw => e3 (h2 hw)⟩
    rw [List.length_cons, show bs.length + 1 + n = (bs.length + n) + 1 by omega, fscanLoop,
      srcRead_cons h hr, Res.andThen_ok]
    simp only [h1, Res.andThen_ok, State.took_withFt]
    rw [e1]
    simp [Nat.add_comm]

theorem unread_eq (s : State) : s.unread = s.rest.length := by
  rw [State.unread, State.rest, List.length_drop]

/-- `FSCAN` of a source none of whose counts reaches the limit (R91). -/
theorem fscanRule_moved {s : State} (h : Serving s)
    (hc : ∀ b, (countAt s.core.ft b).toNat + s.rest.count b < 2 ^ 64) :
    ∃ ft, fscanRule s = .ok () ((s.withFt ft).moved (s.rest.length + 1) (s.host.pos + s.rest.length) s.host.snk) ∧
      (∀ b, (countAt ft b).toNat = (countAt s.core.ft b).toNat + s.rest.count b) ∧
      (countsWf s.core.ft → countsWf ft) := by
  obtain ⟨ft, e1, e2, e3⟩ := fscanLoop_took s.rest 1 [] h (by simp) hc
  refine ⟨ft, ?_, e2, e3⟩
  rw [fscanRule, unread_eq, e1, fscanLoop, srcRead_nil ((h.withFt ft).took _) (by simp)]
  simp [State.took]

/-! ### The header -/

theorem headerGet_cons (n : Nat) {s : State} (h : Serving s) {v : Byte} {vs : List Byte} (hv : s.rest = v :: vs) :
    headerGet n s = .ok v (s.took 1) := by
  rw [headerGet, srcRead_cons h hv]; rfl

theorem headerGet_nil (n : Nat) {s : State} (h : Serving s) (hv : s.rest = []) :
    headerGet n s = .raised .truncatedHeader (BitVec.ofNat 32 n) (s.moved 1 s.host.pos s.host.snk) := by
  rw [headerGet, srcRead_nil h hv]; rfl

/-- Bytes read into a count, most significant first (R50). -/
def pushBytes (c : Count) (vs : List Byte) : Count := vs.foldl (fun c v => (c <<< 8) ||| v.setWidth 64) c

theorem pushBytes_countBytes (c : Count) : pushBytes 0#64 (countBytes c) = c := by
  apply BitVec.eq_of_getLsbD_eq
  intro i hi
  simp only [pushBytes, countBytes, List.foldl_cons, List.foldl_nil, BitVec.getLsbD_or, BitVec.getLsbD_shiftLeft,
    BitVec.getLsbD_setWidth, BitVec.getLsbD_extractLsb', BitVec.getLsbD_zero]
  obtain ⟨j, k, rfl, hk, hj⟩ : ∃ j k, i = 8 * j + k ∧ k < 8 ∧ j < 8 := ⟨i / 8, i % 8, by omega, by omega, by omega⟩
  interval_cases j <;> simp <;> interval_cases k <;> simp

/-- The bytes of a count, read one after another (R162). -/
theorem headerCount_took (vs : List Byte) : ∀ (n : Nat) (c : Count) {s : State} (post : List Byte), Serving s →
    s.rest = vs ++ post → headerCount vs.length n c s = .ok (pushBytes c vs) (s.took vs.length) := by
  induction vs with
  | nil => intro n c s post _ _; rfl
  | cons v vs ih =>
    intro n c s post h hr
    rw [List.length_cons, headerCount, headerGet_cons n h hr, Res.andThen_ok,
      ih (n + 1) _ (s := s.took 1) post (h.took 1) (by simp [hr])]
    simp [pushBytes, Nat.add_comm]

/-- A source that ends inside a count (R197): the bytes read before its end are reported. -/
theorem headerCount_short (vs : List Byte) : ∀ (k n : Nat) (c : Count) {s : State}, Serving s → s.rest = vs →
    vs.length < k → headerCount k n c s = .raised .truncatedHeader (BitVec.ofNat 32 (n + vs.length))
      ((s.took vs.length).moved 1 (s.host.pos + vs.length) s.host.snk) := by
  induction vs with
  | nil =>
    intro k n c s h hr hk
    obtain ⟨k, rfl⟩ : ∃ k', k = k' + 1 := ⟨k - 1, by simp at hk; omega⟩
    rw [headerCount, headerGet_nil n h hr]; rfl
  | cons v vs ih =>
    intro k n c s h hr hk
    obtain ⟨k, rfl⟩ : ∃ k', k = k' + 1 := ⟨k - 1, by simp at hk; omega⟩
    rw [headerCount, headerGet_cons n h hr, Res.andThen_ok,
      ih k (n + 1) _ (s := s.took 1) (h.took 1) (by simp [hr]) (by simp at hk; omega)]
    rw [List.length_cons, show n + (vs.length + 1) = n + 1 + vs.length by omega]
    simp [show 1 + vs.length = vs.length + 1 by omega, show s.host.pos + 1 + vs.length = s.host.pos + (vs.length + 1) by omega]

theorem countBytes_length (c : Count) : (countBytes c).length = Config.cntBytes := rfl

/-- The table after good entries: each entry's count, the other bytes as before. -/
def putCounts (ft : Memory Count) (es : List (Byte × Count)) : Memory Count :=
  es.foldl (fun ft e => setCount ft e.1 e.2) ft

theorem countAt_putCounts (es : List (Byte × Count)) : ∀ (ft : Memory Count), (es.map Prod.fst).Nodup →
    (∀ e ∈ es, countAt (putCounts ft es) e.1 = e.2) ∧
    ∀ b, (∀ e ∈ es, e.1 ≠ b) → countAt (putCounts ft es) b = countAt ft b := by
  induction es with
  | nil => intro ft _; exact ⟨fun e he => absurd he List.not_mem_nil, fun _ _ => rfl⟩
  | cons e es ih =>
    intro ft hn
    rw [List.map_cons, List.nodup_cons] at hn
    obtain ⟨h1, h2⟩ := ih (setCount ft e.1 e.2) hn.2
    refine ⟨fun x hx => ?_, fun b hb => ?_⟩
    · rcases List.mem_cons.1 hx with rfl | hx
      · refine (h2 _ fun y hy hc => hn.1 (by rw [← hc]; exact List.mem_map_of_mem hy)).trans ?_
        rw [countAt_setCount, if_pos rfl]
      · exact h1 x hx
    · refine (h2 b fun y hy => hb y (List.mem_cons_of_mem _ hy)).trans ?_
      rw [countAt_setCount, if_neg fun hc => hb e List.mem_cons_self hc.symm]

theorem putCounts_wf (es : List (Byte × Count)) : ∀ {ft : Memory Count}, countsWf ft → countsWf (putCounts ft es) := by
  induction es with
  | nil => intro ft h; exact h
  | cons e es ih => intro ft h; exact ih (setCount_wf h _ _)

/-- An ascending list of entries, above the byte before the first (R162). -/
def Ascending (prev : Option Byte) (es : List (Byte × Count)) : Prop :=
  es.Pairwise (fun e e' => e.1.toNat < e'.1.toNat) ∧ (∀ e ∈ es, e.2 ≠ 0#64) ∧
  ∀ p, prev = some p → ∀ e ∈ es, p.toNat < e.1.toNat

/-- The byte before the next entry. -/
def lastByte (prev : Option Byte) (es : List (Byte × Count)) : Option Byte :=
  match es.getLast? with
  | none => prev
  | some e => some e.1

theorem notAscending_false {prev : Option Byte} {v : Byte} : notAscending prev v = false ↔
    ∀ p, prev = some p → p.toNat < v.toNat := by
  cases prev <;> simp [notAscending, BitVec.ule]

theorem Ascending.tail {prev : Option Byte} {e : Byte × Count} {es : List (Byte × Count)}
    (h : Ascending prev (e :: es)) : Ascending (some e.1) es := by
  obtain ⟨h1, h2, h3⟩ := h
  obtain ⟨h4, h5⟩ := List.pairwise_cons.1 h1
  refine ⟨h5, fun x hx => h2 x (List.mem_cons_of_mem _ hx), ?_⟩
  rintro p ⟨⟩ x hx
  exact h4 x hx

/-- Good entries are read and stored (R162). -/
theorem headerEntries_took (es : List (Byte × Count)) : ∀ (k i : Nat) (prev : Option Byte) {s : State} (post : List Byte),
    Serving s → Ascending prev es → s.rest = entriesBytes es ++ post →
    headerEntries (es.length + k) i prev s =
      headerEntries k (i + es.length) (lastByte prev es)
        ((s.withFt (putCounts s.core.ft es)).took (9 * es.length)) := by
  induction es with
  | nil => intro k i prev s post _ _ _; simp [lastByte, putCounts]
  | cons e es ih =>
    intro k i prev s post h ha hr
    have hr' : s.rest = e.1 :: (countBytes e.2 ++ (entriesBytes es ++ post)) := by
      rw [hr]; simp [entriesBytes]
    have hc := headerCount_took (countBytes e.2) (2 + 9 * i) 0#64 (s := s.took 1) (entriesBytes es ++ post)
      (h.took 1) (by simp [hr'])
    rw [countBytes_length, pushBytes_countBytes] at hc
    have hna : notAscending prev e.1 = false :=
      notAscending_false.2 fun p hp => ha.2.2 p hp e List.mem_cons_self
    have hn0 : e.2 ≠ 0#64 := ha.2.1 e List.mem_cons_self
    rw [List.length_cons, show es.length + 1 + k = (es.length + k) + 1 by omega, headerEntries,
      headerGet_cons _ h hr', Res.andThen_ok, hc, Res.andThen_ok, hna, if_neg (by decide), if_neg hn0]
    have hs : ((s.took 1).took Config.cntBytes).withCore { ((s.took 1).took Config.cntBytes).core with
        ft := setCount ((s.took 1).took Config.cntBytes).core.ft e.1 e.2 } =
        (s.withFt (setCount s.core.ft e.1 e.2)).took 9 := by
      rw [State.took_took]; rfl
    rw [hs, ih k (i + 1) (some e.1) (s := (s.withFt (setCount s.core.ft e.1 e.2)).took 9) post (h.took 9) ha.tail (by
      have : (countBytes e.2).length = 8 := rfl
      simp [hr', this])]
    have hl : lastByte (some e.1) es = lastByte prev (e :: es) := by
      cases es with
      | nil => rfl
      | cons x es => rw [lastByte, lastByte, List.getLast?_cons_cons, List.getLast?_eq_some_getLast (List.cons_ne_nil x es)]
    rw [hl]
    simp only [State.took_withFt, State.withFt_withFt, State.took_took, State.took_core, State.withFt_ft]
    rw [show 9 + 9 * es.length = 9 * (es.length + 1) by omega, show i + 1 + es.length = i + (es.length + 1) by omega]
    rfl

end Sys2Proof.Machine
end

