-- ==== Sys2Proof/Laws/Bits.lean ====
section
/-! SUPPORT. The bit streams of the writer and the reader (R54, R145, R152) on a host that serves every request. -/

namespace Sys2Proof.Machine

/-! ### Bits of an accumulator -/

theorem heldBits_zero (acc : Byte) : heldBits acc 0#3 = [] := rfl

theorem heldBits_length (acc : Byte) (cnt : BitVec 3) : (heldBits acc cnt).length = cnt.toNat := by simp [heldBits]

theorem byteBits_length (v : Byte) : (byteBits v).length = 8 := by simp [byteBits]

theorem flatMap_byteBits_length (vs : List Byte) : (vs.flatMap byteBits).length = 8 * vs.length := by
  induction vs with
  | nil => rfl
  | cons v vs ih => rw [List.flatMap_cons, List.length_append, byteBits_length, ih, List.length_cons]; omega

/-- No bit is set at or above the count (R24 item 7). -/
theorem highBitsZero_iff {acc : Byte} {cnt : BitVec 3} :
    HighBitsZero acc cnt ↔ ∀ k, cnt.toNat ≤ k → acc.getLsbD k = false := by
  constructor
  · intro h k hk
    have := congrArg (·.getLsbD (k - cnt.toNat)) h
    simpa [Nat.add_sub_of_le hk] using this
  · intro h
    apply BitVec.eq_of_getLsbD_eq
    intro i _
    simp [h]

theorem pushBit_getLsbD (acc : Byte) (cnt : BitVec 3) (d : Decision) (k : Nat) :
    (pushBit acc cnt d).getLsbD k = (acc.getLsbD k || (d.bit && decide (k = cnt.toNat))) := by
  have : cnt.toNat < 8 := cnt.isLt
  cases d
  · simp only [pushBit, Decision.bit]
    by_cases h : k = cnt.toNat
    · subst h; simp [this]
    · simp [h]; intro h1 h2 h3; omega
  · simp [pushBit, Decision.bit]

theorem heldBits_succ (acc : Byte) (cnt : BitVec 3) (h : cnt ≠ 7#3) :
    heldBits acc (cnt + 1#3) = heldBits acc cnt ++ [acc.getLsbD cnt.toNat] := by
  have h1 : (cnt + 1#3).toNat = cnt.toNat + 1 := by
    have : cnt.toNat ≠ 7 := fun hc => h (BitVec.eq_of_toNat_eq hc)
    have := cnt.isLt
    simp; omega
  rw [heldBits, h1, List.range_succ, List.map_append]; rfl

/-- A decision pushed below the eighth place (R141). -/
theorem push_held {acc : Byte} {cnt : BitVec 3} (hz : HighBitsZero acc cnt) (h : cnt ≠ 7#3) (d : Decision) :
    heldBits (pushBit acc cnt d) (cnt + 1#3) = heldBits acc cnt ++ [d.bit] ∧
      HighBitsZero (pushBit acc cnt d) (cnt + 1#3) := by
  have hz' := highBitsZero_iff.1 hz
  have h1 : (cnt + 1#3).toNat = cnt.toNat + 1 := by
    have : cnt.toNat ≠ 7 := fun hc => h (BitVec.eq_of_toNat_eq hc)
    have := cnt.isLt
    simp; omega
  constructor
  · rw [heldBits_succ _ _ h, pushBit_getLsbD, hz' _ le_rfl]
    simp only [heldBits]
    congr 1
    · apply List.map_congr_left
      intro k hk
      rw [pushBit_getLsbD]; simp at hk; simp [hk.ne]
    · simp
  · rw [highBitsZero_iff]
    intro k hk
    rw [pushBit_getLsbD, hz' k (by omega)]; simp; intro _; omega

theorem byteBits_eq (v : Byte) : byteBits v = heldBits v 7#3 ++ [v.getLsbD 7] := rfl

/-- A decision pushed at the eighth place completes the byte (R141). -/
theorem push_full {acc : Byte} (hz : HighBitsZero acc 7#3) (d : Decision) :
    byteBits (pushBit acc 7#3 d) = heldBits acc 7#3 ++ [d.bit] := by
  rw [byteBits_eq, pushBit_getLsbD, highBitsZero_iff.1 hz 7 le_rfl]
  simp only [heldBits]
  congr 1
  · apply List.map_congr_left
    intro k hk
    rw [pushBit_getLsbD]; simp at hk; simp [hk.ne]
  · simp

/-- The pending bits with zeros above them are the byte emitted by the flush (R143). -/
theorem flush_bits {acc : Byte} {cnt : BitVec 3} (hz : HighBitsZero acc cnt) (h : cnt ≠ 0#3) :
    byteBits acc = heldBits acc cnt ++ List.replicate ((8 - cnt.toNat) % 8) false := by
  have hz' := highBitsZero_iff.1 hz
  have hlt := cnt.isLt
  have h0 : cnt.toNat ≠ 0 := fun hc => h (BitVec.eq_of_toNat_eq hc)
  rw [Nat.mod_eq_of_lt (by omega)]
  apply List.ext_getElem
  · simp [byteBits, heldBits]; omega
  · intro i h1 h2
    by_cases hi : i < cnt.toNat
    · rw [List.getElem_append_left (by simpa [heldBits] using hi)]; simp [byteBits, heldBits]
    · rw [List.getElem_append_right (by simpa [heldBits] using hi)]; simp [byteBits]
      exact hz' i (by omega)

/-- A held bit taken (R152). -/
theorem take_held (acc : Byte) {cnt : BitVec 3} (h : cnt ≠ 0#3) :
    heldBits acc cnt = acc.getLsbD 0 :: heldBits (acc >>> 1) (cnt - 1#3) := by
  obtain ⟨n, hn⟩ : ∃ n, cnt.toNat = n + 1 := ⟨cnt.toNat - 1, by
    have : cnt.toNat ≠ 0 := fun hc => h (BitVec.eq_of_toNat_eq hc)
    omega⟩
  have h1 : (cnt - 1#3).toNat = n := by
    have := cnt.isLt
    simp [BitVec.toNat_sub]; omega
  rw [heldBits, heldBits, h1, hn, List.range_succ_eq_map]
  simp [Nat.add_comm]

/-- The first bit of a fresh byte taken (R152). -/
theorem take_fresh (v : Byte) : byteBits v = v.getLsbD 0 :: heldBits (v >>> 1) 7#3 := by
  rw [byteBits, heldBits, List.range_succ_eq_map]
  simp [Nat.add_comm]

/-- What is held after a bit was taken has no bit set above its count (R24 item 7). -/
theorem take_high {acc : Byte} {cnt : BitVec 3} (h : cnt ≠ 0#3) (hz : HighBitsZero acc cnt) :
    HighBitsZero (acc >>> 1) (cnt - 1#3) := by
  have hz' := highBitsZero_iff.1 hz
  rw [highBitsZero_iff]
  intro k hk
  have h1 : (cnt - 1#3).toNat = cnt.toNat - 1 := by
    have := cnt.isLt
    have : cnt.toNat ≠ 0 := fun hc => h (BitVec.eq_of_toNat_eq hc)
    simp [BitVec.toNat_sub]; omega
  simpa [Nat.add_comm] using hz' (k + 1) (by omega)

theorem fresh_high (v : Byte) : HighBitsZero (v >>> 1) 7#3 := by
  rw [highBitsZero_iff]
  intro k hk
  simp
  apply BitVec.getLsbD_of_ge; simp at hk; omega

theorem highBits_zero_acc {acc : Byte} (h : HighBitsZero acc 0#3) : acc = 0#8 := by
  apply BitVec.eq_of_getLsbD_eq
  intro i _
  simp [highBitsZero_iff.1 h i (Nat.zero_le _)]

/-! ### The writer -/

/-- `WBIT` on a host that serves (R141). -/
theorem wbitRule_bits {s : State} (h : Serving s) (hz : HighBitsZero s.core.wacc s.core.wcnt) (d : Decision) :
    ∃ t, wbitRule d s = .ok () t ∧ HighBitsZero t.core.wacc t.core.wcnt ∧ writtenBits t = writtenBits s ++ [d.bit] := by
  by_cases h7 : s.core.wcnt = 7#3
  · rw [h7] at hz
    have hb := push_full hz d
    refine ⟨_, by
      rw [wbitRule, if_pos h7, snkWrite_moved (h.withCore _), Res.andThen_ok],
      show HighBitsZero 0#8 0#3 by decide, ?_⟩
    rw [writtenBits, writtenBits]
    simp [hb, h7, heldBits_zero]
  · obtain ⟨hb, hh⟩ := push_held hz h7 d
    refine ⟨_, by rw [wbitRule, if_neg h7], hh, ?_⟩
    rw [writtenBits, writtenBits]
    simpa using hb

theorem Serving.of_sinkMoved {s t : State} (h : Serving s) (hm : SinkMoved s t) : Serving t :=
  fun r hr => h r (hm.replies.subset hr)

theorem Serving.of_sourceMoved {s t : State} (h : Serving s) (hm : SourceMoved s t) : Serving t :=
  fun r hr => h r (hm.replies.subset hr)

theorem Res.Ends.of_ok {α : Type} {P : State → Prop} {r : Res α} {a : α} {t : State} (h : r.Ends P) (hr : r = .ok a t) :
    P t := by rw [hr] at h; exact h

/-- The bits of a codeword appended (R142). -/
theorem writePath_bits (p : Path) : ∀ {s : State}, Serving s → HighBitsZero s.core.wacc s.core.wcnt →
    ∃ t, writePath p s = .ok () t ∧ HighBitsZero t.core.wacc t.core.wcnt ∧
      writtenBits t = writtenBits s ++ pathBools p := by
  induction p with
  | nil => intro s _ hz; exact ⟨s, rfl, hz, by simp [pathBools]⟩
  | cons d p ih =>
    intro s h hz
    obtain ⟨u, hu, hzu, hbu⟩ := wbitRule_bits h hz d
    obtain ⟨t, ht, hzt, hbt⟩ := ih (h.of_sinkMoved ((wbitRule_frame d s).of_ok hu).1) hzu
    refine ⟨t, by rw [writePath, hu, Res.andThen_ok, ht], hzt, ?_⟩
    rw [hbt, hbu]; simp [pathBools]

theorem wsymRule_bits {s : State} (h : Serving s) (hz : HighBitsZero s.core.wacc s.core.wcnt) {sym : Byte} {p : Path}
    (hp : pathAt s.core.st sym = some p) :
    ∃ t, wsymRule sym s = .ok () t ∧ HighBitsZero t.core.wacc t.core.wcnt ∧
      writtenBits t = writtenBits s ++ pathBools p := by
  rw [wsymRule, hp]; exact writePath_bits p h hz

/-- The flush pads what is pending to a whole byte (R143, R54). -/
theorem wflushRule_bits {s : State} (h : Serving s) (hz : HighBitsZero s.core.wacc s.core.wcnt) :
    ∃ t, wflushRule s = .ok () t ∧ t.core.wacc = 0#8 ∧ t.core.wcnt = 0#3 ∧
      t.host.snk.flatMap byteBits = writtenBits s ++ List.replicate ((8 - s.core.wcnt.toNat) % 8) false := by
  by_cases h0 : s.core.wcnt = 0#3
  · refine ⟨s, by rw [wflushRule, if_pos h0], highBits_zero_acc (h0 ▸ hz), h0, ?_⟩
    rw [writtenBits, h0, heldBits_zero]; simp
  · refine ⟨_, by rw [wflushRule, if_neg h0, snkWrite_moved h, Res.andThen_ok], rfl, rfl, ?_⟩
    rw [writtenBits]
    simp [flush_bits hz h0]

/-! ### The reader -/

theorem unreadBits_length (s : State) : (unreadBits s).length = s.bitsLeft := by
  rw [unreadBits, List.length_append, heldBits_length, flatMap_byteBits_length, State.bitsLeft, unread_eq]; rfl

/-- A payload bit taken (R152). -/
theorem readBit_cons {s : State} (h : Serving s) {b : Bool} {bs : List Bool} (hb : unreadBits s = b :: bs) :
    ∃ t, readBit s = .ok b t ∧ unreadBits t = bs := by
  by_cases h0 : s.core.rcnt = 0#3
  · rw [unreadBits, h0, heldBits_zero, List.nil_append] at hb
    match hr : s.rest with
    | [] =>
      rw [show s.host.src.drop s.host.pos = [] from hr] at hb
      simp at hb
    | v :: vs =>
      rw [show s.host.src.drop s.host.pos = v :: vs from hr, List.flatMap_cons, take_fresh, List.cons_append] at hb
      injection hb with h1 h2
      refine ⟨_, by rw [readBit, if_pos h0, srcRead_cons h hr, Res.andThen_ok]; simp only [h1]; rfl, ?_⟩
      have hd : s.host.src.drop (s.host.pos + 1) = vs := by
        rw [← List.tail_drop, show s.host.src.drop s.host.pos = v :: vs from hr]; rfl
      rw [← h2, unreadBits]
      simp [hd]
  · rw [unreadBits, take_held _ h0, List.cons_append] at hb
    injection hb with h1 h2
    refine ⟨_, by rw [readBit, if_neg h0, h1], ?_⟩
    rw [unreadBits]; exact h2

/-- No payload bit left: `TruncatedPayloadError` (R198). -/
theorem readBit_nil {s : State} (h : Serving s) (hb : unreadBits s = []) :
    readBit s = .raised .truncatedPayload 0#32 (s.moved 1 s.host.pos s.host.snk) ∧
    unreadBits (s.moved 1 s.host.pos s.host.snk) = [] := by
  refine ⟨?_, hb⟩
  have hl := unreadBits_length s
  rw [hb] at hl
  have h0 : s.core.rcnt = 0#3 := by
    apply BitVec.eq_of_toNat_eq
    have : s.core.rcnt.toNat + 8 * s.unread = 0 := hl.symm
    change s.core.rcnt.toNat = 0
    omega
  have hr : s.rest = [] := by
    rw [← List.length_eq_zero_iff, ← unread_eq]
    have : s.core.rcnt.toNat + 8 * s.unread = 0 := hl.symm
    omega
  rw [readBit, if_pos h0, srcRead_nil h hr]; rfl

theorem follow_cons {tm : Memory Node} {i l r : NodeIdx} {w : Weight} (hn : nodeAt tm i = some (.internal w l r))
    (d : Decision) (p : Path) : follow tm i (d :: p) = follow tm (pick d l r) p := by
  rw [follow, hn]; cases d <;> rfl

/-- A turn of the walk at an internal node. -/
theorem walkBits_internal {s u : State} {i l r : NodeIdx} {w : Weight} {d : Decision} (n : Nat)
    (hne : i ≠ Config.noNode) (hn : nodeAt s.core.tm i = some (.internal w l r)) (hr : readBit s = .ok d.bit u) :
    walkBits (n + 1) i s = walkBits n (pick d l r) u := by
  rw [walkBits, if_neg hne, hn]; simp only [hr, Res.andThen_ok]; cases d <;> rfl

/-- The bits of a path walk it (R152). -/
theorem walkBits_follow (p : Path) : ∀ (n : Nat) (i j : NodeIdx) (rest : List Bool) {s : State}, Serving s →
    Memory.wf Config.nodeMax s.core.tm → follow s.core.tm i p = some j → unreadBits s = pathBools p ++ rest →
    ∃ t, walkBits (n + p.length) i s = walkBits n j t ∧ unreadBits t = rest ∧ SourceMoved s t ∧
      t.core = { s.core with racc := t.core.racc, rcnt := t.core.rcnt } := by
  induction p with
  | nil =>
    rintro n i j rest s _ _ ⟨⟩ hu
    exact ⟨s, rfl, by simpa [pathBools] using hu, .of_host_eq rfl, rfl⟩
  | cons d p ih =>
    intro n i j rest s h hwf hf hu
    have hne : i ≠ Config.noNode := by
      rintro rfl
      rw [follow, nodeAt_noNode hwf] at hf; cases hf
    match hn : nodeAt s.core.tm i with
    | none => rw [follow, hn] at hf; cases hf
    | some (.leaf sym w) => rw [follow, hn] at hf; cases hf
    | some (.internal w l r) =>
      rw [follow_cons hn] at hf
      have hu' : unreadBits s = d.bit :: (pathBools p ++ rest) := by rw [hu]; simp [pathBools]
      obtain ⟨u, hr, hub⟩ := readBit_cons h hu'
      obtain ⟨hm, hc⟩ := (readBit_frame s).of_ok hr
      have htm : u.core.tm = s.core.tm := by rw [hc]
      obtain ⟨t, e1, e2, e3, e4⟩ := ih n (pick d l r) j rest
        (h.of_sourceMoved hm) (by rw [htm]; exact hwf) (by rw [htm]; exact hf) hub
      refine ⟨t, ?_, e2, hm.trans e3, by rw [e4, hc]⟩
      rw [List.length_cons, ← Nat.add_assoc, walkBits_internal _ hne hn hr, e1]

/-- A codeword decodes to its symbol (R152). -/
theorem rnextRule_symbol {s : State} (h : Serving s) (hwf : Memory.wf Config.nodeMax s.core.tm)
    (h0 : s.core.rrem ≠ 0#72) {p : Path} {b : Byte} {rest : List Bool}
    (hl : leadsToLeaf s.core.tm s.core.root p b = true) (hu : unreadBits s = pathBools p ++ rest) :
    ∃ t, rnextRule s = .ok () t ∧ unreadBits t = rest ∧ SourceMoved s t ∧
      t.core = { s.core with
        racc := t.core.racc, rcnt := t.core.rcnt, outb := b, rrem := s.core.rrem - 1#72
        status := s.core.status.setOutv } := by
  obtain ⟨j, w, hj, hn⟩ := leadsToLeaf_iff.1 hl
  have hlen : p.length ≤ s.bitsLeft := by
    rw [← unreadBits_length, hu, List.length_append, pathBools, List.length_map]; omega
  obtain ⟨k, hk⟩ : ∃ k, s.bitsLeft + 1 = (k + 1) + p.length := ⟨s.bitsLeft - p.length, by omega⟩
  obtain ⟨t, e1, e2, e3, e4⟩ := walkBits_follow p (k + 1) s.core.root j rest h hwf hj hu
  have htm : t.core.tm = s.core.tm := by rw [e4]
  have hne : j ≠ Config.noNode := by rintro rfl; rw [nodeAt_noNode hwf] at hn; cases hn
  have hw : walkBits (k + 1) j t = .ok b t := by rw [walkBits, if_neg hne, htm, hn]
  refine ⟨t.withCore { t.core with outb := b, rrem := t.core.rrem - 1#72, status := t.core.status.setOutv },
    by rw [rnextRule, if_neg h0, hk, e1, hw, Res.andThen_ok], e2, e3.trans (.withCore _ _), ?_⟩
  rw [State.withCore_core, e4]

/-- The payload ends at an internal node (R198). -/
theorem rnextRule_truncated {s : State} (h : Serving s) (hwf : Memory.wf Config.nodeMax s.core.tm)
    (h0 : s.core.rrem ≠ 0#72) {p : Path} {j l r : NodeIdx} {w : Weight}
    (hj : follow s.core.tm s.core.root p = some j) (hn : nodeAt s.core.tm j = some (.internal w l r))
    (hu : unreadBits s = pathBools p) :
    ∃ t, rnextRule s = .raised .truncatedPayload 0#32 t ∧ unreadBits t = [] ∧
      t.core = { s.core with racc := t.core.racc, rcnt := t.core.rcnt } := by
  have hlen : p.length ≤ s.bitsLeft := by
    rw [← unreadBits_length, hu, pathBools, List.length_map]
  obtain ⟨k, hk⟩ : ∃ k, s.bitsLeft + 1 = (k + 1) + p.length := ⟨s.bitsLeft - p.length, by omega⟩
  obtain ⟨t, e1, e2, e3, e4⟩ := walkBits_follow p (k + 1) s.core.root j [] h hwf hj (by simpa using hu)
  have htm : t.core.tm = s.core.tm := by rw [e4]
  have hne : j ≠ Config.noNode := by rintro rfl; rw [nodeAt_noNode hwf] at hn; cases hn
  obtain ⟨r1, r2⟩ := readBit_nil (h.of_sourceMoved e3) e2
  exact ⟨_, by rw [rnextRule, if_neg h0, hk, e1, walkBits, if_neg hne, htm, hn]; simp only [r1]; rfl, r2, e4⟩

end Sys2Proof.Machine
end

