-- ==== Sys2Proof/Laws/Raises.lean ====
section
/-! SUPPORT. Which kinds each rule's pseudocode can raise (the matrix R208), and that `IoError` carries the code of a
failing reply (R195): one lemma per rule and per loop. -/

namespace Sys2Proof.Machine

/-- Some coming reply fails with the code. -/
def Failing (s : State) (e : BitVec 32) : Prop := ∃ p b, HostReply.fails e p b ∈ s.host.replies

theorem Failing.mono {s u : State} {e : BitVec 32} (h : Failing u e) (hs : u.host.replies <:+ s.host.replies) :
    Failing s e := by
  obtain ⟨p, b, hm⟩ := h
  exact ⟨p, b, hs.subset hm⟩

theorem failing_next {s : State} {e : BitVec 32} {p : Nat} {b : Bool} (h : s.nextReply = .fails e p b) :
    Failing s e := by
  refine ⟨p, b, ?_⟩
  unfold State.nextReply at h
  cases hr : s.host.replies with
  | nil => rw [hr] at h; cases h
  | cons r rs => rw [hr] at h; rw [← h]; exact List.mem_cons_self

/-- What a rule run from `s` raises has a kind listed in `K`, and `IoError` carries a code the host gave. -/
def RaisesOnly {α : Type} (K : List ErrorKind) (s : State) (r : Res α) : Prop :=
  ∀ k i t, r = .raised k i t → k ∈ K ∧ (k = .io → Failing s i)

theorem RaisesOnly.andThen {α β : Type} {K : List ErrorKind} {s : State} {r : Res α} {f : α → State → Res β}
    (h : RaisesOnly K s r) (hs : r.Ends fun t => t.host.replies <:+ s.host.replies)
    (hf : ∀ a u, r = .ok a u → RaisesOnly K u (f a u)) : RaisesOnly K s (r.andThen f) := by
  intro k i t hr
  rcases Res.andThen_eq_raised.1 hr with hr | ⟨a, u, hu, hr⟩
  · exact h k i t hr
  · obtain ⟨h1, h2⟩ := hf a u hu k i t hr
    rw [hu] at hs
    exact ⟨h1, fun hk => (h2 hk).mono hs⟩

theorem RaisesOnly.mono {α : Type} {K K' : List ErrorKind} {s u : State} {r : Res α} (h : RaisesOnly K u r)
    (hk : K ⊆ K') (hs : u.host.replies <:+ s.host.replies) : RaisesOnly K' s r := fun k i t hr =>
  ⟨hk (h k i t hr).1, fun hio => ((h k i t hr).2 hio).mono hs⟩

theorem raisesOnly_ok {α : Type} (K : List ErrorKind) (s : State) (a : α) (t : State) : RaisesOnly K s (.ok a t) :=
  fun _ _ _ h => by cases h

theorem raisesOnly_stopped {α : Type} (K : List ErrorKind) (s : State) (x : Fault) :
    RaisesOnly (α := α) K s (.stopped x) := fun _ _ _ h => by cases h

theorem raisesOnly_raised {α : Type} {K : List ErrorKind} {s t : State} {k : ErrorKind} {i : BitVec 32} (h : k ∈ K)
    (hk : k ≠ .io) : RaisesOnly (α := α) K s (.raised k i t) := by
  rintro _ _ _ ⟨⟩; exact ⟨h, fun hc => absurd hc hk⟩

/-! ### The primitives -/

theorem srcRead_raises (s : State) : RaisesOnly [.io] s (srcRead s) := by
  intro k i t h
  obtain ⟨rfl, p, b, hn, -⟩ := srcRead_eq_raised.1 h
  exact ⟨List.mem_cons_self, fun _ => failing_next hn⟩

theorem srcRewind_raises (s : State) : RaisesOnly [.io] s (srcRewind s) := by
  intro k i t h
  obtain ⟨rfl, p, b, hn, -⟩ := srcRewind_eq_raised.1 h
  exact ⟨List.mem_cons_self, fun _ => failing_next hn⟩

theorem snkWrite_raises (v : Byte) (s : State) : RaisesOnly [.io] s (snkWrite v s) := by
  intro k i t h
  obtain ⟨rfl, p, b, hn, -⟩ := snkWrite_eq_raised.1 h
  exact ⟨List.mem_cons_self, fun _ => failing_next hn⟩

theorem snkWriteAll_raises (vs : List Byte) (s : State) : RaisesOnly [.io] s (snkWriteAll vs s) := by
  induction vs generalizing s with
  | nil => exact raisesOnly_ok _ _ _ _
  | cons v vs ih =>
    exact (snkWrite_raises v s).andThen ((snkWrite_frame v s).imp fun t h => h.1.replies) fun _ u _ => ih u

/-! ### The rules -/

theorem fscanLoop_raises (n : Nat) (s : State) : RaisesOnly [.io, .countOverflow] s (fscanLoop n s) := by
  induction n generalizing s with
  | zero => exact raisesOnly_stopped _ _ _
  | succ n ih =>
    unfold fscanLoop
    refine ((srcRead_raises s).mono (by simp) List.suffix_rfl).andThen
      ((srcRead_frame s).imp fun t h => h.1.replies) fun r u _ => ?_
    match r with
    | none => exact raisesOnly_ok _ _ _ _
    | some b =>
      refine RaisesOnly.andThen ?_ ?_ fun _ v _ => ih v
      · unfold countByte
        dsimp only
        split_ifs
        · exact raisesOnly_raised (by simp) (by simp)
        · exact raisesOnly_ok _ _ _ _
      · unfold countByte
        dsimp only
        split_ifs
        · exact List.suffix_rfl
        · exact List.suffix_rfl

theorem fscanRule_raises (s : State) : RaisesOnly [.io, .countOverflow] s (fscanRule s) := fscanLoop_raises _ s

theorem qbuildRule_raises (s : State) : RaisesOnly [.emptyInput] s (qbuildRule s) := by
  unfold qbuildRule
  split_ifs
  · exact raisesOnly_raised (by simp) (by simp)
  · exact raisesOnly_ok _ _ _ _

theorem qinsRule_raises (idx : NodeIdx) (s : State) : RaisesOnly [.sequence] s (qinsRule idx s) := by
  unfold qinsRule
  split
  · exact raisesOnly_raised (by simp) (by simp)
  · split
    · exact raisesOnly_stopped _ _ _
    · split
      · exact raisesOnly_stopped _ _ _
      · exact raisesOnly_ok _ _ _ _

theorem qextRule_raises (s : State) : RaisesOnly [.emptyQueue] s (qextRule s) := by
  unfold qextRule
  split
  · exact raisesOnly_raised (by simp) (by simp)
  · exact raisesOnly_ok _ _ _ _

theorem tjoinRule_raises (s : State) : RaisesOnly [.emptyQueue] s (tjoinRule s) := by
  unfold tjoinRule
  split
  · dsimp only
    split_ifs
    · exact raisesOnly_stopped _ _ _
    · split
      · exact raisesOnly_stopped _ _ _
      · exact raisesOnly_ok _ _ _ _
  · exact raisesOnly_raised (by simp) (by simp)
  · exact raisesOnly_raised (by simp) (by simp)

theorem reduceLoop_raises (n : Nat) (s : State) : RaisesOnly [] s (reduceLoop n s) := by
  induction n generalizing s with
  | zero => exact raisesOnly_stopped _ _ _
  | succ n ih =>
    unfold reduceLoop
    split_ifs with hl
    · exact raisesOnly_ok _ _ _ _
    · refine RaisesOnly.andThen ?_ ((tjoinRule_frame s).imp fun t h => by rw [h.1]) fun _ u _ => ih u
      unfold tjoinRule
      split
      · dsimp only
        split_ifs
        · exact raisesOnly_stopped _ _ _
        · split
          · exact raisesOnly_stopped _ _ _
          · exact raisesOnly_ok _ _ _ _
      · next a hq => rw [hq] at hl; exact absurd le_rfl hl
      · next hq => rw [hq] at hl; exact absurd (Nat.zero_le 1) hl

/-- `TREDUCE` raises only on an empty queue (R122, R193). -/
theorem treduceRule_raises_nonempty {s : State} (h : s.core.queue ≠ []) : RaisesOnly [] s (treduceRule s) := by
  unfold treduceRule
  rw [if_neg fun hc => h (List.length_eq_zero_iff.1 hc)]
  exact (reduceLoop_raises _ s).andThen ((reduceLoop_frame _ s).imp fun t h => by rw [h.1])
    fun _ u _ => raisesOnly_ok _ _ _ _

theorem treduceRule_raises (s : State) : RaisesOnly [.emptyQueue] s (treduceRule s) := by
  by_cases h : s.core.queue = []
  · rw [treduceRule, if_pos (by rw [h]; rfl)]
    exact raisesOnly_raised (by simp) (by simp)
  · exact (treduceRule_raises_nonempty h).mono (by simp) List.suffix_rfl

theorem sderiveRule_raises (s : State) : RaisesOnly [] s (sderiveRule s) := by
  unfold sderiveRule
  split
  · exact raisesOnly_ok _ _ _ _
  · exact raisesOnly_stopped _ _ _

theorem wbitRule_raises (d : Decision) (s : State) : RaisesOnly [.io] s (wbitRule d s) := by
  unfold wbitRule
  dsimp only
  split_ifs
  · exact ((snkWrite_raises _ _).mono (by simp) List.suffix_rfl).andThen
      ((snkWrite_frame _ _).imp fun t h => h.1.replies) fun _ u _ => raisesOnly_ok _ _ _ _
  · exact raisesOnly_ok _ _ _ _

theorem writePath_raises (p : Path) (s : State) : RaisesOnly [.io] s (writePath p s) := by
  induction p generalizing s with
  | nil => exact raisesOnly_ok _ _ _ _
  | cons d p ih =>
    exact (wbitRule_raises d s).andThen ((wbitRule_frame d s).imp fun t h => h.1.replies) fun _ u _ => ih u

theorem wsymRule_raises (sym : Byte) (s : State) : RaisesOnly [.symbolNotInTable, .io] s (wsymRule sym s) := by
  unfold wsymRule
  split
  · exact raisesOnly_raised (by simp) (by simp)
  · exact (writePath_raises _ s).mono (by simp) List.suffix_rfl

theorem wflushRule_raises (s : State) : RaisesOnly [.io] s (wflushRule s) := by
  unfold wflushRule
  split_ifs
  · exact raisesOnly_ok _ _ _ _
  · exact (snkWrite_raises _ s).andThen ((snkWrite_frame _ s).imp fun t h => h.1.replies)
      fun _ u _ => raisesOnly_ok _ _ _ _

theorem readBit_raises (s : State) : RaisesOnly [.truncatedPayload, .io] s (readBit s) := by
  unfold readBit
  split_ifs
  · refine ((srcRead_raises s).mono (by simp) List.suffix_rfl).andThen
      ((srcRead_frame s).imp fun t h => h.1.replies) fun r u _ => ?_
    match r with
    | none => exact raisesOnly_raised (by simp) (by simp)
    | some v => exact raisesOnly_ok _ _ _ _
  · exact raisesOnly_ok _ _ _ _

theorem walkBits_raises (n : Nat) (i : NodeIdx) (s : State) :
    RaisesOnly [.truncatedPayload, .io] s (walkBits n i s) := by
  induction n generalizing i s with
  | zero => exact raisesOnly_stopped _ _ _
  | succ n ih =>
    unfold walkBits
    split_ifs
    · exact raisesOnly_stopped _ _ _
    · split
      · exact (readBit_raises s).andThen ((readBit_frame s).imp fun t h => h.1.replies) fun _ u _ => ih _ u
      · exact raisesOnly_ok _ _ _ _
      · exact raisesOnly_ok _ _ _ _

theorem rnextRule_raises (s : State) : RaisesOnly [.truncatedPayload, .io] s (rnextRule s) := by
  unfold rnextRule
  split_ifs
  · exact raisesOnly_ok _ _ _ _
  · exact (walkBits_raises _ _ s).andThen ((walkBits_frame _ _ s).imp fun t h => h.1.replies)
      fun _ u _ => raisesOnly_ok _ _ _ _

theorem hwriteRule_raises (s : State) : RaisesOnly [.headerCountOverflow, .io] s (hwriteRule s) := by
  unfold hwriteRule
  split_ifs
  · exact raisesOnly_raised (by simp) (by simp)
  · exact (snkWriteAll_raises _ s).mono (by simp) List.suffix_rfl

theorem headerGet_raises (n : Nat) (s : State) : RaisesOnly [.truncatedHeader, .io] s (headerGet n s) := by
  refine ((srcRead_raises s).mono (by simp) List.suffix_rfl).andThen
    ((srcRead_frame s).imp fun t h => h.1.replies) fun r u _ => ?_
  match r with
  | none => exact raisesOnly_raised (by simp) (by simp)
  | some v => exact raisesOnly_ok _ _ _ _

theorem headerCount_raises (k n : Nat) (c : Count) (s : State) :
    RaisesOnly [.truncatedHeader, .io] s (headerCount k n c s) := by
  induction k generalizing n c s with
  | zero => exact raisesOnly_ok _ _ _ _
  | succ k ih =>
    exact (headerGet_raises n s).andThen ((headerGet_frame n s).imp fun t h => h.1.replies) fun _ u _ => ih _ _ u

theorem headerEntries_raises (k i : Nat) (prev : Option Byte) (s : State) :
    RaisesOnly [.truncatedHeader, .malformedHeader, .io] s (headerEntries k i prev s) := by
  induction k generalizing i prev s with
  | zero => exact raisesOnly_ok _ _ _ _
  | succ k ih =>
    unfold headerEntries
    refine ((headerGet_raises _ s).mono (by simp) List.suffix_rfl).andThen
      ((headerGet_frame _ s).imp fun t h => h.1.replies) fun v u _ => ?_
    refine ((headerCount_raises _ _ _ u).mono (by simp) List.suffix_rfl).andThen
      ((headerCount_frame _ _ _ u).imp fun t h => h.1.replies) fun c w _ => ?_
    split_ifs
    · exact raisesOnly_raised (by simp) (by simp)
    · exact raisesOnly_raised (by simp) (by simp)
    · exact ih _ _ _

theorem hreadRule_raises (s : State) : RaisesOnly [.truncatedHeader, .malformedHeader, .io] s (hreadRule s) :=
  ((headerGet_raises 0 _).mono (by simp) List.suffix_rfl).andThen
    ((headerGet_frame 0 _).imp fun t h => h.1.replies) fun n u _ => headerEntries_raises _ _ _ u

theorem srewRule_raises (s : State) : RaisesOnly [.io] s (srewRule s) := srcRewind_raises s

theorem encodeLoop_raises (n : Nat) (s : State) : RaisesOnly [.symbolNotInTable, .io] s (encodeLoop n s) := by
  induction n generalizing s with
  | zero => exact raisesOnly_stopped _ _ _
  | succ n ih =>
    unfold encodeLoop
    refine ((srcRead_raises s).mono (by simp) List.suffix_rfl).andThen
      ((srcRead_frame s).imp fun t h => h.1.replies) fun r u _ => ?_
    match r with
    | none => exact raisesOnly_ok _ _ _ _
    | some b => exact (wsymRule_raises b u).andThen ((wsymRule_frame b u).imp fun t h => h.1.replies) fun _ v _ => ih v

theorem decodeLoop_raises (n : Nat) (s : State) : RaisesOnly [.truncatedPayload, .io] s (decodeLoop n s) := by
  induction n generalizing s with
  | zero => exact raisesOnly_stopped _ _ _
  | succ n ih =>
    unfold decodeLoop
    refine (rnextRule_raises s).andThen ((rnextRule_frame s).imp fun t h => h.1.replies) fun _ u _ => ?_
    split_ifs
    · exact raisesOnly_ok _ _ _ _
    · exact ((snkWrite_raises _ u).mono (by simp) List.suffix_rfl).andThen
        ((snkWrite_frame _ u).imp fun t h => h.1.replies) fun _ v _ => ih v

/-- A queue that `QBUILD` leaves is not empty (R103). -/
theorem qbuildRule_queue {s u : State} (h : qbuildRule s = .ok () u) : u.core.queue ≠ [] := by
  unfold qbuildRule at h
  split_ifs at h with hn
  cases h
  intro hc
  exact hn ((built_queue_length s.core).symm.trans (List.length_eq_zero_iff.2 hc))

theorem encodeRule_raises (s : State) :
    RaisesOnly [.io, .countOverflow, .emptyInput, .headerCountOverflow, .symbolNotInTable] s (encodeRule s) := by
  refine (raisesOnly_ok _ s _ _).andThen List.suffix_rfl fun _ s1 _ => ?_
  refine ((srcRewind_raises s1).mono (by simp) List.suffix_rfl).andThen
    ((srcRewind_frame s1).imp fun t h => h.1.replies) fun _ s2 _ => ?_
  refine ((fscanRule_raises s2).mono (by simp) List.suffix_rfl).andThen
    ((fscanRule_frame s2).imp fun t h => h.1.replies) fun _ s3 _ => ?_
  refine ((qbuildRule_raises s3).mono (by simp) List.suffix_rfl).andThen
    ((qbuildRule_frame s3).imp fun t h => by rw [h.1]) fun _ s4 h4 => ?_
  refine ((treduceRule_raises_nonempty (qbuildRule_queue h4)).mono (by simp) List.suffix_rfl).andThen
    ((treduceRule_frame s4).imp fun t h => by rw [h.1]) fun _ s5 _ => ?_
  refine ((sderiveRule_raises s5).mono (by simp) List.suffix_rfl).andThen
    ((sderiveRule_frame s5).imp fun t h => by rw [h.1]) fun _ s6 _ => ?_
  refine ((hwriteRule_raises s6).mono (by simp) List.suffix_rfl).andThen
    ((hwriteRule_frame s6).imp fun t h => h.1.replies) fun _ s7 _ => ?_
  refine ((srcRewind_raises s7).mono (by simp) List.suffix_rfl).andThen
    ((srcRewind_frame s7).imp fun t h => h.1.replies) fun _ s8 _ => ?_
  refine ((encodeLoop_raises _ s8).mono (by simp) List.suffix_rfl).andThen
    ((encodeLoop_frame _ s8).imp fun t h => h.1.replies) fun _ s9 _ =>
      (wflushRule_raises s9).mono (by simp) List.suffix_rfl

theorem decodeRule_raises (s : State) :
    RaisesOnly [.io, .truncatedHeader, .malformedHeader, .emptyInput, .truncatedPayload] s (decodeRule s) := by
  refine (raisesOnly_ok _ s _ _).andThen List.suffix_rfl fun _ s1 _ => ?_
  refine ((hreadRule_raises s1).mono (by simp) List.suffix_rfl).andThen
    ((hreadRule_frame s1).imp fun t h => h.1.replies) fun _ s2 _ => ?_
  refine ((qbuildRule_raises s2).mono (by simp) List.suffix_rfl).andThen
    ((qbuildRule_frame s2).imp fun t h => by rw [h.1]) fun _ s3 h3 => ?_
  refine ((treduceRule_raises_nonempty (qbuildRule_queue h3)).mono (by simp) List.suffix_rfl).andThen
    ((treduceRule_frame s3).imp fun t h => by rw [h.1]) fun _ s4 _ => ?_
  refine (raisesOnly_ok _ s4 _ _).andThen List.suffix_rfl fun _ s5 _ => ?_
  exact (decodeLoop_raises _ s5).mono (by simp) List.suffix_rfl

/-- Every rule raises only the kinds of its column of R208, and `IoError` only with a code the host gave. -/
theorem ruleOf_raises (i : Instr) (s : State) : RaisesOnly (raisable i) s (ruleOf i s) := by
  cases i with
  | fscan => exact fscanRule_raises s
  | qbuild => exact qbuildRule_raises s
  | qins idx => exact qinsRule_raises idx s
  | qext => exact qextRule_raises s
  | tjoin => exact tjoinRule_raises s
  | treduce => exact treduceRule_raises s
  | sderive => exact sderiveRule_raises s
  | wbit d => exact wbitRule_raises d s
  | wsym sym => exact wsymRule_raises sym s
  | wflush => exact wflushRule_raises s
  | rinit => exact raisesOnly_ok _ _ _ _
  | rnext => exact rnextRule_raises s
  | hwrite => exact hwriteRule_raises s
  | hread => exact hreadRule_raises s
  | encode => exact encodeRule_raises s
  | decode => exact decodeRule_raises s
  | clr => exact raisesOnly_ok _ _ _ _
  | srew => exact srewRule_raises s

end Sys2Proof.Machine
end

