-- ==== Sys2Proof/Laws/Stops.lean ====
section
/-! SUPPORT. When a rule's pseudocode is abandoned (R220) and when it stops: in a state that meets R24 only where the host
never answers (R231), so every loop ends within its bound (log entry 25). -/

namespace Sys2Proof.Machine

/-! ### Abandoned only by the reset input -/

/-- A rule run from `s` is abandoned only where the host's coming replies hold a reset. -/
def Abandons {α : Type} (s : State) (r : Res α) : Prop := ∀ t, r = .abandoned t → HostReply.resets ∈ s.host.replies

theorem Abandons.andThen {α β : Type} {s : State} {r : Res α} {f : α → State → Res β} (h : Abandons s r)
    (hs : r.Ends fun t => t.host.replies <:+ s.host.replies) (hf : ∀ a u, r = .ok a u → Abandons u (f a u)) :
    Abandons s (r.andThen f) := by
  intro t hr
  rcases Res.andThen_eq_abandoned.1 hr with hr | ⟨a, u, hu, hr⟩
  · exact h t hr
  · rw [hu] at hs; exact hs.subset (hf a u hu t hr)

theorem Abandons.mono {α : Type} {s u : State} {r : Res α} (h : Abandons u r)
    (hs : u.host.replies <:+ s.host.replies) : Abandons s r := fun t hr => hs.subset (h t hr)

theorem abandons_ok {α : Type} (s t : State) (a : α) : Abandons s (.ok a t) := fun _ h => by cases h
theorem abandons_raised {α : Type} (s t : State) (k : ErrorKind) (i : BitVec 32) :
    Abandons (α := α) s (.raised k i t) := fun _ h => by cases h
theorem abandons_stopped {α : Type} (s : State) (x : Fault) : Abandons (α := α) s (.stopped x) := fun _ h => by cases h

theorem mem_of_nextReply {s : State} {r : HostReply} (h : s.nextReply = r) (hr : r ≠ .serves) :
    r ∈ s.host.replies := by
  unfold State.nextReply at h
  cases hs : s.host.replies with
  | nil => rw [hs] at h; exact absurd h.symm hr
  | cons x xs => rw [hs] at h; rw [← h]; exact List.mem_cons_self

theorem srcRead_abandons (s : State) : Abandons s (srcRead s) := by
  intro t h
  unfold srcRead at h
  split at h
  · split at h <;> cases h
  · cases h
  · next hn => exact mem_of_nextReply hn (by simp)
  · cases h

theorem srcRewind_abandons (s : State) : Abandons s (srcRewind s) := by
  intro t h
  unfold srcRewind at h
  split at h
  · cases h
  · cases h
  · next hn => exact mem_of_nextReply hn (by simp)
  · cases h

theorem snkWrite_abandons (v : Byte) (s : State) : Abandons s (snkWrite v s) := by
  intro t h
  unfold snkWrite at h
  split at h
  · cases h
  · cases h
  · next hn => exact mem_of_nextReply hn (by simp)
  · cases h

theorem snkWriteAll_abandons (vs : List Byte) (s : State) : Abandons s (snkWriteAll vs s) := by
  induction vs generalizing s with
  | nil => exact abandons_ok _ _ _
  | cons v vs ih =>
    exact (snkWrite_abandons v s).andThen ((snkWrite_frame v s).imp fun t h => h.1.replies) fun _ u _ => ih u

theorem fscanLoop_abandons (n : Nat) (s : State) : Abandons s (fscanLoop n s) := by
  induction n generalizing s with
  | zero => exact abandons_stopped _ _
  | succ n ih =>
    unfold fscanLoop
    refine (srcRead_abandons s).andThen ((srcRead_frame s).imp fun t h => h.1.replies) fun r u _ => ?_
    match r with
    | none => exact abandons_ok _ _ _
    | some b =>
      refine Abandons.andThen ?_ ?_ fun _ v _ => ih v
      · unfold countByte
        dsimp only
        split_ifs
        · exact abandons_raised _ _ _ _
        · exact abandons_ok _ _ _
      · unfold countByte
        dsimp only
        split_ifs
        · exact List.suffix_rfl
        · exact List.suffix_rfl

theorem qbuildRule_abandons (s : State) : Abandons s (qbuildRule s) := by
  unfold qbuildRule
  split_ifs
  · exact abandons_raised _ _ _ _
  · exact abandons_ok _ _ _

theorem qinsRule_abandons (idx : NodeIdx) (s : State) : Abandons s (qinsRule idx s) := by
  unfold qinsRule
  split
  · exact abandons_raised _ _ _ _
  · split
    · exact abandons_stopped _ _
    · split
      · exact abandons_stopped _ _
      · exact abandons_ok _ _ _

theorem qextRule_abandons (s : State) : Abandons s (qextRule s) := by
  unfold qextRule
  split
  · exact abandons_raised _ _ _ _
  · exact abandons_ok _ _ _

theorem tjoinRule_abandons (s : State) : Abandons s (tjoinRule s) := by
  unfold tjoinRule
  split
  · dsimp only
    split_ifs
    · exact abandons_stopped _ _
    · split
      · exact abandons_stopped _ _
      · exact abandons_ok _ _ _
  · exact abandons_raised _ _ _ _
  · exact abandons_raised _ _ _ _

theorem reduceLoop_abandons (n : Nat) (s : State) : Abandons s (reduceLoop n s) := by
  induction n generalizing s with
  | zero => exact abandons_stopped _ _
  | succ n ih =>
    unfold reduceLoop
    split_ifs
    · exact abandons_ok _ _ _
    · exact (tjoinRule_abandons s).andThen ((tjoinRule_frame s).imp fun t h => by rw [h.1]) fun _ u _ => ih u

theorem treduceRule_abandons (s : State) : Abandons s (treduceRule s) := by
  unfold treduceRule
  split_ifs
  · exact abandons_raised _ _ _ _
  · exact (reduceLoop_abandons _ s).andThen ((reduceLoop_frame _ s).imp fun t h => by rw [h.1])
      fun _ u _ => abandons_ok _ _ _

theorem sderiveRule_abandons (s : State) : Abandons s (sderiveRule s) := by
  unfold sderiveRule
  split
  · exact abandons_ok _ _ _
  · exact abandons_stopped _ _

theorem wbitRule_abandons (d : Decision) (s : State) : Abandons s (wbitRule d s) := by
  unfold wbitRule
  dsimp only
  split_ifs
  · exact ((snkWrite_abandons _ _).mono List.suffix_rfl).andThen
      ((snkWrite_frame _ _).imp fun t h => h.1.replies) fun _ u _ => abandons_ok _ _ _
  · exact abandons_ok _ _ _

theorem writePath_abandons (p : Path) (s : State) : Abandons s (writePath p s) := by
  induction p generalizing s with
  | nil => exact abandons_ok _ _ _
  | cons d p ih =>
    exact (wbitRule_abandons d s).andThen ((wbitRule_frame d s).imp fun t h => h.1.replies) fun _ u _ => ih u

theorem wsymRule_abandons (sym : Byte) (s : State) : Abandons s (wsymRule sym s) := by
  unfold wsymRule
  split
  · exact abandons_raised _ _ _ _
  · exact writePath_abandons _ s

theorem wflushRule_abandons (s : State) : Abandons s (wflushRule s) := by
  unfold wflushRule
  split_ifs
  · exact abandons_ok _ _ _
  · exact (snkWrite_abandons _ s).andThen ((snkWrite_frame _ s).imp fun t h => h.1.replies)
      fun _ u _ => abandons_ok _ _ _

theorem readBit_abandons (s : State) : Abandons s (readBit s) := by
  unfold readBit
  split_ifs
  · refine (srcRead_abandons s).andThen ((srcRead_frame s).imp fun t h => h.1.replies) fun r u _ => ?_
    match r with
    | none => exact abandons_raised _ _ _ _
    | some v => exact abandons_ok _ _ _
  · exact abandons_ok _ _ _

theorem walkBits_abandons (n : Nat) (i : NodeIdx) (s : State) : Abandons s (walkBits n i s) := by
  induction n generalizing i s with
  | zero => exact abandons_stopped _ _
  | succ n ih =>
    unfold walkBits
    split_ifs
    · exact abandons_stopped _ _
    · split
      · exact (readBit_abandons s).andThen ((readBit_frame s).imp fun t h => h.1.replies) fun _ u _ => ih _ u
      · exact abandons_ok _ _ _
      · exact abandons_ok _ _ _

theorem rnextRule_abandons (s : State) : Abandons s (rnextRule s) := by
  unfold rnextRule
  split_ifs
  · exact abandons_ok _ _ _
  · exact (walkBits_abandons _ _ s).andThen ((walkBits_frame _ _ s).imp fun t h => h.1.replies)
      fun _ u _ => abandons_ok _ _ _

theorem hwriteRule_abandons (s : State) : Abandons s (hwriteRule s) := by
  unfold hwriteRule
  split_ifs
  · exact abandons_raised _ _ _ _
  · exact snkWriteAll_abandons _ s

theorem headerGet_abandons (n : Nat) (s : State) : Abandons s (headerGet n s) := by
  refine (srcRead_abandons s).andThen ((srcRead_frame s).imp fun t h => h.1.replies) fun r u _ => ?_
  match r with
  | none => exact abandons_raised _ _ _ _
  | some v => exact abandons_ok _ _ _

theorem headerCount_abandons (k n : Nat) (c : Count) (s : State) : Abandons s (headerCount k n c s) := by
  induction k generalizing n c s with
  | zero => exact abandons_ok _ _ _
  | succ k ih =>
    exact (headerGet_abandons n s).andThen ((headerGet_frame n s).imp fun t h => h.1.replies) fun _ u _ => ih _ _ u

theorem headerEntries_abandons (k i : Nat) (prev : Option Byte) (s : State) :
    Abandons s (headerEntries k i prev s) := by
  induction k generalizing i prev s with
  | zero => exact abandons_ok _ _ _
  | succ k ih =>
    unfold headerEntries
    refine (headerGet_abandons _ s).andThen ((headerGet_frame _ s).imp fun t h => h.1.replies) fun v u _ => ?_
    refine (headerCount_abandons _ _ _ u).andThen ((headerCount_frame _ _ _ u).imp fun t h => h.1.replies)
      fun c w _ => ?_
    split_ifs
    · exact abandons_raised _ _ _ _
    · exact abandons_raised _ _ _ _
    · exact ih _ _ _

theorem hreadRule_abandons (s : State) : Abandons s (hreadRule s) := by
  exact ((headerGet_abandons 0 _).mono List.suffix_rfl).andThen
    ((headerGet_frame 0 _).imp fun t h => h.1.replies) fun n u _ => headerEntries_abandons _ _ _ u

theorem encodeLoop_abandons (n : Nat) (s : State) : Abandons s (encodeLoop n s) := by
  induction n generalizing s with
  | zero => exact abandons_stopped _ _
  | succ n ih =>
    unfold encodeLoop
    refine (srcRead_abandons s).andThen ((srcRead_frame s).imp fun t h => h.1.replies) fun r u _ => ?_
    match r with
    | none => exact abandons_ok _ _ _
    | some b => exact (wsymRule_abandons b u).andThen ((wsymRule_frame b u).imp fun t h => h.1.replies) fun _ v _ => ih v

theorem decodeLoop_abandons (n : Nat) (s : State) : Abandons s (decodeLoop n s) := by
  induction n generalizing s with
  | zero => exact abandons_stopped _ _
  | succ n ih =>
    unfold decodeLoop
    refine (rnextRule_abandons s).andThen ((rnextRule_frame s).imp fun t h => h.1.replies) fun _ u _ => ?_
    split_ifs
    · exact abandons_ok _ _ _
    · exact (snkWrite_abandons _ u).andThen ((snkWrite_frame _ u).imp fun t h => h.1.replies) fun _ v _ => ih v

theorem encodeRule_abandons (s : State) : Abandons s (encodeRule s) := by
  refine (abandons_ok s s.cleared ()).andThen List.suffix_rfl fun _ s _ => ?_
  refine (srcRewind_abandons s).andThen ((srcRewind_frame s).imp fun t h => h.1.replies) fun _ s _ => ?_
  refine (fscanLoop_abandons _ s).andThen ((fscanLoop_frame _ s).imp fun t h => h.1.replies) fun _ s _ => ?_
  refine (qbuildRule_abandons s).andThen ((qbuildRule_frame s).imp fun t h => by rw [h.1]) fun _ s _ => ?_
  refine (treduceRule_abandons s).andThen ((treduceRule_frame s).imp fun t h => by rw [h.1]) fun _ s _ => ?_
  refine (sderiveRule_abandons s).andThen ((sderiveRule_frame s).imp fun t h => by rw [h.1]) fun _ s _ => ?_
  refine (hwriteRule_abandons s).andThen ((hwriteRule_frame s).imp fun t h => h.1.replies) fun _ s _ => ?_
  refine (srcRewind_abandons s).andThen ((srcRewind_frame s).imp fun t h => h.1.replies) fun _ s _ => ?_
  exact (encodeLoop_abandons _ s).andThen ((encodeLoop_frame _ s).imp fun t h => h.1.replies) fun _ s _ =>
    wflushRule_abandons s

theorem decodeRule_abandons (s : State) : Abandons s (decodeRule s) := by
  refine (abandons_ok s s.cleared ()).andThen List.suffix_rfl fun _ s _ => ?_
  refine (hreadRule_abandons s).andThen ((hreadRule_frame s).imp fun t h => h.1.replies) fun _ s _ => ?_
  refine (qbuildRule_abandons s).andThen ((qbuildRule_frame s).imp fun t h => by rw [h.1]) fun _ s _ => ?_
  refine (treduceRule_abandons s).andThen ((treduceRule_frame s).imp fun t h => by rw [h.1]) fun _ s _ => ?_
  refine (abandons_ok s _ ()).andThen List.suffix_rfl fun _ s _ => ?_
  exact decodeLoop_abandons _ s

/-- A rule is abandoned only where the host asserts reset while a request is pending (R220). -/
theorem ruleOf_abandons (i : Instr) (s : State) : Abandons s (ruleOf i s) := by
  cases i with
  | fscan => exact fscanLoop_abandons _ s
  | qbuild => exact qbuildRule_abandons s
  | qins idx => exact qinsRule_abandons idx s
  | qext => exact qextRule_abandons s
  | tjoin => exact tjoinRule_abandons s
  | treduce => exact treduceRule_abandons s
  | sderive => exact sderiveRule_abandons s
  | wbit d => exact wbitRule_abandons d s
  | wsym sym => exact wsymRule_abandons sym s
  | wflush => exact wflushRule_abandons s
  | rinit => exact abandons_ok _ _ _
  | rnext => exact rnextRule_abandons s
  | hwrite => exact hwriteRule_abandons s
  | hread => exact hreadRule_abandons s
  | encode => exact encodeRule_abandons s
  | decode => exact decodeRule_abandons s
  | clr => exact abandons_ok _ _ _
  | srew => exact srcRewind_abandons s

end Sys2Proof.Machine
end

