-- ==== Sys2Proof/Laws/Invariant.lean ====
section
/-! SUPPORT. What every rule keeps of R24, however it ends. `Sound` is the invariant without the fault registers and the
writer's bits, which only the end of a command decides. -/

namespace Sys2Proof.Machine

/-- R24 items 1 to 6 and the reader's half of item 7, with R16, R17 and R27. -/
structure Sound (s : State) : Prop where
  counts : countsWf s.core.ft
  paths : Memory.wf Config.nsymMax s.core.st
  pos : s.host.pos ≤ s.host.src.length
  forest : QueueForest s.core
  idle : s.core.status.phase = .idle → s.core.tm = [] ∧ s.core.nextNode = Config.firstInternal
  tree : s.core.status.phase = .tree → freeRoot s.core.tm s.core.root = true
  results : ResultRegistersAgree s
  held : HighBitsZero s.core.racc s.core.rcnt

/-- The writer's half of R24 item 7. -/
def WriterAgrees (s : State) : Prop := HighBitsZero s.core.wacc s.core.wcnt

theorem inv_iff (s : State) : Inv s ↔
    Sound s ∧ FaultRegistersAgree s ∧ (s.core.status.fault = false → WriterAgrees s) := by
  constructor
  · intro h
    have hq := queueForest_of_inv h
    obtain ⟨hm, hf, hr, hb, ho⟩ := h
    exact ⟨⟨hm.1, hm.2.2.1, hm.2.2.2, hq, ho.2.2.2.2.2.2.2.1, ho.2.2.2.2.2.2.2.2, hr, hb.1⟩, hf, hb.2⟩
  · rintro ⟨h, hf, hw⟩
    obtain ⟨h1, h2, h3⟩ := Forest.parts h.forest.toForest
    have hlt := s.core.nextNode.isLt
    exact ⟨⟨h.counts, h.forest.wf, h.paths, h.pos⟩, hf, h.results, ⟨h.held, hw⟩, h1, ⟨h.forest.next_ge, by omega⟩, h2,
      h.forest.children, h.forest.queued, h.forest.sorted, h3, h.idle, h.tree⟩

/-- The states that differ in nothing `Sound` speaks of but the source position. -/
theorem Sound.of_core {s t : State} (h : Sound s) (hp : t.host.pos ≤ t.host.src.length)
    (hc : t.core = { s.core with
      wacc := t.core.wacc, wcnt := t.core.wcnt, err := t.core.err, errinfo := t.core.errinfo, rrem := t.core.rrem
      status := { s.core.status with fault := t.core.status.fault } }) : Sound t := by
  obtain ⟨tc, th⟩ := t
  change tc = _ at hc
  rw [hc]
  exact { counts := h.counts, paths := h.paths, pos := hp, forest := ⟨h.forest.toForest, h.forest.queued, h.forest.sorted⟩
          idle := h.idle, tree := h.tree, results := h.results, held := h.held }

/-- No record at all is a forest. -/
theorem Forest.empty (ft : Memory Count) : Forest ft [] Config.firstInternal where
  wf := by decide
  next_ge := by decide
  leaf := fun hi => by cases hi
  node := fun hi => by cases hi
  filled := fun i h1 h2 => absurd h1 (Nat.not_le.2 h2)
  children := List.nodup_nil
  roots := fun {i j} hi => absurd hi (by simp [freeRoot, validNode, nodeAt, Memory.read?])

theorem Sound.cleared {s : State} (h : s.host.pos ≤ s.host.src.length) : Sound s.cleared where
  counts := (by decide : countsWf CoreState.reset.ft)
  paths := (by decide : Memory.wf Config.nsymMax CoreState.reset.st)
  pos := h
  forest := { toForest := Forest.empty _, queued := fun i hi => absurd hi List.not_mem_nil, sorted := List.Pairwise.nil }
  idle := fun _ => ⟨rfl, rfl⟩
  tree := fun hc => by cases hc
  results := (by decide : ResultRegistersAgree State.reset)
  held := (by decide : HighBitsZero CoreState.reset.racc CoreState.reset.rcnt)

theorem SourceMoved.pos_le {s t : State} (h : SourceMoved s t) (hp : s.host.pos ≤ s.host.src.length) :
    t.host.pos ≤ t.host.src.length := by rw [h.src]; exact h.pos hp

theorem StreamsMoved.pos_le {s t : State} (h : StreamsMoved s t) (hp : s.host.pos ≤ s.host.src.length) :
    t.host.pos ≤ t.host.src.length := by rw [h.src]; exact h.pos hp

/-! ### Rules of phase `IDLE` -/

/-- In phase `IDLE` the frequency table may become any other (R24 item 8). -/
theorem Sound.withTable {s t : State} (h : Sound s) (hph : s.core.status.phase = .idle) (hm : SourceMoved s t)
    (hc : t.core = { s.core with ft := t.core.ft }) (hw : countsWf t.core.ft) : Sound t := by
  obtain ⟨htm, hnx⟩ := h.idle hph
  have hq : s.core.queue = [] := (h.results.2.2.2 (by rw [hph]; decide)).2
  have hp := hm.pos_le h.pos
  obtain ⟨tc, th⟩ := t
  change tc = _ at hc
  rw [hc]
  refine { counts := hw, paths := h.paths, pos := hp, forest := ?_, idle := h.idle, tree := h.tree
           results := h.results, held := h.held }
  refine { toForest := ?_, queued := h.forest.queued, sorted := h.forest.sorted }
  rw [htm, hnx]
  exact Forest.empty _

theorem fscanRule_sound {s : State} (h : Sound s) (hph : s.core.status.phase = .idle) : (fscanRule s).Ends Sound :=
  (fscanRule_frame s).imp fun _ ht => h.withTable hph ht.1 ht.2.1 (ht.2.2 h.counts)

theorem hreadRule_sound {s : State} (h : Sound s) (hph : s.core.status.phase = .idle) : (hreadRule s).Ends Sound :=
  (hreadRule_frame s).imp fun _ ht => h.withTable hph ht.1 ht.2.1 ht.2.2

theorem qbuildRule_sound {s : State} (h : Sound s) (hph : s.core.status.phase = .idle) : (qbuildRule s).Ends Sound := by
  by_cases hn : nsym s.core.ft = 0
  · rw [qbuildRule, if_pos hn]; exact h
  · rw [qbuildRule_ok hn]
    have hf : QueueForest s.core.built := built_forest (h.idle hph).1 (h.idle hph).2
    exact { counts := h.counts, paths := h.paths, pos := h.pos, forest := hf
            idle := fun hc => by cases hc
            tree := fun hc => by cases hc
            results := ⟨h.results.1, h.results.2.1, fun _ => h.results.2.2.1 (by rw [hph]; decide), fun hc => absurd rfl hc⟩
            held := h.held }

/-! ### Rules of phase `QUEUE` -/

theorem eligible_iff {c : CoreState} {i : NodeIdx} : eligible c i = true ↔
    freeRoot c.tm i = true ∧ i ∉ c.queue := by
  unfold eligible
  have : inQueue c.queue i = true ↔ i ∈ c.queue := by simp [inQueue]
  constructor
  · intro h
    simp only [Bool.and_eq_true, Bool.not_eq_true'] at h
    exact ⟨h.1.2, fun hm => by rw [this.2 hm] at h; exact absurd h.2 (by decide)⟩
  · rintro ⟨h1, h2⟩
    have hv := ((freeRoot_iff i).1 h1).1
    have hne : i ≠ Config.noNode := by
      rintro rfl; simp [validNode] at hv
    have hq : inQueue c.queue i = false := by
      cases hh : inQueue c.queue i with
      | false => rfl
      | true => exact absurd (this.1 hh) h2
    simp [hne, hv, h1, hq]

theorem qinsRule_sound {s : State} (h : Sound s) (hph : s.core.status.phase = .queue) (idx : NodeIdx) :
    (qinsRule idx s).Ends Sound := by
  by_cases he : eligible s.core idx = true
  · rw [qinsRule_ok h.forest he]
    obtain ⟨h1, h2⟩ := eligible_iff.1 he
    refine { counts := h.counts, paths := h.paths, pos := h.pos, forest := ?_, idle := ?_, tree := ?_, results := ?_
             held := h.held }
    · exact h.forest.insert h1 h2 _ _
    · exact fun hc => by rw [show s.core.status.phase = .idle from hc] at hph; cases hph
    · exact fun hc => by rw [show s.core.status.phase = .tree from hc] at hph; cases hph
    · refine ⟨fun hx => ?_, h.results.2.1, h.results.2.2.1, fun hc => absurd hph hc⟩
      change (s.core.status.xnv && !(s.core.status.xnv && s.core.xn == idx)) = false at hx
      change (if (s.core.status.xnv && s.core.xn == idx) = true then Config.noNode else s.core.xn) = Config.noNode
      split_ifs with hw
      · rfl
      · refine h.results.1 ?_
        cases hv : s.core.status.xnv with
        | false => rfl
        | true => rw [hv] at hx hw; simp_all
  · rw [qinsRule, if_pos (by simpa using he)]; exact h

theorem qextRule_sound {s : State} (h : Sound s) (hph : s.core.status.phase = .queue) : (qextRule s).Ends Sound := by
  unfold qextRule
  split
  · exact h
  · next a q hq =>
    have hmem : ∀ i ∈ q, i ∈ s.core.queue := fun i hi => by rw [hq]; exact List.mem_cons_of_mem _ hi
    refine { counts := h.counts, paths := h.paths, pos := h.pos, forest := ?_, idle := ?_, tree := ?_, results := ?_
             held := h.held }
    · exact { toForest := h.forest.toForest, queued := fun i hi => h.forest.queued i (hmem i hi)
              sorted := (List.pairwise_cons.1 (hq ▸ h.forest.sorted)).2 }
    · exact fun hc => by rw [show s.core.status.phase = .idle from hc] at hph; cases hph
    · exact fun hc => by rw [show s.core.status.phase = .tree from hc] at hph; cases hph
    · exact ⟨fun hx => (by cases hx), h.results.2.1, h.results.2.2.1, fun hc => absurd hph hc⟩

theorem tjoinRule_sound {s : State} (h : Sound s) (hph : s.core.status.phase = .queue) : (tjoinRule s).Ends Sound := by
  match hq : s.core.queue with
  | [] => rw [tjoinRule, hq]; exact h
  | [_] => rw [tjoinRule, hq]; exact h
  | a :: b :: q =>
    rw [tjoinRule_ok h.forest hq]
    refine { counts := h.counts, paths := h.paths, pos := h.pos, forest := (h.forest.join hq).1, idle := ?_, tree := ?_
             results := ?_, held := h.held }
    · exact fun hc => by rw [show s.core.status.phase = .idle from hc] at hph; cases hph
    · exact fun hc => by rw [show s.core.status.phase = .tree from hc] at hph; cases hph
    · exact ⟨fun _ => rfl, h.results.2.1, h.results.2.2.1, fun hc => absurd hph hc⟩

theorem treduceRule_sound {s : State} (h : Sound s) (_hph : s.core.status.phase = .queue) :
    (treduceRule s).Ends Sound := by
  by_cases hq : s.core.queue = []
  · rw [treduceRule, if_pos (by rw [hq]; rfl)]; exact h
  · obtain ⟨c, x, h1, h2, h3, h4, -⟩ := treduceRule_ok h.forest hq
    have hr : freeRoot c.tm x = true := h2.queued x (by rw [h3]; exact List.mem_cons_self)
    rw [h1]
    refine { counts := h.counts, paths := h.paths, pos := h.pos, forest := ?_, idle := fun hc => (by cases hc)
             tree := fun _ => hr, results := ?_, held := h.held }
    · have hf := h2.toForest
      rw [h4] at hf
      exact { toForest := hf, queued := fun i hi => absurd hi List.not_mem_nil, sorted := List.Pairwise.nil }
    · exact ⟨fun _ => rfl, h.results.2.1, fun hc => absurd rfl hc, fun _ => ⟨rfl, rfl⟩⟩

/-! ### Rules of phase `TREE` -/

theorem Sound.root_valid {s : State} (h : Sound s) (hph : s.core.status.phase = .tree) :
    validNode s.core.tm s.core.root = true := ((freeRoot_iff _).1 (h.tree hph)).1

theorem sderiveRule_sound {s : State} (h : Sound s) (hph : s.core.status.phase = .tree) :
    (sderiveRule s).Ends Sound := by
  obtain ⟨st, h1, h2, -⟩ := sderiveRule_ok h.forest.toForest (h.root_valid hph)
  rw [h1]
  exact { counts := h.counts, paths := h2, pos := h.pos, forest := ⟨h.forest.toForest, h.forest.queued, h.forest.sorted⟩
          idle := h.idle, tree := h.tree
          results := ⟨h.results.1, h.results.2.1, fun hc => absurd hph hc, h.results.2.2.2⟩, held := h.held }

theorem rinitRule_sound {s : State} (h : Sound s) (hph : s.core.status.phase = .tree) : (rinitRule s).Ends Sound := by
  unfold rinitRule
  exact { counts := h.counts, paths := h.paths, pos := h.pos, forest := ⟨h.forest.toForest, h.forest.queued, h.forest.sorted⟩
          idle := h.idle, tree := h.tree
          results := ⟨h.results.1, fun _ => rfl, fun hc => absurd hph hc, h.results.2.2.2⟩
          held := (by decide : HighBitsZero 0#8 0#3) }

theorem readBit_held {s : State} (h : HighBitsZero s.core.racc s.core.rcnt) :
    (readBit s).Ends fun t => HighBitsZero t.core.racc t.core.rcnt := by
  unfold readBit
  split_ifs with h0
  · refine Res.ends_andThen ((srcRead_frame s).imp fun t ht => by rw [ht.2]; exact h) fun r u _ hu => ?_
    match r with
    | none => exact hu
    | some v => exact fresh_high v
  · exact take_high h0 h

theorem walkBits_held (n : Nat) (i : NodeIdx) (s : State) (h : HighBitsZero s.core.racc s.core.rcnt) :
    (walkBits n i s).Ends fun t => HighBitsZero t.core.racc t.core.rcnt := by
  induction n generalizing i s with
  | zero => trivial
  | succ n ih =>
    unfold walkBits
    split_ifs
    · trivial
    · split
      · exact Res.ends_andThen (readBit_held h) fun _ u _ hu => ih _ u hu
      · exact h
      · exact h

theorem rnextRule_sound {s : State} (h : Sound s) : (rnextRule s).Ends Sound := by
  have hheld : (rnextRule s).Ends fun t => HighBitsZero t.core.racc t.core.rcnt := by
    unfold rnextRule
    split_ifs
    · exact h.held
    · exact Res.ends_andThen (walkBits_held _ _ s h.held) fun _ u _ hu => hu
  have hout : (rnextRule s).Ends fun t => t.core.status.outv = false → t.core.outb = 0#8 := by
    unfold rnextRule
    split_ifs
    · exact fun _ => rfl
    · refine Res.ends_andThen ((walkBits_frame _ _ s).imp fun t ht => ?_) fun _ u _ _ => fun hc => ?_
      · rw [ht.2]; exact h.results.2.1
      · cases hc
  have hall : (rnextRule s).Ends fun t => (HighBitsZero t.core.racc t.core.rcnt ∧
      (t.core.status.outv = false → t.core.outb = 0#8)) ∧ SourceMoved s t ∧ t.core = { s.core with
        racc := t.core.racc, rcnt := t.core.rcnt, outb := t.core.outb, rrem := t.core.rrem
        status := { s.core.status with eom := t.core.status.eom, outv := t.core.status.outv } } := by
    have hfr := rnextRule_frame s
    cases hr : rnextRule s with
    | ok a t => rw [hr] at hheld hout hfr; exact ⟨⟨hheld, hout⟩, hfr⟩
    | raised k i t => rw [hr] at hheld hout hfr; exact ⟨⟨hheld, hout⟩, hfr⟩
    | abandoned t => rw [hr] at hheld hout hfr; exact ⟨⟨hheld, hout⟩, hfr⟩
    | stopped f => trivial
  refine hall.imp fun t ⟨⟨h1, h2⟩, hm, hc⟩ => ?_
  have hp := hm.pos_le h.pos
  obtain ⟨tc, th⟩ := t
  change tc = _ at hc
  rw [hc]
  exact { counts := h.counts, paths := h.paths, pos := hp
          forest := ⟨h.forest.toForest, h.forest.queued, h.forest.sorted⟩, idle := h.idle, tree := h.tree
          results := ⟨h.results.1, h2, h.results.2.2.1, h.results.2.2.2⟩, held := h1 }

/-! ### Rules of every phase -/

theorem Sound.of_sink {s t : State} (h : Sound s) (hm : SinkMoved s t)
    (hc : t.core = { s.core with wacc := t.core.wacc, wcnt := t.core.wcnt }) : Sound t := by
  refine h.of_core ?_ (by rw [hc])
  rw [hm.host]; exact h.pos

theorem Sound.of_source {s t : State} (h : Sound s) (hm : SourceMoved s t) (hc : t.core = s.core) : Sound t :=
  h.of_core (hm.pos_le h.pos) (by rw [hc])

theorem encodeLoop_sound {s : State} (h : Sound s) (n : Nat) : (encodeLoop n s).Ends Sound :=
  (encodeLoop_frame n s).imp fun _ ht => h.of_core (ht.1.pos_le h.pos) (by rw [ht.2])

theorem wflushRule_sound {s : State} (h : Sound s) : (wflushRule s).Ends Sound :=
  (wflushRule_frame s).imp fun _ ht => h.of_sink ht.1 ht.2

theorem decodeLoop_sound (n : Nat) : ∀ {s : State}, Sound s → (decodeLoop n s).Ends Sound := by
  induction n with
  | zero => intro s _; trivial
  | succ n ih =>
    intro s h
    unfold decodeLoop
    refine Res.ends_andThen (rnextRule_sound h) fun _ u _ hu => ?_
    split_ifs
    · exact hu
    · exact Res.ends_andThen ((snkWrite_frame _ u).imp fun t ht => hu.of_sink ht.1 (by rw [ht.2]))
        fun _ v _ hv => ih hv

/-- A rule that ends with a value and its property, to go on from. -/
theorem Res.Ends.and {α : Type} {P Q : State → Prop} {r : Res α} (h : r.Ends P) (h' : r.Ends Q) :
    r.Ends fun t => P t ∧ Q t := by
  cases r with
  | ok a s => exact ⟨h, h'⟩
  | raised k i s => exact ⟨h, h'⟩
  | abandoned s => exact ⟨h, h'⟩
  | stopped f => trivial

theorem qbuildRule_phase {s t : State} (h : qbuildRule s = .ok () t) : t.core.status.phase = .queue := by
  unfold qbuildRule at h
  split_ifs at h
  cases h; rfl

theorem treduceRule_phase {s t : State} (h : treduceRule s = .ok () t) : t.core.status.phase = .tree := by
  unfold treduceRule at h
  split_ifs at h
  obtain ⟨_, u, _, h⟩ := Res.andThen_eq_ok.1 h
  cases h; rfl

theorem encodeRule_sound {s : State} (h : s.host.pos ≤ s.host.src.length) : (encodeRule s).Ends Sound := by
  unfold encodeRule
  refine Res.ends_andThen (r := clrRule s) (Sound.cleared h) fun _ s1 h1 k1 => ?_
  have p1 : s1.core.status.phase = .idle := by cases h1; rfl
  refine Res.ends_andThen ((srcRewind_frame s1).imp fun t ht => k1.of_source ht.1 ht.2) fun _ s2 h2 k2 => ?_
  have p2 : s2.core.status.phase = .idle := by rw [((srcRewind_frame s1).of_ok h2).2]; exact p1
  refine Res.ends_andThen (fscanRule_sound k2 p2) fun _ s3 h3 k3 => ?_
  have p3 : s3.core.status.phase = .idle := by rw [((fscanRule_frame s2).of_ok h3).2.1]; exact p2
  refine Res.ends_andThen (qbuildRule_sound k3 p3) fun _ s4 h4 k4 => ?_
  refine Res.ends_andThen (treduceRule_sound k4 (qbuildRule_phase h4)) fun _ s5 h5 k5 => ?_
  refine Res.ends_andThen (sderiveRule_sound k5 (treduceRule_phase h5)) fun _ s6 _ k6 => ?_
  refine Res.ends_andThen ((hwriteRule_frame s6).imp fun t ht => k6.of_sink ht.1 (by rw [ht.2])) fun _ s7 _ k7 => ?_
  refine Res.ends_andThen ((srcRewind_frame s7).imp fun t ht => k7.of_source ht.1 ht.2) fun _ s8 _ k8 => ?_
  exact Res.ends_andThen (encodeLoop_sound k8 _) fun _ s9 _ k9 => wflushRule_sound k9

theorem readAll_sound {s : State} (h : Sound s) (hph : s.core.status.phase = .tree) : (readAll s).Ends Sound := by
  have hs := rinitRule_sound h hph
  unfold readAll
  unfold rinitRule at hs ⊢
  rw [Res.andThen_ok]
  generalize s.withCore _ = u at hs ⊢
  exact decodeLoop_sound _ hs

theorem decodeRule_sound {s : State} (h : s.host.pos ≤ s.host.src.length) : (decodeRule s).Ends Sound := by
  rw [decodeRule_eq]
  refine Res.ends_andThen (r := clrRule s) (Sound.cleared h) fun _ s1 h1 k1 => ?_
  have p1 : s1.core.status.phase = .idle := by cases h1; rfl
  refine Res.ends_andThen (hreadRule_sound k1 p1) fun _ s2 h2 k2 => ?_
  have p2 : s2.core.status.phase = .idle := by rw [((hreadRule_frame s1).of_ok h2).2.1]; exact p1
  refine Res.ends_andThen (qbuildRule_sound k2 p2) fun _ s3 h3 k3 => ?_
  refine Res.ends_andThen (treduceRule_sound k3 (qbuildRule_phase h3)) fun _ s4 h4 k4 => ?_
  exact readAll_sound k4 (treduceRule_phase h4)

/-- Every rule keeps R24, however it ends, from a state in which its precondition holds. -/
theorem ruleOf_sound (i : Instr) {s : State} (h : Sound s) (hp : precondition i s.core.status = true) :
    (ruleOf i s).Ends Sound := by
  cases i with
  | fscan => exact fscanRule_sound h (by simpa [precondition] using hp)
  | qbuild => exact qbuildRule_sound h (by simpa [precondition] using hp)
  | qins idx => exact qinsRule_sound h (by simpa [precondition] using hp) idx
  | qext => exact qextRule_sound h (by simpa [precondition] using hp)
  | tjoin => exact tjoinRule_sound h (by simpa [precondition] using hp)
  | treduce => exact treduceRule_sound h (by simpa [precondition] using hp)
  | sderive => exact sderiveRule_sound h (by simpa [precondition] using hp)
  | wbit d => exact (wbitRule_frame d s).imp fun _ ht => h.of_sink ht.1 ht.2
  | wsym sym => exact (wsymRule_frame sym s).imp fun _ ht => h.of_sink ht.1 ht.2
  | wflush => exact wflushRule_sound h
  | rinit => exact rinitRule_sound h (by simpa [precondition] using hp)
  | rnext => exact rnextRule_sound h
  | hwrite => exact (hwriteRule_frame s).imp fun _ ht => h.of_sink ht.1 (by rw [ht.2])
  | hread => exact hreadRule_sound h (by simpa [precondition] using hp)
  | encode => exact encodeRule_sound h.pos
  | decode => exact decodeRule_sound h.pos
  | clr => exact Sound.cleared h.pos
  | srew => exact (srcRewind_frame s).imp fun _ ht => h.of_source ht.1 ht.2

/-! ### The writer's half of R24 item 7, where a rule ends with a value -/

theorem wbitRule_writer {d : Decision} {s t : State} (h : WriterAgrees s) (ht : wbitRule d s = .ok () t) :
    WriterAgrees t := by
  unfold wbitRule at ht
  dsimp only at ht
  split_ifs at ht with h7
  · obtain ⟨_, u, _, hu⟩ := Res.andThen_eq_ok.1 ht
    cases hu
    exact (by decide : HighBitsZero 0#8 0#3)
  · cases ht
    exact (push_held h h7 d).2

theorem writePath_writer (p : Path) : ∀ {s t : State}, WriterAgrees s → writePath p s = .ok () t → WriterAgrees t := by
  induction p with
  | nil => rintro s t h ⟨⟩; exact h
  | cons d p ih =>
    intro s t h ht
    obtain ⟨_, u, hu, ht⟩ := Res.andThen_eq_ok.1 ht
    exact ih (wbitRule_writer h hu) ht

theorem wsymRule_writer {sym : Byte} {s t : State} (h : WriterAgrees s) (ht : wsymRule sym s = .ok () t) :
    WriterAgrees t := by
  unfold wsymRule at ht
  split at ht
  · cases ht
  · exact writePath_writer _ h ht

theorem wflushRule_writer {s t : State} (h : WriterAgrees s) (ht : wflushRule s = .ok () t) : WriterAgrees t := by
  unfold wflushRule at ht
  split_ifs at ht
  · cases ht; exact h
  · obtain ⟨_, u, _, hu⟩ := Res.andThen_eq_ok.1 ht
    cases hu
    exact (by decide : HighBitsZero 0#8 0#3)

theorem encodeLoop_writer (n : Nat) : ∀ {s t : State}, WriterAgrees s → encodeLoop n s = .ok () t → WriterAgrees t := by
  induction n with
  | zero => rintro s t _ ⟨⟩
  | succ n ih =>
    intro s t h ht
    unfold encodeLoop at ht
    obtain ⟨r, u, hu, ht⟩ := Res.andThen_eq_ok.1 ht
    have hw : WriterAgrees u := by rw [WriterAgrees, ((srcRead_frame s).of_ok hu).2]; exact h
    match r, ht with
    | none, ht => cases ht; exact hw
    | some b, ht =>
      obtain ⟨_, v, hv, ht⟩ := Res.andThen_eq_ok.1 ht
      exact ih (wsymRule_writer hw hv) ht

/-- `ENCODE` that ends with a value has flushed the writer (R163). -/
theorem encodeRule_writer {s t : State} (ht : encodeRule s = .ok () t) : WriterAgrees t := by
  obtain ⟨_, s1, h1, ht⟩ := Res.andThen_eq_ok.1 ht
  have w1 : WriterAgrees s1 := by cases h1; exact (by decide : HighBitsZero 0#8 0#3)
  obtain ⟨_, s2, h2, ht⟩ := Res.andThen_eq_ok.1 ht
  have w2 : WriterAgrees s2 := by rw [WriterAgrees, ((srcRewind_frame s1).of_ok h2).2]; exact w1
  obtain ⟨_, s3, h3, ht⟩ := Res.andThen_eq_ok.1 ht
  have w3 : WriterAgrees s3 := by rw [WriterAgrees, ((fscanRule_frame s2).of_ok h3).2.1]; exact w2
  obtain ⟨_, s4, h4, ht⟩ := Res.andThen_eq_ok.1 ht
  have w4 : WriterAgrees s4 := by rw [WriterAgrees, ((qbuildRule_frame s3).of_ok h4).2]; exact w3
  obtain ⟨_, s5, h5, ht⟩ := Res.andThen_eq_ok.1 ht
  have w5 : WriterAgrees s5 := by rw [WriterAgrees, ((treduceRule_frame s4).of_ok h5).2]; exact w4
  obtain ⟨_, s6, h6, ht⟩ := Res.andThen_eq_ok.1 ht
  have w6 : WriterAgrees s6 := by rw [WriterAgrees, ((sderiveRule_frame s5).of_ok h6).2]; exact w5
  obtain ⟨_, s7, h7, ht⟩ := Res.andThen_eq_ok.1 ht
  have w7 : WriterAgrees s7 := by rw [WriterAgrees, ((hwriteRule_frame s6).of_ok h7).2]; exact w6
  obtain ⟨_, s8, h8, ht⟩ := Res.andThen_eq_ok.1 ht
  have w8 : WriterAgrees s8 := by rw [WriterAgrees, ((srcRewind_frame s7).of_ok h8).2]; exact w7
  obtain ⟨_, s9, h9, ht⟩ := Res.andThen_eq_ok.1 ht
  exact wflushRule_writer (encodeLoop_writer _ w8 h9) ht

/-- Every rule that ends with a value keeps the writer's half of R24 item 7. -/
theorem ruleOf_writer (i : Instr) {s t : State} (h : WriterAgrees s) (ht : ruleOf i s = .ok () t) : WriterAgrees t := by
  cases i with
  | fscan => rw [WriterAgrees, ((fscanRule_frame s).of_ok ht).2.1]; exact h
  | qbuild => rw [WriterAgrees, ((qbuildRule_frame s).of_ok ht).2]; exact h
  | qins idx => rw [WriterAgrees, ((qinsRule_frame idx s).of_ok ht).2]; exact h
  | qext => rw [WriterAgrees, ((qextRule_frame s).of_ok ht).2]; exact h
  | tjoin => rw [WriterAgrees, ((tjoinRule_frame s).of_ok ht).2]; exact h
  | treduce => rw [WriterAgrees, ((treduceRule_frame s).of_ok ht).2]; exact h
  | sderive => rw [WriterAgrees, ((sderiveRule_frame s).of_ok ht).2]; exact h
  | wbit d => exact wbitRule_writer h ht
  | wsym sym => exact wsymRule_writer h ht
  | wflush => exact wflushRule_writer h ht
  | rinit => cases ht; exact h
  | rnext => rw [WriterAgrees, ((rnextRule_frame s).of_ok ht).2]; exact h
  | hwrite => rw [WriterAgrees, ((hwriteRule_frame s).of_ok ht).2]; exact h
  | hread => rw [WriterAgrees, ((hreadRule_frame s).of_ok ht).2.1]; exact h
  | encode => exact encodeRule_writer ht
  | decode => rw [WriterAgrees, ((decodeRule_frame s).of_ok ht).2]; exact (by decide : HighBitsZero 0#8 0#3)
  | clr => cases ht; exact (by decide : HighBitsZero 0#8 0#3)
  | srew => rw [WriterAgrees, ((srcRewind_frame s).of_ok ht).2]; exact h

/-! ### Stops only where the host never answers -/

/-- A rule run from `s` stops only where the host's coming replies hold one that never comes (R231). -/
def Stops {α : Type} (s : State) (r : Res α) : Prop :=
  ∀ f, r = .stopped f → f = .hostNeverAnswers ∧ HostReply.never ∈ s.host.replies

theorem Stops.andThen {α β : Type} {s : State} {r : Res α} {f : α → State → Res β} (h : Stops s r)
    (hs : r.Ends fun t => t.host.replies <:+ s.host.replies) (hf : ∀ a u, r = .ok a u → Stops u (f a u)) :
    Stops s (r.andThen f) := by
  intro x hr
  rcases Res.andThen_eq_stopped.1 hr with hr | ⟨a, u, hu, hr⟩
  · exact h x hr
  · rw [hu] at hs; exact ⟨(hf a u hu x hr).1, hs.subset (hf a u hu x hr).2⟩

theorem Stops.mono {α : Type} {s u : State} {r : Res α} (h : Stops u r) (hs : u.host.replies <:+ s.host.replies) :
    Stops s r := fun f hr => ⟨(h f hr).1, hs.subset (h f hr).2⟩

theorem stops_ok {α : Type} (s t : State) (a : α) : Stops s (.ok a t) := fun _ h => by cases h
theorem stops_raised {α : Type} (s t : State) (k : ErrorKind) (i : BitVec 32) :
    Stops (α := α) s (.raised k i t) := fun _ h => by cases h

theorem srcRead_stops (s : State) : Stops s (srcRead s) := by
  intro f h
  unfold srcRead at h
  split at h
  · split at h <;> cases h
  · cases h
  · cases h
  · next hn => cases h; exact ⟨rfl, mem_of_nextReply hn (by simp)⟩

theorem srcRewind_stops (s : State) : Stops s (srcRewind s) := by
  intro f h
  unfold srcRewind at h
  split at h
  · cases h
  · cases h
  · cases h
  · next hn => cases h; exact ⟨rfl, mem_of_nextReply hn (by simp)⟩

theorem snkWrite_stops (v : Byte) (s : State) : Stops s (snkWrite v s) := by
  intro f h
  unfold snkWrite at h
  split at h
  · cases h
  · cases h
  · cases h
  · next hn => cases h; exact ⟨rfl, mem_of_nextReply hn (by simp)⟩

theorem snkWriteAll_stops (vs : List Byte) (s : State) : Stops s (snkWriteAll vs s) := by
  induction vs generalizing s with
  | nil => exact stops_ok _ _ _
  | cons v vs ih =>
    exact (snkWrite_stops v s).andThen ((snkWrite_frame v s).imp fun t h => h.1.replies) fun _ u _ => ih u

/-- A byte read leaves one fewer unread. -/
theorem srcRead_unread {s t : State} {b : Byte} (h : srcRead s = .ok (some b) t) : s.unread = t.unread + 1 := by
  obtain ⟨-, hb, rfl⟩ := srcRead_eq_ok.1 h
  obtain ⟨hl, -⟩ := List.getElem?_eq_some_iff.1 hb.symm
  simp only [State.unread, Option.isSome_some, if_true]
  change s.host.src.length - s.host.pos = s.host.src.length - (s.host.pos + 1) + 1
  omega

theorem fscanLoop_stops (n : Nat) : ∀ {s : State}, s.unread < n → Stops s (fscanLoop n s) := by
  induction n with
  | zero => intro s h; exact absurd h (Nat.not_lt_zero _)
  | succ n ih =>
    intro s h
    unfold fscanLoop
    refine (srcRead_stops s).andThen ((srcRead_frame s).imp fun t h => h.1.replies) fun r u hu => ?_
    match r with
    | none => exact stops_ok _ _ _
    | some b =>
      have hl := srcRead_unread hu
      unfold countByte
      dsimp only
      split_ifs
      · exact stops_raised _ _ _ _
      · exact (ih (s := u.withCore _) (by change u.unread < n; omega)).mono List.suffix_rfl

theorem qbuildRule_stops (s : State) : Stops s (qbuildRule s) := by
  unfold qbuildRule
  split_ifs
  · exact stops_raised _ _ _ _
  · exact stops_ok _ _ _

theorem qinsRule_stops {s : State} (h : Sound s) (idx : NodeIdx) : Stops s (qinsRule idx s) := by
  by_cases he : eligible s.core idx = true
  · rw [qinsRule_ok h.forest he]; exact stops_ok _ _ _
  · rw [qinsRule, if_pos (by simpa using he)]; exact stops_raised _ _ _ _

theorem qextRule_stops (s : State) : Stops s (qextRule s) := by
  unfold qextRule
  split
  · exact stops_raised _ _ _ _
  · exact stops_ok _ _ _

theorem tjoinRule_stops {s : State} (h : Sound s) : Stops s (tjoinRule s) := by
  match hq : s.core.queue with
  | [] => rw [tjoinRule, hq]; exact stops_raised _ _ _ _
  | [_] => rw [tjoinRule, hq]; exact stops_raised _ _ _ _
  | a :: b :: q => rw [tjoinRule_ok h.forest hq]; exact stops_ok _ _ _

theorem treduceRule_stops {s : State} (h : Sound s) : Stops s (treduceRule s) := by
  by_cases hq : s.core.queue = []
  · rw [treduceRule, if_pos (by rw [hq]; rfl)]; exact stops_raised _ _ _ _
  · obtain ⟨c, x, h1, -⟩ := treduceRule_ok h.forest hq
    rw [h1]; exact stops_ok _ _ _

theorem sderiveRule_stops {s : State} (h : Sound s) (hph : s.core.status.phase = .tree) : Stops s (sderiveRule s) := by
  obtain ⟨st, h1, -⟩ := sderiveRule_ok h.forest.toForest (h.root_valid hph)
  rw [h1]; exact stops_ok _ _ _

theorem wbitRule_stops (d : Decision) (s : State) : Stops s (wbitRule d s) := by
  unfold wbitRule
  dsimp only
  split_ifs
  · exact ((snkWrite_stops _ _).mono List.suffix_rfl).andThen ((snkWrite_frame _ _).imp fun t h => h.1.replies)
      fun _ u _ => stops_ok _ _ _
  · exact stops_ok _ _ _

theorem writePath_stops (p : Path) (s : State) : Stops s (writePath p s) := by
  induction p generalizing s with
  | nil => exact stops_ok _ _ _
  | cons d p ih =>
    exact (wbitRule_stops d s).andThen ((wbitRule_frame d s).imp fun t h => h.1.replies) fun _ u _ => ih u

theorem wsymRule_stops (sym : Byte) (s : State) : Stops s (wsymRule sym s) := by
  unfold wsymRule
  split
  · exact stops_raised _ _ _ _
  · exact writePath_stops _ s

theorem wflushRule_stops (s : State) : Stops s (wflushRule s) := by
  unfold wflushRule
  split_ifs
  · exact stops_ok _ _ _
  · exact (snkWrite_stops _ s).andThen ((snkWrite_frame _ s).imp fun t h => h.1.replies) fun _ u _ => stops_ok _ _ _

theorem readBit_stops (s : State) : Stops s (readBit s) := by
  unfold readBit
  split_ifs
  · refine (srcRead_stops s).andThen ((srcRead_frame s).imp fun t h => h.1.replies) fun r u _ => ?_
    match r with
    | none => exact stops_raised _ _ _ _
    | some v => exact stops_ok _ _ _
  · exact stops_ok _ _ _

/-- A bit taken leaves one fewer. -/
theorem readBit_bitsLeft {s t : State} {b : Bool} (h : readBit s = .ok b t) : s.bitsLeft = t.bitsLeft + 1 := by
  unfold readBit at h
  split_ifs at h with h0
  · obtain ⟨r, u, hu, h⟩ := Res.andThen_eq_ok.1 h
    match r, hu, h with
    | none, _, h => cases h
    | some v, hu, h =>
      cases h
      have hl := srcRead_unread hu
      change s.core.rcnt.toNat + 8 * s.unread = 7 + 8 * u.unread + 1
      rw [h0, hl]
      simp
      omega
  · cases h
    have hne : s.core.rcnt.toNat ≠ 0 := fun hc => h0 (BitVec.eq_of_toNat_eq hc)
    have hlt := s.core.rcnt.isLt
    change s.core.rcnt.toNat + 8 * s.unread = (s.core.rcnt - 1#3).toNat + 8 * s.unread + 1
    have : (s.core.rcnt - 1#3).toNat = s.core.rcnt.toNat - 1 := by simp [BitVec.toNat_sub]; omega
    omega

theorem walkBits_stops (n : Nat) : ∀ {i : NodeIdx} {s : State} {ft next}, Forest ft s.core.tm next →
    validNode s.core.tm i = true → s.bitsLeft < n → Stops s (walkBits n i s) := by
  induction n with
  | zero => intro i s ft next _ _ h; exact absurd h (Nat.not_lt_zero _)
  | succ n ih =>
    intro i s ft next hf hv h
    have hne : i ≠ Config.noNode := by rintro rfl; simp [validNode] at hv
    unfold walkBits
    rw [if_neg hne]
    split
    · next w l r hn =>
      refine (readBit_stops s).andThen ((readBit_frame s).imp fun t h => h.1.replies) fun b u hu => ?_
      have hl := readBit_bitsLeft hu
      have htm : u.core.tm = s.core.tm := by rw [((readBit_frame s).of_ok hu).2]
      obtain ⟨-, -, h3, h4, -⟩ := hf.node hn
      refine ih (ft := ft) (next := next) (by rw [htm]; exact hf) ?_ (by omega)
      rw [htm]
      cases decisionOf b
      · exact h3
      · exact h4
    · exact stops_ok _ _ _
    · exact stops_ok _ _ _

theorem rnextRule_stops {s : State} (h : Sound s) (hph : s.core.status.phase = .tree) : Stops s (rnextRule s) := by
  unfold rnextRule
  split_ifs
  · exact stops_ok _ _ _
  · exact (walkBits_stops _ h.forest.toForest (h.root_valid hph) (Nat.lt_succ_self _)).andThen
      ((walkBits_frame _ _ s).imp fun t h => h.1.replies) fun _ u _ => stops_ok _ _ _

theorem hwriteRule_stops (s : State) : Stops s (hwriteRule s) := by
  unfold hwriteRule
  split_ifs
  · exact stops_raised _ _ _ _
  · exact snkWriteAll_stops _ s

theorem headerGet_stops (n : Nat) (s : State) : Stops s (headerGet n s) := by
  refine (srcRead_stops s).andThen ((srcRead_frame s).imp fun t h => h.1.replies) fun r u _ => ?_
  match r with
  | none => exact stops_raised _ _ _ _
  | some v => exact stops_ok _ _ _

theorem headerCount_stops (k n : Nat) (c : Count) (s : State) : Stops s (headerCount k n c s) := by
  induction k generalizing n c s with
  | zero => exact stops_ok _ _ _
  | succ k ih =>
    exact (headerGet_stops n s).andThen ((headerGet_frame n s).imp fun t h => h.1.replies) fun _ u _ => ih _ _ u

theorem headerEntries_stops (k i : Nat) (prev : Option Byte) (s : State) : Stops s (headerEntries k i prev s) := by
  induction k generalizing i prev s with
  | zero => exact stops_ok _ _ _
  | succ k ih =>
    unfold headerEntries
    refine (headerGet_stops _ s).andThen ((headerGet_frame _ s).imp fun t h => h.1.replies) fun v u _ => ?_
    refine (headerCount_stops _ _ _ u).andThen ((headerCount_frame _ _ _ u).imp fun t h => h.1.replies)
      fun c w _ => ?_
    split_ifs
    · exact stops_raised _ _ _ _
    · exact stops_raised _ _ _ _
    · exact (ih _ _ _).mono List.suffix_rfl

theorem hreadRule_stops (s : State) : Stops s (hreadRule s) :=
  ((headerGet_stops 0 _).mono List.suffix_rfl).andThen ((headerGet_frame 0 _).imp fun _ h => h.1.replies)
    fun _ u _ => headerEntries_stops _ _ _ u

theorem encodeLoop_stops (n : Nat) : ∀ {s : State}, s.unread < n → Stops s (encodeLoop n s) := by
  induction n with
  | zero => intro s h; exact absurd h (Nat.not_lt_zero _)
  | succ n ih =>
    intro s h
    unfold encodeLoop
    refine (srcRead_stops s).andThen ((srcRead_frame s).imp fun t h => h.1.replies) fun r u hu => ?_
    match r with
    | none => exact stops_ok _ _ _
    | some b =>
      have hl := srcRead_unread hu
      refine (wsymRule_stops b u).andThen ((wsymRule_frame b u).imp fun t h => h.1.replies) fun _ v hv => ih ?_
      have hm := ((wsymRule_frame b u).of_ok hv).1.host
      have : v.unread = u.unread := by rw [State.unread, hm]; rfl
      omega

theorem decodeLoop_stops (n : Nat) : ∀ {s : State}, Sound s → s.core.status.phase = .tree →
    s.core.rrem.toNat < n → Stops s (decodeLoop n s) := by
  induction n with
  | zero => intro s _ _ h; exact absurd h (Nat.not_lt_zero _)
  | succ n ih =>
    intro s hs hph h
    unfold decodeLoop
    refine (rnextRule_stops hs hph).andThen ((rnextRule_frame s).imp fun t h => h.1.replies) fun _ u hu => ?_
    split_ifs with he
    · exact stops_ok _ _ _
    · refine (snkWrite_stops _ u).andThen ((snkWrite_frame _ u).imp fun t h => h.1.replies) fun _ v hv => ?_
      have hus := (rnextRule_sound hs).of_ok hu
      have hvf := (snkWrite_frame _ u).of_ok hv
      have hup : u.core.status.phase = .tree := by rw [((rnextRule_frame s).of_ok hu).2]; exact hph
      refine ih (hus.of_sink hvf.1 (by rw [hvf.2])) (by rw [hvf.2]; exact hup) ?_
      rw [hvf.2]
      unfold rnextRule at hu
      split_ifs at hu with h0
      · cases hu; exact absurd rfl he
      · obtain ⟨_, w, hw, hu⟩ := Res.andThen_eq_ok.1 hu
        cases hu
        have hr : w.core.rrem = s.core.rrem := by rw [((walkBits_frame _ _ s).of_ok hw).2]
        have hne : s.core.rrem.toNat ≠ 0 := fun hc => h0 (BitVec.eq_of_toNat_eq hc)
        have hlt := s.core.rrem.isLt
        change (w.core.rrem - 1#72).toNat < n
        rw [hr]
        have : (s.core.rrem - 1#72).toNat = s.core.rrem.toNat - 1 := by simp [BitVec.toNat_sub]; omega
        omega

theorem encodeRule_stops {s : State} (h : s.host.pos ≤ s.host.src.length) : Stops s (encodeRule s) := by
  unfold encodeRule
  refine (stops_ok s s.cleared ()).andThen (r := clrRule s) List.suffix_rfl fun _ s1 h1 => ?_
  have k1 : Sound s1 := by cases h1; exact Sound.cleared h
  have p1 : s1.core.status.phase = .idle := by cases h1; rfl
  refine (srcRewind_stops s1).andThen ((srcRewind_frame s1).imp fun t h => h.1.replies) fun _ s2 h2 => ?_
  have f2 := (srcRewind_frame s1).of_ok h2
  have k2 := k1.of_source f2.1 f2.2
  have p2 : s2.core.status.phase = .idle := by rw [f2.2]; exact p1
  refine (fscanLoop_stops _ (Nat.lt_succ_self _)).andThen (r := fscanRule s2)
    ((fscanRule_frame s2).imp fun t h => h.1.replies) fun _ s3 h3 => ?_
  have k3 := (fscanRule_sound k2 p2).of_ok h3
  have p3 : s3.core.status.phase = .idle := by rw [((fscanRule_frame s2).of_ok h3).2.1]; exact p2
  refine (qbuildRule_stops s3).andThen ((qbuildRule_frame s3).imp fun t h => by rw [h.1]) fun _ s4 h4 => ?_
  have k4 := (qbuildRule_sound k3 p3).of_ok h4
  refine (treduceRule_stops k4).andThen ((treduceRule_frame s4).imp fun t h => by rw [h.1]) fun _ s5 h5 => ?_
  have k5 := (treduceRule_sound k4 (qbuildRule_phase h4)).of_ok h5
  refine (sderiveRule_stops k5 (treduceRule_phase h5)).andThen ((sderiveRule_frame s5).imp fun t h => by rw [h.1])
    fun _ s6 h6 => ?_
  refine (hwriteRule_stops s6).andThen ((hwriteRule_frame s6).imp fun t h => h.1.replies) fun _ s7 h7 => ?_
  refine (srcRewind_stops s7).andThen ((srcRewind_frame s7).imp fun t h => h.1.replies) fun _ s8 h8 => ?_
  exact (encodeLoop_stops _ (Nat.lt_succ_self _)).andThen ((encodeLoop_frame _ s8).imp fun t h => h.1.replies)
    fun _ s9 _ => wflushRule_stops s9

theorem readAll_stops {s : State} (h : Sound s) (hph : s.core.status.phase = .tree) : Stops s (readAll s) := by
  have hs := rinitRule_sound h hph
  unfold readAll
  unfold rinitRule at hs ⊢
  rw [Res.andThen_ok]
  generalize hu : s.withCore _ = u at hs ⊢
  have h1 : u.core.status.phase = .tree := by rw [← hu]; exact hph
  have h2 : u.host = s.host := by rw [← hu]; rfl
  exact (decodeLoop_stops _ hs h1 (Nat.lt_succ_self _)).mono (by rw [h2])

theorem decodeRule_stops {s : State} (h : s.host.pos ≤ s.host.src.length) : Stops s (decodeRule s) := by
  rw [decodeRule_eq]
  refine (stops_ok s s.cleared ()).andThen (r := clrRule s) List.suffix_rfl fun _ s1 h1 => ?_
  have k1 : Sound s1 := by cases h1; exact Sound.cleared h
  have p1 : s1.core.status.phase = .idle := by cases h1; rfl
  refine (hreadRule_stops s1).andThen ((hreadRule_frame s1).imp fun t h => h.1.replies) fun _ s2 h2 => ?_
  have k2 := (hreadRule_sound k1 p1).of_ok h2
  have p2 : s2.core.status.phase = .idle := by rw [((hreadRule_frame s1).of_ok h2).2.1]; exact p1
  refine (qbuildRule_stops s2).andThen ((qbuildRule_frame s2).imp fun t h => by rw [h.1]) fun _ s3 h3 => ?_
  have k3 := (qbuildRule_sound k2 p2).of_ok h3
  refine (treduceRule_stops k3).andThen ((treduceRule_frame s3).imp fun t h => by rw [h.1]) fun _ s4 h4 => ?_
  exact readAll_stops ((treduceRule_sound k3 (qbuildRule_phase h3)).of_ok h4) (treduceRule_phase h4)

/-- In a state that meets R24 a rule stops only where the host never answers: every loop ends within its bound, and no
record outside a memory is met (log entries 8, 14, 15, 25). -/
theorem ruleOf_stops (i : Instr) {s : State} (h : Sound s) (hp : precondition i s.core.status = true) :
    Stops s (ruleOf i s) := by
  cases i with
  | fscan => exact fscanLoop_stops _ (Nat.lt_succ_self _)
  | qbuild => exact qbuildRule_stops s
  | qins idx => exact qinsRule_stops h idx
  | qext => exact qextRule_stops s
  | tjoin => exact tjoinRule_stops h
  | treduce => exact treduceRule_stops h
  | sderive => exact sderiveRule_stops h (by simpa [precondition] using hp)
  | wbit d => exact wbitRule_stops d s
  | wsym sym => exact wsymRule_stops sym s
  | wflush => exact wflushRule_stops s
  | rinit => exact stops_ok _ _ _
  | rnext =>
    refine rnextRule_stops h ?_
    simp [precondition] at hp
    exact hp.1.1
  | hwrite => exact hwriteRule_stops s
  | hread => exact hreadRule_stops s
  | encode => exact encodeRule_stops h.pos
  | decode => exact decodeRule_stops h.pos
  | clr => exact stops_ok _ _ _
  | srew => exact srcRewind_stops s

end Sys2Proof.Machine
end

