-- ==== Sys2Proof/Laws/Weights.lean ====
section
/-! SUPPORT. Weights are exact (R29, R185): in a forest the weight of a node is the sum of the counts of its leaves, and
sums over disjoint trees stay below 2^72. -/

namespace Sys2Proof.Machine

/-- A sum of words that fits is the sum of their numbers. -/
theorem toNat_sum {n : Nat} : ∀ l : List (BitVec n), (l.map BitVec.toNat).sum < 2 ^ n →
    l.sum.toNat = (l.map BitVec.toNat).sum := by
  intro l
  induction l with
  | nil => intro _; simp
  | cons x l ih =>
    intro h
    rw [List.map_cons, List.sum_cons] at h ⊢
    rw [List.sum_cons, BitVec.toNat_add, ih (by omega), Nat.mod_eq_of_lt h]

/-- Each summand bounded, so is the sum. -/
theorem sum_le_length_mul {α : Type} {f : α → Nat} {k : Nat} (hf : ∀ a, f a ≤ k) (l : List α) :
    (l.map f).sum ≤ l.length * k := by
  induction l with
  | nil => simp
  | cons a l ih =>
    rw [List.map_cons, List.sum_cons, List.length_cons, Nat.add_mul, Nat.one_mul]
    have := hf a; omega

/-- A sum in which only one member counts. -/
theorem sum_ite_mem {α : Type} [DecidableEq α] (f : α → Nat) {l : List α} (hl : l.Nodup) {a : α} (ha : a ∈ l) :
    (l.map fun b => if b = a then f b else 0).sum = f a := by
  induction l with
  | nil => cases ha
  | cons x l ih =>
    obtain ⟨hx, hl⟩ := List.nodup_cons.1 hl
    rw [List.map_cons, List.sum_cons]
    by_cases hxa : x = a
    · subst hxa
      have : (l.map fun b => if b = x then f b else 0) = l.map fun _ => 0 :=
        List.map_congr_left fun b hb => if_neg fun hc : b = x => hx (hc ▸ hb)
      rw [this]; simp
    · rw [if_neg hxa, ih hl ((List.mem_cons.1 ha).resolve_left fun hc => hxa hc.symm), Nat.zero_add]

/-- The exact sum of all counts. -/
def countSum (ft : Memory Count) : Nat := (allBytes.map fun b => (countAt ft b).toNat).sum

theorem countSum_lt (ft : Memory Count) : countSum ft < 2 ^ 72 := by
  have h := sum_le_length_mul (f := fun b => (countAt ft b).toNat) (k := 2 ^ 64 - 1)
    (fun b => Nat.le_sub_one_of_lt (countAt ft b).isLt) allBytes
  have hl : allBytes.length = 256 := by simp [allBytes, Config.nsymMax]
  rw [hl] at h
  exact lt_of_le_of_lt h (by norm_num)

theorem toNat_count72 (c : Count) : (c.setWidth 72).toNat = c.toNat := by
  rw [BitVec.toNat_setWidth]; exact Nat.mod_eq_of_lt (lt_of_lt_of_le c.isLt (by norm_num))

/-- `total` is the exact sum (R29). -/
theorem total_toNat (ft : Memory Count) : (total ft).toNat = countSum ft := by
  have he : (allBytes.map fun b => (countAt ft b).setWidth 72).map BitVec.toNat =
      allBytes.map fun b => (countAt ft b).toNat := by
    rw [List.map_map]; exact List.map_congr_left fun b _ => toNat_count72 _
  have hs := congrArg List.sum he
  have hlt : (allBytes.map fun b => (countAt ft b).toNat).sum < 2 ^ 72 := countSum_lt ft
  rw [total, toNat_sum _ (by rw [hs]; exact hlt), hs]
  rfl

/-- The tree at `i` has a leaf of `b`. -/
def HasLeaf (tm : Memory Node) (i : NodeIdx) (b : Byte) : Prop := ∃ p, leadsToLeaf tm i p b = true

open Classical in
/-- The exact sum of the counts of the leaves of the tree at `i`. -/
noncomputable def leafSum (ft : Memory Count) (tm : Memory Node) (i : NodeIdx) : Nat :=
  (allBytes.map fun b => if HasLeaf tm i b then (countAt ft b).toNat else 0).sum

open Classical in
/-- The trees of a list of nodes that share no leaf: their leaf sums together are at most the sum of all counts. -/
theorem sum_leafSum_le {ft : Memory Count} {tm : Memory Node} : ∀ q : List NodeIdx,
    q.Pairwise (fun i j => ∀ b, HasLeaf tm i b → ¬ HasLeaf tm j b) → (q.map (leafSum ft tm)).sum ≤ countSum ft := by
  have key : ∀ q : List NodeIdx, q.Pairwise (fun i j => ∀ b, HasLeaf tm i b → ¬ HasLeaf tm j b) →
      (q.map (leafSum ft tm)).sum =
        (allBytes.map fun b => if ∃ i ∈ q, HasLeaf tm i b then (countAt ft b).toNat else 0).sum := by
    intro q
    induction q with
    | nil => intro _; simp
    | cons i q ih =>
      intro h
      obtain ⟨h1, h2⟩ := List.pairwise_cons.1 h
      rw [List.map_cons, List.sum_cons, ih h2, leafSum, ← List.sum_map_add]
      refine congrArg List.sum (List.map_congr_left fun b _ => ?_)
      by_cases hi : HasLeaf tm i b
      · have hn : ¬ ∃ j ∈ q, HasLeaf tm j b := fun ⟨j, hj, hb⟩ => h1 j hj b hi hb
        simp [hi, hn]
      · simp [hi]
  intro q h
  rw [key q h, countSum]
  refine List.sum_le_sum fun b _ => ?_
  split_ifs <;> omega

theorem Forest.leafSum_children {ft tm next} (h : Forest ft tm next) {i w l r}
    (hi : nodeAt tm i = some (.internal w l r)) : leafSum ft tm l + leafSum ft tm r < 2 ^ 72 := by
  have hs := sum_leafSum_le (ft := ft) (tm := tm) [l, r] (by
    refine List.pairwise_cons.2 ⟨fun j hj b hl hr => ?_, List.pairwise_singleton _ _⟩
    rw [List.mem_singleton.1 hj] at hr
    obtain ⟨p, hp⟩ := hl
    obtain ⟨q, hq⟩ := hr
    exact h.subtrees_disjoint hi hp hq)
  simp only [List.map_cons, List.map_nil, List.sum_cons, List.sum_nil, Nat.add_zero] at hs
  exact lt_of_le_of_lt hs (countSum_lt ft)

/-- The weight of a node is the exact sum of the counts of its leaves (R24 items 1 and 2, R185). -/
theorem Forest.weight_toNat {ft tm next} (h : Forest ft tm next) : ∀ i, validNode tm i = true →
    (weight tm i).toNat = leafSum ft tm i := by
  classical
  refine h.induction (fun i sym w hi => ?_) (fun i w l r hi ihl ihr => ?_)
  · have hw : weight tm i = (countAt ft sym).setWidth 72 := by rw [weight, hi]; exact (h.leaf hi).2.1
    rw [hw, toNat_count72, leafSum]
    have : ∀ b, HasLeaf tm i b ↔ b = sym := fun b => by
      constructor
      · rintro ⟨p, hp⟩; exact ((leadsToLeaf_leaf hi p b).1 hp).2
      · rintro rfl; exact ⟨[], (leadsToLeaf_leaf hi _ _).2 ⟨rfl, rfl⟩⟩
    rw [← sum_ite_mem (fun b => (countAt ft b).toNat) allBytes_nodup (mem_allBytes sym)]
    refine congrArg List.sum (List.map_congr_left fun b _ => ?_)
    by_cases hb : b = sym <;> simp [this, hb]
  · have hlt := h.leafSum_children hi
    have hw : weight tm i = weight tm l + weight tm r := by rw [weight, hi]; exact (h.node hi).2.2.2.2.2.2
    rw [hw, BitVec.toNat_add, ihl, ihr, Nat.mod_eq_of_lt hlt, leafSum, leafSum, leafSum, ← List.sum_map_add]
    refine congrArg List.sum (List.map_congr_left fun b _ => ?_)
    have hb : HasLeaf tm i b ↔ HasLeaf tm l b ∨ HasLeaf tm r b := by
      constructor
      · rintro ⟨p, hp⟩
        obtain ⟨d, p', -, hp'⟩ := (leadsToLeaf_node hi p b).1 hp
        cases d
        · exact .inl ⟨p', hp'⟩
        · exact .inr ⟨p', hp'⟩
      · rintro (⟨p, hp⟩ | ⟨p, hp⟩)
        · exact ⟨.left :: p, (leadsToLeaf_node hi _ _).2 ⟨.left, p, rfl, hp⟩⟩
        · exact ⟨.right :: p, (leadsToLeaf_node hi _ _).2 ⟨.right, p, rfl, hp⟩⟩
    by_cases hl : HasLeaf tm l b
    · have hr : ¬ HasLeaf tm r b := fun ⟨q, hq⟩ => by
        obtain ⟨p, hp⟩ := hl; exact h.subtrees_disjoint hi hp hq
      simp [hb, hl, hr]
    · simp [hb, hl]

/-- Sums of weights over different free roots are exact (R185). -/
theorem Forest.sum_weights {ft tm next} (h : Forest ft tm next) {q : List NodeIdx} (hq : q.Nodup)
    (hf : ∀ i ∈ q, freeRoot tm i = true) :
    (q.map (weight tm)).sum.toNat = (q.map fun i => (weight tm i).toNat).sum ∧
    (q.map fun i => (weight tm i).toNat).sum < 2 ^ 72 := by
  have he : (q.map fun i => (weight tm i).toNat) = q.map (leafSum ft tm) :=
    List.map_congr_left fun i hi => h.weight_toNat i ((freeRoot_iff i).1 (hf i hi)).1
  have hlt : (q.map fun i => (weight tm i).toNat).sum < 2 ^ 72 := by
    rw [he]
    refine lt_of_le_of_lt (sum_leafSum_le q ?_) (countSum_lt ft)
    refine hq.imp_of_mem fun {i j} hi hj hij b hb hb' => ?_
    obtain ⟨p, hp⟩ := hb
    obtain ⟨p', hp'⟩ := hb'
    exact hij (h.path_unique (hf i hi) (hf j hj) hp hp').1
  have hm : (q.map (weight tm)).map BitVec.toNat = q.map fun i => (weight tm i).toNat := List.map_map
  exact ⟨by rw [toNat_sum _ (by rw [hm]; exact hlt), hm], hlt⟩

/-- The weight of an internal node is the exact sum of its children's (R24 item 2, R185). -/
theorem Forest.weight_node {ft tm next} (h : Forest ft tm next) {i w l r}
    (hi : nodeAt tm i = some (.internal w l r)) : w.toNat = (weight tm l).toNat + (weight tm r).toNat := by
  obtain ⟨-, -, hl, hr, -, -, hw⟩ := h.node hi
  rw [hw, BitVec.toNat_add, h.weight_toNat l hl, h.weight_toNat r hr, Nat.mod_eq_of_lt (h.leafSum_children hi)]

end Sys2Proof.Machine
end

