-- ==== Sys2Proof/Laws/Container.lean ====
section
/-! SUPPORT. Whole streams on a host that serves (R163, R164, R166, R167): the tree a table determines, what `ENCODE` writes,
and that `DECODE` reads it back. -/

namespace Sys2Proof.Machine

/-! ### Rules of the CORE alone: the host side does not show -/

/-- The same end with another host side. -/
def Res.onHost {α : Type} (h : HostSide) : Res α → Res α
  | .ok a s => .ok a { core := s.core, host := h }
  | .raised k i s => .raised k i { core := s.core, host := h }
  | .abandoned s => .abandoned { core := s.core, host := h }
  | .stopped f => .stopped f

theorem Res.onHost_andThen {α β : Type} {h : HostSide} {r : Res α} {f : α → State → Res β}
    (hf : ∀ a s, f a { core := s.core, host := h } = (f a s).onHost h) :
    (r.onHost h).andThen f = (r.andThen f).onHost h := by
  cases r with
  | ok a s => exact hf a s
  | raised k i s => rfl
  | abandoned s => rfl
  | stopped x => rfl

theorem qbuildRule_onHost (h : HostSide) (s : State) :
    qbuildRule { core := s.core, host := h } = (qbuildRule s).onHost h := by
  unfold qbuildRule
  dsimp only
  split_ifs <;> rfl

theorem tjoinRule_onHost (h : HostSide) (s : State) :
    tjoinRule { core := s.core, host := h } = (tjoinRule s).onHost h := by
  unfold tjoinRule
  dsimp only
  match s.core.queue with
  | [] => rfl
  | [_] => rfl
  | a :: b :: q =>
    dsimp only
    split_ifs
    · rfl
    · cases orderFault (setNode s.core.tm s.core.nextNode (joinNode s.core.tm a b)) (s.core.nextNode :: q) <;> rfl

theorem reduceLoop_onHost (h : HostSide) (n : Nat) : ∀ s : State,
    reduceLoop n { core := s.core, host := h } = (reduceLoop n s).onHost h := by
  induction n with
  | zero => intro s; rfl
  | succ n ih =>
    intro s
    unfold reduceLoop
    dsimp only
    split_ifs
    · rfl
    · rw [tjoinRule_onHost, Res.onHost_andThen fun _ u => ih u]

theorem treduceRule_onHost (h : HostSide) (s : State) :
    treduceRule { core := s.core, host := h } = (treduceRule s).onHost h := by
  unfold treduceRule
  dsimp only
  split_ifs
  · rfl
  · rw [reduceLoop_onHost, Res.onHost_andThen fun _ u => rfl]

/-! ### The tree of a table -/

/-- The CORE out of `CLR` with a table. -/
def tableCore (ft : Memory Count) : CoreState := { CoreState.reset with ft := ft }

/-- `QBUILD` then `TREDUCE`. -/
def growRule (s : State) : Res Unit := (qbuildRule s).andThen fun _ s => treduceRule s

/-- The CORE after `QBUILD` and `TREDUCE` of a table out of `CLR`. -/
@[irreducible] def plant (ft : Memory Count) : CoreState :=
  match growRule { core := tableCore ft, host := HostSide.reset } with
  | .ok _ t => t.core
  | .raised _ _ t => t.core
  | .abandoned t => t.core
  | .stopped _ => tableCore ft

/-- The table determines the tree (R122, R167): its leaves are the present bytes. -/
theorem plant_spec {ft : Memory Count} (hn : nsym ft ≠ 0) :
    (∀ s : State, s.core = tableCore ft → growRule s = .ok () (s.withCore (plant ft))) ∧
    (∃ next, Forest ft (plant ft).tm next) ∧ freeRoot (plant ft).tm (plant ft).root = true ∧
    (∀ b, (∃ p, leadsToLeaf (plant ft).tm (plant ft).root p b = true) ↔ present ft b = true) ∧
    plant ft = { tableCore ft with
      tm := (plant ft).tm, root := (plant ft).root, nextNode := (plant ft).nextNode
      status := (tableCore ft).status.enterTree } := by
  have hb : QueueForest (tableCore ft).built := built_forest rfl rfl
  have hlen : (tableCore ft).built.queue.length = nsym ft := built_queue_length _
  have hne : (tableCore ft).built.queue ≠ [] := fun hc => by rw [hc] at hlen; exact hn hlen.symm
  obtain ⟨c, x, h1, h2, h3, h4, hj⟩ :=
    treduceRule_ok (s := { core := (tableCore ft).built, host := HostSide.reset }) hb hne
  obtain ⟨d, hd, hgrow⟩ : ∃ d : CoreState, d = { (tableCore ft).built with
      tm := c.tm, queue := [], root := x, nextNode := c.nextNode, xn := Config.noNode
      status := (tableCore ft).built.status.enterTree } ∧
      growRule { core := tableCore ft, host := HostSide.reset } = .ok () { core := d, host := HostSide.reset } := by
    refine ⟨_, rfl, ?_⟩
    rw [growRule, qbuildRule_ok (s := { core := tableCore ft, host := HostSide.reset }) hn, Res.andThen_ok]
    exact h1
  have hp : plant ft = d := by unfold plant; rw [hgrow]
  refine ⟨fun s hs => ?_, ⟨c.nextNode, ?_⟩, ?_, fun b => ?_, ?_⟩
  · have : s = { core := tableCore ft, host := s.host } := by rw [← hs]
    rw [this, growRule, qbuildRule_onHost s.host { core := tableCore ft, host := HostSide.reset },
      Res.onHost_andThen fun _ u => treduceRule_onHost s.host u]
    rw [growRule] at hgrow
    rw [hgrow, hp]; rfl
  · rw [hp, hd]; have := h2.toForest; rw [h4] at this; exact this
  · rw [hp, hd]; exact h2.queued x (by rw [h3]; exact List.mem_cons_self)
  · rw [hp, hd]
    have := hj.leaves b
    rw [h3] at this
    refine (show (∃ p, leadsToLeaf c.tm x p b = true) ↔ _ from by simpa using this).trans ?_
    constructor
    · rintro ⟨i, hi, p, hp⟩
      obtain ⟨b', hb', rfl⟩ := List.mem_map.1 ((sorted_leaves ft []).1.mem_iff.1 hi)
      have := (nodeAt_putLeaves ft [] (leafIdx b')).1 b' (mem_presentBytes.1 hb') rfl
      obtain ⟨-, rfl⟩ := (leadsToLeaf_leaf this p b).1 hp
      exact mem_presentBytes.1 hb'
    · intro hb'
      refine ⟨leafIdx b, (sorted_leaves ft []).1.mem_iff.2
        (List.mem_map.2 ⟨b, mem_presentBytes.2 hb', rfl⟩), [], ?_⟩
      exact (leadsToLeaf_leaf ((nodeAt_putLeaves ft [] (leafIdx b)).1 b hb' rfl) _ _).2 ⟨rfl, rfl⟩
  · rw [hp, hd]; rfl

/-! ### ENCODE -/

theorem SinkMoved.rest {s t : State} (h : SinkMoved s t) : t.rest = s.rest ∧ t.host.pos = s.host.pos := by
  rw [State.rest, State.rest, h.host]; exact ⟨rfl, rfl⟩

/-- The bits of the codewords of a message. -/
def codeBits (st : Memory Path) (bs : List Byte) : List Bool := bs.flatMap fun b => pathBools ((pathAt st b).getD [])

/-- The second pass of `ENCODE` (R163): the codewords of the source's bytes in order. -/
theorem encodeLoop_bits (bs : List Byte) : ∀ {s : State}, Serving s → WriterAgrees s → s.rest = bs →
    (∀ b ∈ bs, pathAt s.core.st b ≠ none) →
    ∃ t, encodeLoop (bs.length + 1) s = .ok () t ∧ WriterAgrees t ∧ t.host.pos = s.host.pos + bs.length ∧
      writtenBits t = writtenBits s ++ codeBits s.core.st bs := by
  induction bs with
  | nil =>
    intro s h hw hr _
    refine ⟨s.moved 1 s.host.pos s.host.snk, ?_, hw, rfl, ?_⟩
    · rw [List.length_nil, encodeLoop, srcRead_nil h hr]; rfl
    · simp [codeBits, writtenBits]
  | cons b bs ih =>
    intro s h hw hr hp
    match hb : pathAt s.core.st b with
    | none => exact absurd hb (hp b List.mem_cons_self)
    | some p =>
      obtain ⟨u, hu, hwu, hbu⟩ := wsymRule_bits (s := s.took 1) (h.took 1) hw (sym := b) (p := p) hb
      obtain ⟨hm, hc⟩ := (wsymRule_frame b (s.took 1)).of_ok hu
      have hst : u.core.st = s.core.st := by rw [hc]; rfl
      obtain ⟨t, e1, e2, e3, e4⟩ := ih (s := u) ((h.took 1).of_sinkMoved hm) hwu
        (by rw [hm.rest.1, State.took_rest, hr]; rfl)
        (fun x hx => by rw [hst]; exact hp x (List.mem_cons_of_mem _ hx))
      refine ⟨t, ?_, e2, ?_, ?_⟩
      · rw [List.length_cons, encodeLoop, srcRead_cons h hr, Res.andThen_ok]
        simp only [hu, Res.andThen_ok]
        exact e1
      · rw [e3, hm.rest.2, State.took_pos, List.length_cons]; omega
      · rw [e4, hbu, hst]
        have : writtenBits (s.took 1) = writtenBits s := rfl
        rw [this, codeBits, codeBits, List.flatMap_cons, hb, Option.getD_some, List.append_assoc]

theorem encodeLoop_moved {s t : State} {n : Nat} (h : encodeLoop n s = .ok () t) :
    StreamsMoved s t ∧ t.core = { s.core with wacc := t.core.wacc, wcnt := t.core.wcnt } :=
  (encodeLoop_frame n s).of_ok h

/-- The table of a message: `FT` after `FSCAN` of it out of `CLR`. -/
structure TableOf (ft : Memory Count) (m : List Byte) : Prop where
  wf : countsWf ft
  counts : ∀ b, (countAt ft b).toNat = m.count b

theorem TableOf.present_iff {ft : Memory Count} {m : List Byte} (h : TableOf ft m) (b : Byte) :
    present ft b = true ↔ b ∈ m := by
  rw [Machine.present_iff, ← List.count_pos_iff, ← h.counts b]
  constructor
  · intro hc
    exact Nat.pos_of_ne_zero fun h0 => hc (BitVec.eq_of_toNat_eq h0)
  · intro hc h0
    rw [h0] at hc
    exact absurd hc (by decide)

theorem TableOf.nsym {ft : Memory Count} {m : List Byte} (h : TableOf ft m) : nsym ft = m.dedup.length := by
  refine (List.perm_of_nodup_nodup_toFinset_eq (presentBytes_nodup ft) (List.nodup_dedup m) ?_).length_eq
  ext b
  simp [h.present_iff]

theorem TableOf.nsym_ne {ft : Memory Count} {m : List Byte} (h : TableOf ft m) (hm : m ≠ []) : Machine.nsym ft ≠ 0 := by
  rw [h.nsym]
  intro hc
  obtain ⟨b, hb⟩ := List.exists_mem_of_ne_nil m hm
  rw [List.length_eq_zero_iff] at hc
  exact absurd (List.mem_dedup.2 hb) (by rw [hc]; exact List.not_mem_nil)

theorem TableOf.unique {ft ft' : Memory Count} {m : List Byte} (h : TableOf ft m) (h' : TableOf ft' m) : ft = ft' :=
  counts_ext h.wf h'.wf fun b => BitVec.eq_of_toNat_eq ((h.counts b).trans (h'.counts b).symm)

/-- The statements of `ENCODE` from the header on (R163). -/
def writeAll (s : State) : Res Unit :=
  (hwriteRule s).andThen fun _ s => (srcRewind s).andThen fun _ s =>
    (encodeLoop (s.unread + 1) s).andThen fun _ s => wflushRule s

/-- `ENCODE` up to the header on a host that serves: the table, the tree and the symbol table of the source (R163). -/
theorem encodeRule_front {s : State} (h : Serving s) (hne : s.host.src ≠ []) (hc : ∀ b, s.host.src.count b < 2 ^ 64) :
    ∃ u ft st, TableOf ft s.host.src ∧ encodeRule s = writeAll u ∧
      u.core = { plant ft with st := st, status := (plant ft).status.setStv } ∧
      (∀ b p, pathAt st b = some p ↔ leadsToLeaf (plant ft).tm (plant ft).root p b = true) ∧
      Serving u ∧ u.host.src = s.host.src ∧ u.host.snk = s.host.snk := by
  obtain ⟨s1, hs1⟩ : ∃ s1, s1 = s.cleared.moved 1 0 s.host.snk := ⟨_, rfl⟩
  have v1 : Serving s1 := by rw [hs1]; exact (h.withCore _).moved _ _ _
  have r1 : s1.rest = s.host.src := by rw [hs1]; rfl
  obtain ⟨ft, e2, c2, w2⟩ := fscanRule_moved v1 (fun b => by
    rw [r1, hs1]; simpa [State.cleared, CoreState.reset] using hc b)
  have hft : TableOf ft s.host.src := ⟨w2 (by rw [hs1]; exact (by decide : countsWf [])), fun b => by
    rw [c2 b, r1, hs1]; simp [State.cleared, CoreState.reset]⟩
  have hn := hft.nsym_ne hne
  obtain ⟨s2, hs2⟩ : ∃ s2, s2 = (s1.withFt ft).moved (s1.rest.length + 1) (s1.host.pos + s1.rest.length) s1.host.snk :=
    ⟨_, rfl⟩
  have v2 : Serving s2 := by rw [hs2]; exact (v1.withFt _).moved _ _ _
  have k2 : s2.core = tableCore ft := by rw [hs2, hs1]; rfl
  obtain ⟨g1, ⟨next, g2⟩, g3, -, -⟩ := plant_spec hn
  obtain ⟨st, e4, -, p4⟩ := sderiveRule_ok (s := s2.withCore (plant ft)) g2 ((freeRoot_iff _).1 g3).1
  simp only [State.withCore_core] at e4 p4
  refine ⟨s2.withCore { plant ft with st := st, status := (plant ft).status.setStv }, ft, st, hft, ?_, rfl, p4,
    v2.withCore _, by rw [hs2, hs1]; rfl, by rw [hs2, hs1]; rfl⟩
  obtain ⟨_, q, hq, hqt⟩ := Res.andThen_eq_ok.1 (show (qbuildRule s2).andThen (fun _ s => treduceRule s) = _ from g1 s2 k2)
  unfold encodeRule
  rw [show clrRule s = .ok () s.cleared from rfl, Res.andThen_ok, srcRewind_moved (s := s.cleared) h, Res.andThen_ok,
    show s.cleared.moved 1 0 s.cleared.host.snk = s1 from hs1.symm, e2, ← hs2, Res.andThen_ok, hq, Res.andThen_ok, hqt,
    Res.andThen_ok, e4, Res.andThen_ok]
  rfl

/-- `ENCODE` of a message on a host that serves (R163): the state it ends in and the bytes it appends. -/
theorem encodeRule_ok {s : State} (h : Serving s) (hne : s.host.src ≠ []) (hd : s.host.src.dedup.length ≤ 255)
    (hc : ∀ b, s.host.src.count b < 2 ^ 64) :
    ∃ t ft st payload pad, TableOf ft s.host.src ∧ encodeRule s = .ok () t ∧
      t.core = { plant ft with st := st, status := (plant ft).status.setStv } ∧
      (∀ b p, pathAt st b = some p ↔ leadsToLeaf (plant ft).tm (plant ft).root p b = true) ∧
      t.host.pos = s.host.src.length ∧ StreamsMoved s t ∧
      t.host.snk = s.host.snk ++ headerBytes ft ++ payload ∧ pad < 8 ∧
      payload.flatMap byteBits = codeBits st s.host.src ++ List.replicate pad false := by
  obtain ⟨u, ft, st, hft, e, k, p, v, hsrc, hsnk⟩ := encodeRule_front h hne hc
  obtain ⟨-, -, -, g4, g5⟩ := plant_spec (hft.nsym_ne hne)
  have hcore : u.core.ft = ft ∧ u.core.wcnt = 0#3 ∧ u.core.wacc = 0#8 ∧ u.core.st = st := by
    rw [k, g5]; exact ⟨rfl, rfl, rfl, rfl⟩
  have e5 : hwriteRule u = .ok () (u.moved (headerBytes ft).length u.host.pos (u.host.snk ++ headerBytes ft)) := by
    rw [hwriteRule, hcore.1, if_neg (by rw [hft.nsym]; simp only [Config.nsymMax]; omega), snkWriteAll_moved _ v]
  obtain ⟨s6, hs6⟩ : ∃ s6, s6 = (u.moved (headerBytes ft).length u.host.pos (u.host.snk ++ headerBytes ft)).moved 1 0
      (u.host.snk ++ headerBytes ft) := ⟨_, rfl⟩
  have v6 : Serving s6 := by rw [hs6]; exact (v.moved _ _ _).moved _ _ _
  have k6 : s6.core = u.core := by rw [hs6]; rfl
  have r6 : s6.rest = s.host.src := by rw [hs6, ← hsrc]; rfl
  have u6 : s6.unread = s.host.src.length := by rw [unread_eq, r6]
  have w6 : WriterAgrees s6 := by rw [WriterAgrees, k6, hcore.2.1, hcore.2.2.1]; decide
  have st6 : s6.core.st = st := by rw [k6]; exact hcore.2.2.2
  obtain ⟨s7, e7, w7, pos7, b7⟩ := encodeLoop_bits s.host.src v6 w6 r6 (fun b hb => by
    rw [st6]
    obtain ⟨q, hq⟩ := (g4 b).2 ((hft.present_iff b).2 hb)
    rw [(p b q).2 hq]; simp)
  obtain ⟨m7, k7⟩ := encodeLoop_moved e7
  obtain ⟨t, e8, wa8, wc8, b8⟩ := wflushRule_bits (fun r hr => v6 r (m7.replies.subset hr)) w7
  obtain ⟨m8, k8⟩ := (wflushRule_frame s7).of_ok e8
  have hall : encodeRule s = .ok () t := by
    rw [e, writeAll, e5, Res.andThen_ok, srcRewind_moved (v.moved _ _ _), Res.andThen_ok]
    rw [show (u.moved (headerBytes ft).length u.host.pos (u.host.snk ++ headerBytes ft)).moved 1 0
      (u.moved (headerBytes ft).length u.host.pos (u.host.snk ++ headerBytes ft)).host.snk = s6 from hs6.symm, u6, e7,
      Res.andThen_ok, e8]
  have mall : StreamsMoved s t := by have := (encodeRule_frame s); rw [hall] at this; exact this.1
  have snk6 : s6.host.snk = s.host.snk ++ headerBytes ft := by rw [hs6, ← hsnk]; rfl
  obtain ⟨payload, hpay⟩ : s6.host.snk <+: t.host.snk := m7.snk.trans m8.snk
  refine ⟨t, ft, st, payload, (8 - s7.core.wcnt.toNat) % 8, hft, hall, ?_, p, ?_, mall, ?_, Nat.mod_lt _ (by decide), ?_⟩
  · rw [k8, wa8, wc8, k7, k6, ← hcore.2.1, ← hcore.2.2.1]; exact k
  · rw [m8.rest.2, pos7, show s6.host.pos = 0 from by rw [hs6]; rfl, Nat.zero_add]
  · rw [← hpay, snk6]
  · rw [b7, writtenBits, show s6.core.wcnt = 0#3 from by rw [k6]; exact hcore.2.1, heldBits_zero, List.append_nil,
      st6] at b8
    rw [← hpay, List.flatMap_append, List.append_assoc] at b8
    exact List.append_cancel_left b8

/-! ### DECODE -/

/-- The entries of a table's header. -/
def headerEntriesOf (ft : Memory Count) : List (Byte × Count) := (presentBytes ft).map fun b => (b, countAt ft b)

theorem headerBytes_eq (ft : Memory Count) :
    headerBytes ft = BitVec.ofNat 8 (nsym ft) :: entriesBytes (headerEntriesOf ft) := by
  rw [headerBytes, entriesBytes, headerEntriesOf, List.flatMap_map]; rfl

theorem allBytes_ascending : allBytes.Pairwise fun a b => a.toNat < b.toNat := by
  rw [allBytes, List.pairwise_map]
  refine List.pairwise_lt_range.imp_of_mem fun {a b} ha hb hab => ?_
  rw [List.mem_range] at ha hb
  simp only [Config.nsymMax] at ha hb
  rw [BitVec.toNat_ofNat, BitVec.toNat_ofNat, Nat.mod_eq_of_lt (by omega), Nat.mod_eq_of_lt (by omega)]
  exact hab

theorem headerEntriesOf_ascending (ft : Memory Count) : Ascending none (headerEntriesOf ft) := by
  refine ⟨List.pairwise_map.2 (allBytes_ascending.filter _), fun e he => ?_, fun p hp => by cases hp⟩
  obtain ⟨b, hb, rfl⟩ := List.mem_map.1 he
  exact present_iff.1 (mem_presentBytes.1 hb)

theorem putCounts_headerEntriesOf {ft : Memory Count} (h : countsWf ft) : putCounts [] (headerEntriesOf ft) = ft := by
  have hfst : (headerEntriesOf ft).map Prod.fst = presentBytes ft := by
    rw [headerEntriesOf, List.map_map]; exact List.map_id _
  obtain ⟨h1, h2⟩ := countAt_putCounts (headerEntriesOf ft) [] (by rw [hfst]; exact presentBytes_nodup ft)
  refine counts_ext (putCounts_wf _ (by decide)) h fun b => ?_
  by_cases hb : present ft b = true
  · exact h1 (b, countAt ft b) (List.mem_map.2 ⟨b, mem_presentBytes.2 hb, rfl⟩)
  · rw [h2 b fun e he hc => hb (by
      obtain ⟨x, hx, rfl⟩ := List.mem_map.1 he
      exact hc ▸ mem_presentBytes.1 hx)]
    rw [present_iff, not_not] at hb
    rw [hb]; rfl

theorem entriesBytes_length (es : List (Byte × Count)) : (entriesBytes es).length = 9 * es.length := by
  induction es with
  | nil => rfl
  | cons e es ih =>
    have : entriesBytes (e :: es) = e.1 :: countBytes e.2 ++ entriesBytes es := rfl
    rw [this, List.length_append, ih, List.length_cons, List.length_cons, countBytes_length]
    simp only [Config.cntBytes]; omega

/-- `HREAD` of good entries (R162): the header-length byte and that many entries. -/
theorem hreadRule_entries {u : State} (h : Serving u) {es : List (Byte × Count)} {post : List Byte}
    (hl : es.length < 256) (ha : Ascending none es)
    (hr : u.rest = BitVec.ofNat 8 es.length :: (entriesBytes es ++ post)) :
    hreadRule u = .ok () ((u.withFt (putCounts [] es)).took (1 + 9 * es.length)) := by
  have h0 : u.withCore { u.core with ft := [] } = u.withFt [] := rfl
  have hn : (BitVec.ofNat 8 es.length).toNat = es.length := by
    rw [BitVec.toNat_ofNat, Nat.mod_eq_of_lt (by simpa using hl)]
  rw [hreadRule, h0, headerGet_cons 0 (h.withFt []) hr, Res.andThen_ok, hn]
  have := headerEntries_took es 0 0 none (s := (u.withFt []).took 1) post ((h.withFt []).took 1) ha (by simp [hr])
  rw [Nat.add_zero] at this
  rw [this, headerEntries]
  simp

/-- `HREAD` reads back the header of a table (R166). -/
theorem hreadRule_header {u : State} (h : Serving u) {ft : Memory Count} {post : List Byte} (hw : countsWf ft)
    (hn : nsym ft < 256) (hr : u.rest = headerBytes ft ++ post) :
    hreadRule u = .ok () ((u.withFt ft).took (headerBytes ft).length) := by
  have hl : (headerEntriesOf ft).length = nsym ft := List.length_map _
  have := hreadRule_entries h (es := headerEntriesOf ft) (post := post) (by omega) (headerEntriesOf_ascending ft)
    (by rw [hr, headerBytes_eq, hl]; rfl)
  rw [this, putCounts_headerEntriesOf hw, headerBytes_eq, List.length_cons, entriesBytes_length, Nat.add_comm]

/-- The loop of `DECODE` (R164): the symbols of the codewords in order, then the end of the message. -/
theorem decodeLoop_message (path : Byte → Path) (rest : List Bool) (bs : List Byte) : ∀ {s : State}, Serving s →
    Memory.wf Config.nodeMax s.core.tm → s.core.rrem.toNat = bs.length → s.core.status.eom = false →
    (∀ b ∈ bs, leadsToLeaf s.core.tm s.core.root (path b) b = true) →
    unreadBits s = bs.flatMap (fun b => pathBools (path b)) ++ rest →
    ∃ t, decodeLoop (bs.length + 1) s = .ok () t ∧ t.host.snk = s.host.snk ++ bs ∧ unreadBits t = rest ∧
      t.core = { s.core with
        racc := t.core.racc, rcnt := t.core.rcnt, outb := 0#8, rrem := 0#72
        status := s.core.status.endOfMessage } := by
  induction bs with
  | nil =>
    intro s _ _ hz _ _ hu
    have h0 : s.core.rrem = 0#72 := BitVec.eq_of_toNat_eq hz
    refine ⟨s.withCore { s.core with outb := 0#8, status := s.core.status.endOfMessage }, ?_, by simp, ?_, ?_⟩
    · rw [List.length_nil, decodeLoop, rnextRule, if_pos h0]; rfl
    · simpa [unreadBits] using hu
    · rw [State.withCore_core, ← h0]
  | cons b bs ih =>
    intro s h hwf hz he hp hu
    have hlt := s.core.rrem.isLt
    rw [List.length_cons] at hz
    have h0 : s.core.rrem ≠ 0#72 := fun hc => by rw [hc] at hz; simp at hz
    have h1 : (s.core.rrem - 1#72).toNat = bs.length := by simp [BitVec.toNat_sub]; omega
    rw [List.flatMap_cons, List.append_assoc] at hu
    obtain ⟨v, e1, e2, e3, e4⟩ := rnextRule_symbol h hwf h0 (hp b List.mem_cons_self) hu
    have hev : v.core.status.eom = false := by rw [e4]; exact he
    have hv := h.of_sourceMoved e3
    have hob : v.core.outb = b := by rw [e4]
    have hsnk : v.host.snk = s.host.snk := by rw [e3.host]
    obtain ⟨t, f1, f2, f3, f4⟩ := ih (s := v.moved 1 v.host.pos (v.host.snk ++ [v.core.outb])) (hv.moved _ _ _)
      (by rw [State.moved_core, e4]; exact hwf) (by rw [State.moved_core, e4]; exact h1)
      (by rw [State.moved_core]; exact hev)
      (fun x hx => by rw [State.moved_core, e4]; exact hp x (List.mem_cons_of_mem _ hx))
      (by simpa [unreadBits] using e2)
    refine ⟨t, ?_, ?_, f3, ?_⟩
    · rw [List.length_cons, decodeLoop, e1, Res.andThen_ok, if_neg (by rw [hev]; decide), snkWrite_moved hv,
        Res.andThen_ok, f1]
    · rw [f2, State.moved_snk, hob, hsnk]; simp
    · rw [f4, State.moved_core, e4]; rfl

theorem sum_counts (m : List Byte) : (allBytes.map fun b => m.count b).sum = m.length := by
  have key : ∀ (l : List Byte), l.Nodup → ∀ m : List Byte, (∀ b ∈ m, b ∈ l) →
      (l.map fun b => m.count b).sum = m.length := by
    intro l hl m
    induction m with
    | nil => intro _; simp
    | cons x m ih =>
      intro hm
      rw [List.length_cons, ← ih fun b hb => hm b (List.mem_cons_of_mem _ hb)]
      have hx := hm x List.mem_cons_self
      clear ih hm
      induction l with
      | nil => cases hx
      | cons a l ihl =>
        rw [List.nodup_cons] at hl
        simp only [List.map_cons, List.sum_cons]
        by_cases hax : a = x
        · subst hax
          have : (l.map fun b => (a :: m).count b) = l.map fun b => m.count b :=
            List.map_congr_left fun b hb => List.count_cons_of_ne fun hc : a = b => hl.1 (hc ▸ hb)
          rw [this, List.count_cons_self]; omega
        · have hx' : x ∈ l := by
            rcases List.mem_cons.1 hx with h | h
            · exact absurd h.symm hax
            · exact h
          rw [ihl hl.2 hx', List.count_cons_of_ne fun hc => hax hc.symm]; omega
  exact key allBytes allBytes_nodup m fun b _ => mem_allBytes b

/-- `total` of a message's table is its length (R29, R151): 72 bits hold it. -/
theorem TableOf.total {ft : Memory Count} {m : List Byte} (h : TableOf ft m) : (Machine.total ft).toNat = m.length := by
  rw [total_toNat, countSum, ← sum_counts m]
  congr 1
  exact List.map_congr_left fun b _ => h.counts b

/-- `DECODE` of a container on a host that serves (R164, R167). -/
theorem decodeRule_ok {u : State} (h : Serving u) {ft : Memory Count} {m payload post : List Byte} {pad : Nat}
    {path : Byte → Path} (hft : TableOf ft m) (hm : m ≠ []) (hd : m.dedup.length ≤ 255)
    (hp : ∀ b ∈ m, leadsToLeaf (plant ft).tm (plant ft).root (path b) b = true)
    (hbits : payload.flatMap byteBits = m.flatMap (fun b => pathBools (path b)) ++ List.replicate pad false)
    (hpad : pad < 8) (hr : u.rest = headerBytes ft ++ payload ++ post) :
    ∃ v, decodeRule u = .ok () v ∧ v.host.snk = u.host.snk ++ m ∧
      v.host.pos = u.host.pos + (headerBytes ft ++ payload).length ∧ StreamsMoved u v ∧
      v.core.rrem = 0#72 ∧ v.core.status = ((plant ft).status.readerFresh).endOfMessage := by
  have hn := hft.nsym_ne hm
  have hn256 : nsym ft < 256 := by rw [hft.nsym]; omega
  have e1 := hreadRule_header (u := u.cleared) (h.withCore _) (post := payload ++ post) hft.wf hn256
    (by rw [← List.append_assoc]; exact hr)
  obtain ⟨s1, hs1⟩ : ∃ s1, s1 = (u.cleared.withFt ft).took (headerBytes ft).length := ⟨_, rfl⟩
  rw [← hs1] at e1
  have v1 : Serving s1 := by rw [hs1]; exact ((h.withCore _).withFt ft).took _
  have k1 : s1.core = tableCore ft := by rw [hs1]; rfl
  have r1 : s1.rest = payload ++ post := by
    rw [hs1, State.took_rest, State.withFt_rest]
    change u.rest.drop _ = _
    rw [hr, List.append_assoc, List.drop_left]
  obtain ⟨g1, ⟨next, g2⟩, g3, g4, g5⟩ := plant_spec hn
  have e2 := g1 s1 k1
  have hrrem : ∀ c : CoreState, c.ft = ft → (total c.ft).toNat = m.length := fun c hc => by rw [hc]; exact hft.total
  obtain ⟨s3, hs3, e3⟩ : ∃ s3, s3 = (s1.withCore (plant ft)).withCore { plant ft with
      rrem := total (plant ft).ft, racc := 0#8, rcnt := 0#3, outb := 0#8, status := (plant ft).status.readerFresh } ∧
      rinitRule (s1.withCore (plant ft)) = .ok () s3 := by
    refine ⟨_, rfl, ?_⟩
    unfold rinitRule
    rfl
  have fplant : (plant ft).ft = ft := by rw [g5]; rfl
  have hz : s3.core.rrem.toNat = m.length := by
    rw [hs3, State.withCore_core]; exact hrrem (plant ft) fplant
  have hu3 : unreadBits s3 = m.flatMap (fun b => pathBools (path b)) ++
      (List.replicate pad false ++ post.flatMap byteBits) := by
    have : unreadBits s3 = s1.rest.flatMap byteBits := by rw [hs3]; rfl
    rw [this, r1, List.flatMap_append, hbits, List.append_assoc]
  obtain ⟨v, e4, snk4, u4, k4⟩ := decodeLoop_message path (List.replicate pad false ++ post.flatMap byteBits) m (s := s3)
    (by rw [hs3]; exact (v1.withCore _).withCore _) (by rw [hs3]; exact g2.wf) hz (by rw [hs3]; rfl)
    (fun b hb => by rw [hs3]; exact hp b hb) hu3
  have hall : decodeRule u = .ok () v := by
    obtain ⟨_, q, hq, hqt⟩ := Res.andThen_eq_ok.1 (show (qbuildRule s1).andThen (fun _ s => treduceRule s) = _ from e2)
    rw [decodeRule_eq, show clrRule u = .ok () u.cleared from rfl, Res.andThen_ok, e1, Res.andThen_ok, hq,
      Res.andThen_ok, hqt, Res.andThen_ok]
    unfold readAll
    rw [e3, Res.andThen_ok, hz, e4]
  have mall : StreamsMoved u v := by have := decodeRule_frame u; rw [hall] at this; exact this.1
  refine ⟨v, hall, ?_, ?_, mall, by rw [k4], by rw [k4, hs3]; rfl⟩
  · rw [snk4, hs3, hs1]; rfl
  · have hlen := unreadBits_length v
    rw [u4, List.length_append, List.length_replicate, flatMap_byteBits_length, State.bitsLeft, State.unread,
      mall.src] at hlen
    have hlt := v.core.rcnt.isLt
    have hsrc := congrArg List.length hr
    rw [State.rest, List.length_drop, List.length_append] at hsrc
    have hne : headerBytes ft ≠ [] := by rw [headerBytes_eq]; exact List.cons_ne_nil _ _
    have hpos : 0 < (headerBytes ft).length := List.length_pos_of_ne_nil hne
    rw [List.length_append] at hsrc ⊢
    have hv := mall.pos (by omega)
    omega

end Sys2Proof.Machine
end

