-- ==== Sys2Proof/Laws/PerInstr.lean ====
section
/-! SUPPORT. The family of statements made for every command: its operand field is well formed, and its word carries that
field whole (rules R72, R73, R74). -/

namespace Sys2Proof.Laws.OperandField
open Sys2Proof

/-- The command's operand field passes its format's check and is what its word holds in bits 8 to 0. -/
def Statement (i : Instr) : Prop := i.wellFormed = true ∧ (encode i).extractLsb' 0 9 = i.arg

theorem fscan : Statement .fscan := ⟨by decide, by decide⟩
theorem qbuild : Statement .qbuild := ⟨by decide, by decide⟩
theorem qins (idx : NodeIdx) : Statement (.qins idx) := by revert idx; unfold Statement; decide +kernel
theorem qext : Statement .qext := ⟨by decide, by decide⟩
theorem tjoin : Statement .tjoin := ⟨by decide, by decide⟩
theorem treduce : Statement .treduce := ⟨by decide, by decide⟩
theorem sderive : Statement .sderive := ⟨by decide, by decide⟩
theorem wbit (d : Decision) : Statement (.wbit d) := by cases d <;> exact ⟨by decide, by decide⟩
theorem wsym (sym : Byte) : Statement (.wsym sym) := by revert sym; unfold Statement; decide +kernel
theorem wflush : Statement .wflush := ⟨by decide, by decide⟩
theorem rinit : Statement .rinit := ⟨by decide, by decide⟩
theorem rnext : Statement .rnext := ⟨by decide, by decide⟩
theorem hwrite : Statement .hwrite := ⟨by decide, by decide⟩
theorem hread : Statement .hread := ⟨by decide, by decide⟩
theorem encode : Statement .encode := ⟨by decide, by decide⟩
theorem decode : Statement .decode := ⟨by decide, by decide⟩
theorem clr : Statement .clr := ⟨by decide, by decide⟩
theorem srew : Statement .srew := ⟨by decide, by decide⟩

end Sys2Proof.Laws.OperandField
end

