-- ==== Sys2Proof/Laws/Replies.lean ====
section
/-! SUPPORT. Which replies of the host a rule uses up (R48, R195, R220): those before its end served; an `IoError` comes
from one that fails, an abandoned command from one that resets, and no other end uses up either. -/

namespace Sys2Proof.Machine

/-- The replies from `s` to `t` were used up and all served. -/
def Served (s t : State) : Prop :=
  ∃ used, s.host.replies = used ++ t.host.replies ∧ ∀ r ∈ used, r = HostReply.serves

/-- The replies from `s` to `t` were used up: all served but the last, which is `x`. -/
def ServedUntil (x : HostReply) (s t : State) : Prop :=
  ∃ used, s.host.replies = used ++ x :: t.host.replies ∧ ∀ r ∈ used, r = HostReply.serves

theorem Served.of_eq {s t : State} (h : t.host.replies = s.host.replies) : Served s t :=
  ⟨[], by rw [h]; rfl, fun _ hr => absurd hr List.not_mem_nil⟩

theorem Served.refl (s : State) : Served s s := .of_eq rfl

theorem Served.trans {s t u : State} (h : Served s t) (h' : Served t u) : Served s u := by
  obtain ⟨x, hx, hs⟩ := h
  obtain ⟨y, hy, hs'⟩ := h'
  exact ⟨x ++ y, by rw [hx, hy, List.append_assoc], fun r hr => (List.mem_append.1 hr).elim (hs r) (hs' r)⟩

theorem Served.until {x : HostReply} {s t u : State} (h : Served s t) (h' : ServedUntil x t u) : ServedUntil x s u := by
  obtain ⟨l, hl, hs⟩ := h
  obtain ⟨m, hm, hs'⟩ := h'
  exact ⟨l ++ m, by rw [hl, hm, List.append_assoc], fun r hr => (List.mem_append.1 hr).elim (hs r) (hs' r)⟩

/-- What a rule run from `s` used up, for each way it can end. -/
def Uses {α : Type} (s : State) : Res α → Prop
  | .ok _ t => Served s t
  | .raised k i t => (k = .io → ∃ p b, ServedUntil (.fails i p b) s t) ∧ (k ≠ .io → Served s t)
  | .abandoned t => ServedUntil .resets s t
  | .stopped _ => True

theorem uses_ok {α : Type} {s t : State} (a : α) (h : t.host.replies = s.host.replies) : Uses s (.ok a t) := .of_eq h

theorem uses_raised {α : Type} {s t : State} {k : ErrorKind} {i : BitVec 32} (hk : k ≠ .io)
    (h : t.host.replies = s.host.replies) : Uses (α := α) s (.raised k i t) := by
  exact ⟨fun hc => absurd hc hk, fun _ => .of_eq h⟩

theorem Uses.from {α : Type} {s t : State} {r : Res α} (h : Served s t) (h' : Uses t r) : Uses s r := by
  cases r with
  | ok a u => exact h.trans h'
  | raised k i u =>
    exact ⟨fun hk => (h'.1 hk).imp fun p hp => hp.imp fun b hb => h.until hb, fun hk => h.trans (h'.2 hk)⟩
  | abandoned u => exact h.until h'
  | stopped f => trivial

theorem Uses.andThen {α β : Type} {s : State} {r : Res α} {f : α → State → Res β} (h : Uses s r)
    (hf : ∀ a u, r = .ok a u → Uses u (f a u)) : Uses s (r.andThen f) := by
  cases r with
  | ok a u => exact Uses.from h (hf a u rfl)
  | raised k i u => exact h
  | abandoned u => exact h
  | stopped x => trivial

theorem served_next {s t : State} (h : s.nextReply = .serves) (ht : t.host.replies = s.host.replies.tail) : Served s t := by
  unfold State.nextReply at h
  cases hs : s.host.replies with
  | nil => exact .of_eq (by rw [ht, hs]; rfl)
  | cons x xs =>
    rw [hs] at h ht
    exact ⟨[x], by rw [hs, ht]; rfl, fun r hr => by rw [List.mem_singleton.1 hr]; exact h⟩

theorem servedUntil_next {s t : State} {x : HostReply} (h : s.nextReply = x) (hx : x ≠ .serves)
    (ht : t.host.replies = s.host.replies.tail) : ServedUntil x s t := by
  unfold State.nextReply at h
  cases hs : s.host.replies with
  | nil => rw [hs] at h; exact absurd h.symm hx
  | cons y ys =>
    rw [hs] at h ht
    exact ⟨[], by rw [hs, ht, ← h]; rfl, fun r hr => absurd hr List.not_mem_nil⟩

/-! ### Each rule -/

theorem srcRead_uses (s : State) : Uses s (srcRead s) := by
  unfold srcRead
  split
  · next h => split <;> exact served_next h rfl
  · next e p b h => exact ⟨fun _ => ⟨p, b, servedUntil_next h (by simp) rfl⟩, fun hc => absurd rfl hc⟩
  · next h => exact servedUntil_next h (by simp) rfl
  · trivial

theorem srcRewind_uses (s : State) : Uses s (srcRewind s) := by
  unfold srcRewind
  split
  · next h => exact served_next h rfl
  · next e p b h => exact ⟨fun _ => ⟨p, b, servedUntil_next h (by simp) rfl⟩, fun hc => absurd rfl hc⟩
  · next h => exact servedUntil_next h (by simp) rfl
  · trivial

theorem snkWrite_uses (v : Byte) (s : State) : Uses s (snkWrite v s) := by
  unfold snkWrite
  split
  · next h => exact served_next h rfl
  · next e p b h => exact ⟨fun _ => ⟨p, b, servedUntil_next h (by simp) rfl⟩, fun hc => absurd rfl hc⟩
  · next h => exact servedUntil_next h (by simp) rfl
  · trivial

theorem snkWriteAll_uses (vs : List Byte) (s : State) : Uses s (snkWriteAll vs s) := by
  induction vs generalizing s with
  | nil => exact uses_ok _ rfl
  | cons v vs ih => exact (snkWrite_uses v s).andThen fun _ u _ => ih u

theorem fscanLoop_uses (n : Nat) (s : State) : Uses s (fscanLoop n s) := by
  induction n generalizing s with
  | zero => trivial
  | succ n ih =>
    unfold fscanLoop
    refine (srcRead_uses s).andThen fun r u _ => ?_
    match r with
    | none => exact uses_ok _ rfl
    | some b =>
      refine Uses.andThen ?_ fun _ v _ => ih v
      unfold countByte
      dsimp only
      split_ifs
      · exact uses_raised (by simp) rfl
      · exact uses_ok _ rfl

theorem qbuildRule_uses (s : State) : Uses s (qbuildRule s) := by
  unfold qbuildRule
  split_ifs
  · exact uses_raised (by simp) rfl
  · exact uses_ok _ rfl

theorem qinsRule_uses (idx : NodeIdx) (s : State) : Uses s (qinsRule idx s) := by
  unfold qinsRule
  split
  · exact uses_raised (by simp) rfl
  · split
    · trivial
    · split
      · trivial
      · exact uses_ok _ rfl

theorem qextRule_uses (s : State) : Uses s (qextRule s) := by
  unfold qextRule
  split
  · exact uses_raised (by simp) rfl
  · exact uses_ok _ rfl

theorem tjoinRule_uses (s : State) : Uses s (tjoinRule s) := by
  unfold tjoinRule
  split
  · dsimp only
    split_ifs
    · trivial
    · split
      · trivial
      · exact uses_ok _ rfl
  · exact uses_raised (by simp) rfl
  · exact uses_raised (by simp) rfl

theorem reduceLoop_uses (n : Nat) (s : State) : Uses s (reduceLoop n s) := by
  induction n generalizing s with
  | zero => trivial
  | succ n ih =>
    unfold reduceLoop
    split_ifs
    · exact uses_ok _ rfl
    · exact (tjoinRule_uses s).andThen fun _ u _ => ih u

theorem treduceRule_uses (s : State) : Uses s (treduceRule s) := by
  unfold treduceRule
  split_ifs
  · exact uses_raised (by simp) rfl
  · exact (reduceLoop_uses _ s).andThen fun _ u _ => uses_ok _ rfl

theorem sderiveRule_uses (s : State) : Uses s (sderiveRule s) := by
  unfold sderiveRule
  split
  · exact uses_ok _ rfl
  · trivial

theorem wbitRule_uses (d : Decision) (s : State) : Uses s (wbitRule d s) := by
  unfold wbitRule
  dsimp only
  split_ifs
  · exact Uses.from (.of_eq rfl) ((snkWrite_uses _ _).andThen fun _ u _ => uses_ok _ rfl)
  · exact uses_ok _ rfl

theorem writePath_uses (p : Path) (s : State) : Uses s (writePath p s) := by
  induction p generalizing s with
  | nil => exact uses_ok _ rfl
  | cons d p ih => exact (wbitRule_uses d s).andThen fun _ u _ => ih u

theorem wsymRule_uses (sym : Byte) (s : State) : Uses s (wsymRule sym s) := by
  unfold wsymRule
  split
  · exact uses_raised (by simp) rfl
  · exact writePath_uses _ s

theorem wflushRule_uses (s : State) : Uses s (wflushRule s) := by
  unfold wflushRule
  split_ifs
  · exact uses_ok _ rfl
  · exact (snkWrite_uses _ s).andThen fun _ u _ => uses_ok _ rfl

theorem readBit_uses (s : State) : Uses s (readBit s) := by
  unfold readBit
  split_ifs
  · refine (srcRead_uses s).andThen fun r u _ => ?_
    match r with
    | none => exact uses_raised (by simp) rfl
    | some v => exact uses_ok _ rfl
  · exact uses_ok _ rfl

theorem walkBits_uses (n : Nat) (i : NodeIdx) (s : State) : Uses s (walkBits n i s) := by
  induction n generalizing i s with
  | zero => trivial
  | succ n ih =>
    unfold walkBits
    split_ifs
    · trivial
    · split
      · exact (readBit_uses s).andThen fun _ u _ => ih _ u
      · exact uses_ok _ rfl
      · exact uses_ok _ rfl

theorem rnextRule_uses (s : State) : Uses s (rnextRule s) := by
  unfold rnextRule
  split_ifs
  · exact uses_ok _ rfl
  · exact (walkBits_uses _ _ s).andThen fun _ u _ => uses_ok _ rfl

theorem hwriteRule_uses (s : State) : Uses s (hwriteRule s) := by
  unfold hwriteRule
  split_ifs
  · exact uses_raised (by simp) rfl
  · exact snkWriteAll_uses _ s

theorem headerGet_uses (n : Nat) (s : State) : Uses s (headerGet n s) := by
  refine (srcRead_uses s).andThen fun r u _ => ?_
  match r with
  | none => exact uses_raised (by simp) rfl
  | some v => exact uses_ok _ rfl

theorem headerCount_uses (k n : Nat) (c : Count) (s : State) : Uses s (headerCount k n c s) := by
  induction k generalizing n c s with
  | zero => exact uses_ok _ rfl
  | succ k ih => exact (headerGet_uses n s).andThen fun _ u _ => ih _ _ u

theorem headerEntries_uses (k i : Nat) (prev : Option Byte) (s : State) : Uses s (headerEntries k i prev s) := by
  induction k generalizing i prev s with
  | zero => exact uses_ok _ rfl
  | succ k ih =>
    unfold headerEntries
    refine (headerGet_uses _ s).andThen fun v u _ => (headerCount_uses _ _ _ u).andThen fun c w _ => ?_
    split_ifs
    · exact uses_raised (by simp) rfl
    · exact uses_raised (by simp) rfl
    · exact Uses.from (.of_eq rfl) (ih _ _ _)

theorem hreadRule_uses (s : State) : Uses s (hreadRule s) :=
  Uses.from (.of_eq rfl) ((headerGet_uses 0 _).andThen fun _ u _ => headerEntries_uses _ _ _ u)

theorem clrRule_uses (s : State) : Uses s (clrRule s) := uses_ok _ rfl

theorem encodeLoop_uses (n : Nat) (s : State) : Uses s (encodeLoop n s) := by
  induction n generalizing s with
  | zero => trivial
  | succ n ih =>
    unfold encodeLoop
    refine (srcRead_uses s).andThen fun r u _ => ?_
    match r with
    | none => exact uses_ok _ rfl
    | some b => exact (wsymRule_uses b u).andThen fun _ v _ => ih v

theorem decodeLoop_uses (n : Nat) (s : State) : Uses s (decodeLoop n s) := by
  induction n generalizing s with
  | zero => trivial
  | succ n ih =>
    unfold decodeLoop
    refine (rnextRule_uses s).andThen fun _ u _ => ?_
    split_ifs
    · exact uses_ok _ rfl
    · exact (snkWrite_uses _ u).andThen fun _ v _ => ih v

theorem encodeRule_uses (s : State) : Uses s (encodeRule s) :=
  (clrRule_uses s).andThen fun _ s _ => (srcRewind_uses s).andThen fun _ s _ =>
  (fscanLoop_uses _ s).andThen fun _ s _ => (qbuildRule_uses s).andThen fun _ s _ =>
  (treduceRule_uses s).andThen fun _ s _ => (sderiveRule_uses s).andThen fun _ s _ =>
  (hwriteRule_uses s).andThen fun _ s _ => (srcRewind_uses s).andThen fun _ s _ =>
  (encodeLoop_uses _ s).andThen fun _ s _ => wflushRule_uses s

theorem readAll_uses (s : State) : Uses s (readAll s) := by
  unfold readAll rinitRule
  rw [Res.andThen_ok]
  have hu : (s.withCore { s.core with
    rrem := total s.core.ft, racc := 0#8, rcnt := 0#3, outb := 0#8
    status := s.core.status.readerFresh }).host.replies = s.host.replies := State.withCore_replies _ _
  generalize s.withCore _ = u at hu ⊢
  exact Uses.from (.of_eq hu) (decodeLoop_uses _ _)

theorem decodeRule_uses (s : State) : Uses s (decodeRule s) := by
  rw [decodeRule_eq]
  exact (clrRule_uses s).andThen fun _ s _ => (hreadRule_uses s).andThen fun _ s _ =>
    (qbuildRule_uses s).andThen fun _ s _ => (treduceRule_uses s).andThen fun _ s _ => readAll_uses s

/-- What every command's pseudocode uses up of the host's replies. -/
theorem ruleOf_uses (i : Instr) (s : State) : Uses s (ruleOf i s) := by
  cases i with
  | fscan => exact fscanLoop_uses _ s
  | qbuild => exact qbuildRule_uses s
  | qins idx => exact qinsRule_uses idx s
  | qext => exact qextRule_uses s
  | tjoin => exact tjoinRule_uses s
  | treduce => exact treduceRule_uses s
  | sderive => exact sderiveRule_uses s
  | wbit d => exact wbitRule_uses d s
  | wsym sym => exact wsymRule_uses sym s
  | wflush => exact wflushRule_uses s
  | rinit => exact uses_ok _ rfl
  | rnext => exact rnextRule_uses s
  | hwrite => exact hwriteRule_uses s
  | hread => exact hreadRule_uses s
  | encode => exact encodeRule_uses s
  | decode => exact decodeRule_uses s
  | clr => exact clrRule_uses s
  | srew => exact srcRewind_uses s

end Sys2Proof.Machine
end

