-- ==== Sys2Proof/Laws/Step.lean ====
section
/-! SUPPORT. What a step can do: the inversion of `presentWord` and `step`, and the induction every claim about all steps
goes through. -/

namespace Sys2Proof.Machine

/-- A word presented: its command performed, or a reserved word refused or faulted (R77). -/
theorem presentWord_next_cases {w : CmdWord} {s t : State} (h : presentWord w s = .next t) :
    (∃ i, decode w = .instr i ∧ exec i s = .next t) ∨
    (∃ why, decode w = .reserved why ∧ (s.core.status.fault = true ∧ t = s.answered .refused ∨
      s.core.status.fault = false ∧ t = takeFault .illegalCommand (w.setWidth 32) s)) := by
  unfold presentWord at h
  split at h
  · next i hd => exact .inl ⟨i, hd, h⟩
  · next why hd =>
    unfold performReserved at h
    split_ifs at h with hf <;> injection h with h
    · exact .inr ⟨why, hd, .inl ⟨hf, h.symm⟩⟩
    · exact .inr ⟨why, hd, .inr ⟨by simpa using hf, h.symm⟩⟩

theorem cutShort_eq_next {given : List Answer} {o : Host.Outcome State Fault Refusal} {t : State} :
    cutShort given o = .next t ↔ ∃ u, o = .next u ∧ t = u.cleared.withAnswers given := by
  cases o <;> simp [cutShort, eq_comm]

/-- What a step can be: idle, a word presented, a word presented and abandoned by reset, reset, other streams. -/
theorem step_next_cases {s t : State} (h : step s = .next t) :
    (s.host.script = [] ∧ t = s) ∨
    (∃ w es, s.host.script = .command w :: es ∧ presentWord w (s.withScript es) = .next t) ∨
    (∃ w es u, s.host.script = .commandReset w :: es ∧ presentWord w (s.withScript es) = .next u ∧
      t = u.cleared.withAnswers s.host.answers) ∨
    (∃ es, s.host.script = .reset :: es ∧ t = (s.withScript es).cleared) ∨
    (∃ b p k es, s.host.script = .streams b p k :: es ∧ t = (s.withScript es).withStreams b p k) := by
  unfold step at h
  split at h
  · next hs => injection h with h; exact .inl ⟨hs, h.symm⟩
  · next w es hs => exact .inr (.inl ⟨w, es, hs, h⟩)
  · next w es hs =>
    obtain ⟨u, hu, ht⟩ := cutShort_eq_next.1 h
    exact .inr (.inr (.inl ⟨w, es, u, hs, hu, ht⟩))
  · next es hs => injection h with h; exact .inr (.inr (.inr (.inl ⟨es, hs, h.symm⟩)))
  · next b p k es hs => injection h with h; exact .inr (.inr (.inr (.inr ⟨b, p, k, es, hs, h.symm⟩)))

/-- A property every step keeps: enough that commands keep it, and so do a refusal, a fault of a reserved word, reset,
other streams, and changes of the script and of the answers. -/
theorem step_keeps {P : State → Prop} {s t : State} (h : step s = .next t) (hs : P s)
    (hexec : ∀ i u v, P u → exec i u = .next v → P v) (hscript : ∀ u es, P u → P (u.withScript es))
    (hanswers : ∀ u as, P u → P (u.withAnswers as)) (hillegal : ∀ u info, P u → P (u.enterFault .illegalCommand info))
    (hclear : ∀ u, P u → P u.cleared) (hstreams : ∀ u b p k, P u → P (u.withStreams b p k)) : P t := by
  have hw : ∀ w u v, P u → presentWord w u = .next v → P v := by
    intro w u v hu hv
    rcases presentWord_next_cases hv with ⟨i, -, hv⟩ | ⟨_, -, ⟨-, rfl⟩ | ⟨-, rfl⟩⟩
    · exact hexec i u v hu hv
    · exact hanswers u _ hu
    · exact hanswers _ (u.host.answers ++ [_]) (hillegal u _ hu)
  rcases step_next_cases h with ⟨-, rfl⟩ | ⟨w, es, -, ht⟩ | ⟨w, es, u, -, hu, rfl⟩ | ⟨es, -, rfl⟩ | ⟨b, p, k, es, -, rfl⟩
  · exact hs
  · exact hw w _ _ (hscript s es hs) ht
  · exact hanswers _ _ (hclear _ (hw w _ _ (hscript s es hs) hu))
  · exact hclear _ (hscript s es hs)
  · exact hstreams _ _ _ _ (hscript s es hs)

end Sys2Proof.Machine
end

