-- ==== Sys2Proof/Laws/Twins.lean ====
section
/-! SUPPORT. Two runs that differ only in what the host's side holds besides the source (R168): on hosts that serve, every
rule ends the same way in both. -/

namespace Sys2Proof.Machine

/-- The same CORE and source; the sinks grew by the same bytes from `k` and `k'`. -/
structure Twin (k k' : List Byte) (s s' : State) : Prop where
  core : s'.core = s.core
  src : s'.host.src = s.host.src
  pos : s'.host.pos = s.host.pos
  serving : Serving s
  serving' : Serving s'
  snk : ∃ c, s.host.snk = k ++ c ∧ s'.host.snk = k' ++ c

/-- Two ends of the same kind with the same values, in twin states. -/
def Twins {α : Type} (k k' : List Byte) : Res α → Res α → Prop
  | .ok a s, .ok a' s' => a' = a ∧ Twin k k' s s'
  | .raised e i s, .raised e' i' s' => e' = e ∧ i' = i ∧ Twin k k' s s'
  | .stopped f, .stopped f' => f' = f
  | _, _ => False

variable {k k' : List Byte}

theorem Twins.andThen {α β : Type} {r r' : Res α} {f : α → State → Res β} (h : Twins k k' r r')
    (hf : ∀ a s s', Twin k k' s s' → Twins k k' (f a s) (f a s')) : Twins k k' (r.andThen f) (r'.andThen f) := by
  cases r <;> cases r' <;> simp only [Twins] at h
  · obtain ⟨rfl, ht⟩ := h; exact hf _ _ _ ht
  · obtain ⟨rfl, rfl, ht⟩ := h; exact ⟨rfl, rfl, ht⟩
  · obtain rfl := h; exact rfl

theorem Twin.withCore {s s' : State} (h : Twin k k' s s') (c : CoreState) : Twin k k' (s.withCore c) (s'.withCore c) :=
  ⟨rfl, h.src, h.pos, h.serving, h.serving', h.snk⟩

theorem srcRead_twins {s s' : State} (h : Twin k k' s s') : Twins k k' (srcRead s) (srcRead s') := by
  rw [srcRead_serving h.serving, srcRead_serving h.serving', h.src, h.pos]
  exact ⟨rfl, h.core, h.src, rfl, h.serving.dropReply, h.serving'.dropReply, h.snk⟩

theorem srcRewind_twins {s s' : State} (h : Twin k k' s s') : Twins k k' (srcRewind s) (srcRewind s') := by
  rw [srcRewind_serving h.serving, srcRewind_serving h.serving']
  exact ⟨rfl, h.core, h.src, rfl, h.serving.dropReply, h.serving'.dropReply, h.snk⟩

theorem snkWrite_twins {s s' : State} (h : Twin k k' s s') (v : Byte) : Twins k k' (snkWrite v s) (snkWrite v s') := by
  rw [snkWrite_serving h.serving, snkWrite_serving h.serving']
  obtain ⟨c, h1, h2⟩ := h.snk
  exact ⟨rfl, h.core, h.src, h.pos, h.serving.dropReply, h.serving'.dropReply, c ++ [v], by
    simp [h1], by simp [h2]⟩

theorem snkWriteAll_twins (vs : List Byte) : ∀ {s s' : State}, Twin k k' s s' →
    Twins k k' (snkWriteAll vs s) (snkWriteAll vs s') := by
  induction vs with
  | nil => intro s s' h; exact ⟨rfl, h⟩
  | cons v vs ih => intro s s' h; exact (snkWrite_twins h v).andThen fun _ _ _ h => ih h

theorem countByte_twins {s s' : State} (h : Twin k k' s s') (b : Byte) :
    Twins k k' (countByte b s) (countByte b s') := by
  unfold countByte
  dsimp only
  rw [h.core]
  split_ifs
  · exact ⟨rfl, rfl, h⟩
  · exact ⟨rfl, h.withCore _⟩

theorem fscanLoop_twins (n : Nat) : ∀ {s s' : State}, Twin k k' s s' → Twins k k' (fscanLoop n s) (fscanLoop n s') := by
  induction n with
  | zero => intro s s' _; exact rfl
  | succ n ih =>
    intro s s' h
    unfold fscanLoop
    refine (srcRead_twins h).andThen fun r s s' h => ?_
    match r with
    | none => exact ⟨rfl, h⟩
    | some b => exact (countByte_twins h b).andThen fun _ _ _ h => ih h

theorem fscanRule_twins {s s' : State} (h : Twin k k' s s') : Twins k k' (fscanRule s) (fscanRule s') := by
  have : s'.unread = s.unread := by rw [State.unread, State.unread, h.src, h.pos]
  rw [fscanRule, fscanRule, this]
  exact fscanLoop_twins _ h

/-- A rule of the CORE alone that leaves the host side as it is ends the same way in twin states. -/
theorem twins_of_onHost {α : Type} {rule : State → Res α} (hon : ∀ h s, rule { core := s.core, host := h } = (rule s).onHost h)
    (hfr : ∀ s, (rule s).Ends fun t => t.host = s.host) (hab : ∀ s t, rule s ≠ .abandoned t) {s s' : State}
    (h : Twin k k' s s') : Twins k k' (rule s) (rule s') := by
  have e : rule s' = (rule s).onHost s'.host := by
    rw [← hon s'.host s, ← h.core]
  have hs := hfr s
  rw [e]
  have twin : ∀ t : State, t.host = s.host → Twin k k' t { core := t.core, host := s'.host } := fun t ht =>
    ⟨rfl, by rw [ht]; exact h.src, by rw [ht]; exact h.pos, fun r hr => h.serving r (by rw [← ht]; exact hr), h.serving',
      by rw [ht]; exact h.snk⟩
  cases hr : rule s with
  | ok a t => rw [hr] at hs; exact ⟨rfl, twin t hs⟩
  | raised e i t => rw [hr] at hs; exact ⟨rfl, rfl, twin t hs⟩
  | abandoned t => exact absurd hr (hab s t)
  | stopped f => exact rfl

theorem qbuildRule_twins {s s' : State} (h : Twin k k' s s') : Twins k k' (qbuildRule s) (qbuildRule s') :=
  twins_of_onHost qbuildRule_onHost (fun s => (qbuildRule_frame s).imp fun _ h => h.1)
    (fun s t ht => by unfold qbuildRule at ht; split_ifs at ht) h

theorem tjoinRule_ne_abandoned (s t : State) : tjoinRule s ≠ .abandoned t := by
  intro h
  unfold tjoinRule at h
  split at h
  · dsimp only at h
    split_ifs at h
    split at h <;> cases h
  · cases h
  · cases h

theorem reduceLoop_ne_abandoned (n : Nat) : ∀ s t : State, reduceLoop n s ≠ .abandoned t := by
  induction n with
  | zero => rintro s t ⟨⟩
  | succ n ih =>
    intro s t h
    unfold reduceLoop at h
    split_ifs at h
    rcases Res.andThen_eq_abandoned.1 h with h | ⟨_, u, _, h⟩
    · exact tjoinRule_ne_abandoned s t h
    · exact ih u t h

theorem treduceRule_twins {s s' : State} (h : Twin k k' s s') : Twins k k' (treduceRule s) (treduceRule s') :=
  twins_of_onHost treduceRule_onHost (fun s => (treduceRule_frame s).imp fun _ h => h.1) (fun s t ht => by
    unfold treduceRule at ht
    split_ifs at ht
    rcases Res.andThen_eq_abandoned.1 ht with ht | ⟨_, u, _, ht⟩
    · exact reduceLoop_ne_abandoned _ _ _ ht
    · cases ht) h

theorem sderiveRule_twins {s s' : State} (h : Twin k k' s s') : Twins k k' (sderiveRule s) (sderiveRule s') := by
  refine twins_of_onHost (fun h s => ?_) (fun s => (sderiveRule_frame s).imp fun _ h => h.1) (fun s t ht => ?_) h
  · unfold sderiveRule
    dsimp only
    cases deriveWalk s.core.tm (Config.pathMax + 1) s.core.root [] [] <;> rfl
  · unfold sderiveRule at ht
    split at ht <;> cases ht

theorem wbitRule_twins {s s' : State} (h : Twin k k' s s') (d : Decision) :
    Twins k k' (wbitRule d s) (wbitRule d s') := by
  unfold wbitRule
  dsimp only
  rw [h.core]
  split_ifs
  · refine (snkWrite_twins (h.withCore _) _).andThen fun _ s s' h => ⟨rfl, ?_⟩
    rw [h.core]; exact h.withCore _
  · exact ⟨rfl, (h.withCore _).withCore _⟩

theorem writePath_twins (p : Path) : ∀ {s s' : State}, Twin k k' s s' →
    Twins k k' (writePath p s) (writePath p s') := by
  induction p with
  | nil => intro s s' h; exact ⟨rfl, h⟩
  | cons d p ih => intro s s' h; exact (wbitRule_twins h d).andThen fun _ _ _ h => ih h

theorem wsymRule_twins {s s' : State} (h : Twin k k' s s') (sym : Byte) :
    Twins k k' (wsymRule sym s) (wsymRule sym s') := by
  unfold wsymRule
  rw [h.core]
  cases pathAt s.core.st sym with
  | none => exact ⟨rfl, rfl, h⟩
  | some p => exact writePath_twins p h

theorem wflushRule_twins {s s' : State} (h : Twin k k' s s') : Twins k k' (wflushRule s) (wflushRule s') := by
  unfold wflushRule
  rw [h.core]
  split_ifs
  · exact ⟨rfl, h⟩
  · refine (snkWrite_twins h _).andThen fun _ s s' h => ⟨rfl, ?_⟩
    rw [h.core]; exact h.withCore _

theorem hwriteRule_twins {s s' : State} (h : Twin k k' s s') : Twins k k' (hwriteRule s) (hwriteRule s') := by
  unfold hwriteRule
  rw [h.core]
  split_ifs
  · exact ⟨rfl, rfl, h⟩
  · exact snkWriteAll_twins _ h

theorem encodeLoop_twins (n : Nat) : ∀ {s s' : State}, Twin k k' s s' →
    Twins k k' (encodeLoop n s) (encodeLoop n s') := by
  induction n with
  | zero => intro s s' _; exact rfl
  | succ n ih =>
    intro s s' h
    unfold encodeLoop
    refine (srcRead_twins h).andThen fun r s s' h => ?_
    match r with
    | none => exact ⟨rfl, h⟩
    | some b => exact (wsymRule_twins h b).andThen fun _ _ _ h => ih h

/-- `ENCODE` on two hosts that serve and hold the same source (R168). -/
theorem encodeRule_twins {s s' : State} (h : Serving s) (h' : Serving s') (hsrc : s'.host.src = s.host.src) :
    Twins s.host.snk s'.host.snk (encodeRule s) (encodeRule s') := by
  unfold encodeRule
  rw [show clrRule s = .ok () s.cleared from rfl, show clrRule s' = .ok () s'.cleared from rfl, Res.andThen_ok,
    Res.andThen_ok, srcRewind_moved (s := s.cleared) h, srcRewind_moved (s := s'.cleared) h', Res.andThen_ok,
    Res.andThen_ok]
  have t1 : Twin s.host.snk s'.host.snk (s.cleared.moved 1 0 s.cleared.host.snk) (s'.cleared.moved 1 0 s'.cleared.host.snk) :=
    ⟨rfl, hsrc, rfl, (h.withCore _).moved _ _ _, (h'.withCore _).moved _ _ _, [], by simp [State.cleared], by simp [State.cleared]⟩
  refine (fscanRule_twins t1).andThen fun _ _ _ h => ?_
  refine (qbuildRule_twins h).andThen fun _ _ _ h => ?_
  refine (treduceRule_twins h).andThen fun _ _ _ h => ?_
  refine (sderiveRule_twins h).andThen fun _ _ _ h => ?_
  refine (hwriteRule_twins h).andThen fun _ _ _ h => ?_
  refine (srcRewind_twins h).andThen fun _ u u' h => ?_
  have hun : u'.unread = u.unread := by rw [State.unread, State.unread, h.src, h.pos]
  rw [hun]
  exact (encodeLoop_twins _ h).andThen fun _ _ _ h => wflushRule_twins h

end Sys2Proof.Machine
end

