-- ==== Sys2Proof/Tests/Slice0.lean ====
section
/-! SUPPORT. Tests on fixed values. Every expected value is from spec/95_test_vectors.md (the vector is named) or is
worked out by hand from the rule named. The witness theorems show, for each statement with hypotheses, a state and
operands that meet them all. -/

namespace Sys2Proof.Tests
open Sys2Proof Sys2Proof.Machine

/-! ### States to test on: those of V1, V2, V13 and V17 -/

/-- A CORE with a source and replies to its coming requests. -/
def on (c : CoreState) (src : List Byte) (pos : Nat) (replies : List HostReply) : State :=
  { core := c, host := { HostSide.reset with src := src, pos := pos, replies := replies } }

/-- The state a command leaves; the state before where it stops. -/
def after (i : Instr) (s : State) : State :=
  match exec i s with
  | .next t => t
  | .fault _ => s
  | .refused _ => s

/-- The same for a step. -/
def stepped (s : State) : State :=
  match step s with
  | .next t => t
  | .fault _ => s
  | .refused _ => s

def abcd : Memory Count := [(0x61, 4), (0x62, 3), (0x63, 2), (0x64, 1)]

def leaves : Memory Node := [(0x61, .leaf 0x61 4), (0x62, .leaf 0x62 3), (0x63, .leaf 0x63 2), (0x64, .leaf 0x64 1)]

/-- V13: the histogram of V1. -/
def counted : CoreState := { CoreState.reset with ft := abcd }

/-- V13: after `QBUILD`. -/
def queued : CoreState :=
  { counted with
    tm := leaves, queue := [0x64, 0x63, 0x62, 0x61], status := { CoreState.reset.status with phase := .queue } }

/-- V13: after `QEXT`. -/
def extracted : CoreState :=
  { queued with queue := [0x63, 0x62, 0x61], xn := 0x64, status := { queued.status with xnv := true } }

/-- V13: after `QEXT` twice, two nodes outside the queue. -/
def extractedTwo : CoreState :=
  { queued with queue := [0x62, 0x61], xn := 0x63, status := { queued.status with xnv := true } }

/-- Phase `QUEUE` with every node extracted. -/
def drained : CoreState :=
  { queued with queue := [], xn := 0x61, status := { queued.status with xnv := true } }

/-- V1: the tree. -/
def treed : CoreState :=
  { counted with
    tm := leaves ++ [(256, .internal 3 0x64 0x63), (257, .internal 6 0x62 256), (258, .internal 10 0x61 257)]
    root := 258, nextNode := 259, status := { CoreState.reset.status with phase := .tree } }

/-- V1: after `SDERIVE`. -/
def derived : CoreState :=
  { treed with
    st := [(0x61, [.left]), (0x62, [.right, .left]), (0x63, [.right, .right, .right]),
      (0x64, [.right, .right, .left])]
    status := { treed.status with stv := true } }

/-- V17: after `RINIT`. -/
def reading : CoreState := { treed with rrem := 10, status := { treed.status with rv := true } }

/-- V17: after the tenth `RNEXT`. -/
def readOut : CoreState :=
  { treed with rcnt := 5, outb := 0x64, status := { treed.status with rv := true, outv := true } }

/-- V2: the tree of the only symbol. -/
def lone : CoreState :=
  { CoreState.reset with
    ft := [(0x61, 4)], tm := [(0x61, .leaf 0x61 4)], root := 0x61
    status := { CoreState.reset.status with phase := .tree } }

/-- V8: the fault state after `ENCODE` of an empty source. -/
def faulted : CoreState := { CoreState.reset with err := 1, status := { CoreState.reset.status with fault := true } }

/-- V23: seven `WBIT 1` done. -/
def sevenBits : CoreState := { CoreState.reset with wacc := 0x7F, wcnt := 7 }

/-! ### Words: ill-formed operand fields are refused; one word of every command written out from R71 to R74 -/

theorem test_wellFormed_n : Format.argOk .n 0#9 = true ∧ Format.argOk .n 1#9 = false ∧ Format.argOk .n 0x100#9 = false := by
  decide
theorem test_wellFormed_b : Format.argOk .b 0x0FF#9 = true ∧ Format.argOk .b 0x100#9 = false := by decide
theorem test_wellFormed_d : Format.argOk .d 1#9 = true ∧ Format.argOk .d 2#9 = false ∧ Format.argOk .d 0x100#9 = false := by
  decide
theorem test_illFormed_words_are_reserved :
    decode 0b0001000000000001#16 = .reserved .operandBitsNotZero ∧
    decode 0b0101001100000000#16 = .reserved .operandBitsNotZero ∧
    decode 0b0101000000000010#16 = .reserved .operandBitsNotZero := by decide
/-- V22: the reserved words. -/
theorem test_reserved_words :
    [0x0000#16, 0xFFFF#16, 0x9000#16].map decode = List.replicate 3 (.reserved .unassignedGroup) ∧
    [0x1200#16, 0x2600#16].map decode = List.replicate 2 (.reserved .unassignedFunction) ∧
    [0x1001#16, 0x2401#16, 0x5300#16, 0x5002#16, 0x8001#16].map decode =
      List.replicate 5 (.reserved .operandBitsNotZero) := by
  decide

theorem test_decode_fscan : decode 0b0001000000000000#16 = .instr .fscan := by decide
theorem test_decode_qbuild : decode 0b0010000000000000#16 = .instr .qbuild := by decide
theorem test_decode_qins : decode 0b0010001111111111#16 = .instr (.qins 0x1FF#9) ∧
    decode 0b0010001001100100#16 = .instr (.qins 0x064#9) := by decide
theorem test_decode_qext : decode 0b0010010000000000#16 = .instr .qext := by decide
theorem test_decode_tjoin : decode 0b0011000000000000#16 = .instr .tjoin := by decide
theorem test_decode_treduce : decode 0b0011001000000000#16 = .instr .treduce := by decide
theorem test_decode_sderive : decode 0b0100000000000000#16 = .instr .sderive := by decide
theorem test_decode_wbit : decode 0b0101000000000001#16 = .instr (.wbit .left) ∧
    decode 0b0101000000000000#16 = .instr (.wbit .right) := by decide
theorem test_decode_wsym : decode 0b0101001011111110#16 = .instr (.wsym 0xFE#8) := by decide
theorem test_decode_wflush : decode 0b0101010000000000#16 = .instr .wflush := by decide
theorem test_decode_rinit : decode 0b0110000000000000#16 = .instr .rinit := by decide
theorem test_decode_rnext : decode 0b0110001000000000#16 = .instr .rnext := by decide
theorem test_decode_hwrite : decode 0b0111000000000000#16 = .instr .hwrite := by decide
theorem test_decode_hread : decode 0b0111001000000000#16 = .instr .hread := by decide
theorem test_decode_encode : decode 0b0111010000000000#16 = .instr .encode := by decide
theorem test_decode_decode : decode 0b0111011000000000#16 = .instr .decode := by decide
theorem test_decode_clr : decode 0b1000000000000000#16 = .instr .clr := by decide
theorem test_decode_srew : decode 0b1000001000000000#16 = .instr .srew := by decide
theorem test_decodeTableWord : decodeTableWord 16 0x2264 = some (.qins 0x064) ∧ decodeTableWord 16 0x2600 = none := by
  decide

/-! ### One step each -/

theorem test_reset_memories_are_canonical : MemoriesCanonical State.reset := by decide

/-- V12, first row. -/
theorem test_fscan_counts : (after .fscan (on CoreState.reset [0x61, 0x62] 0 [])).core.ft = [(0x61, 1), (0x62, 1)] := by
  decide
/-- V12: the count at its limit raises, stays, and the byte was consumed. -/
theorem test_fscan_overflow :
    let t := after .fscan (on { CoreState.reset with ft := [(0x61, BitVec.allOnes 64)] } [0x61] 0 [])
    t.core.err = 9 ∧ t.core.errinfo = 0x61 ∧ t.core.ft = [(0x61, BitVec.allOnes 64)] ∧ t.host.pos = 1 := by decide
/-- V13, start. -/
theorem test_qbuild_sorts : (after .qbuild (on counted [] 0 [])).core.queue = [0x64, 0x63, 0x62, 0x61] := by decide
/-- V7: equal weights, the lower byte first. -/
theorem test_qbuild_ties :
    (after .qbuild (on { counted with ft := [(0x78, 1), (0x79, 1), (0x7A, 1)] } [] 0 [])).core.queue =
      [0x78, 0x79, 0x7A] := by decide
/-- V13: the node in `XN` goes back. -/
theorem test_qins_of_xn :
    let t := after (.qins 0x64) (on extracted [] 0 [])
    t.core.queue = [0x64, 0x63, 0x62, 0x61] ∧ t.core.xn = 511 ∧ statusBits t.core.status = 0x02 := by decide
/-- V13: a node not in `XN` goes back, and `XN` stays. -/
theorem test_qins_of_another :
    let t := after (.qins 0x64) (on extractedTwo [] 0 [])
    t.core.queue = [0x64, 0x62, 0x61] ∧ t.core.xn = 0x63 ∧ statusBits t.core.status = 0x82 := by decide
/-- V13. -/
theorem test_qext_takes_first :
    let t := after .qext (on queued [] 0 [])
    t.core.xn = 0x64 ∧ t.core.queue = [0x63, 0x62, 0x61] ∧ statusBits t.core.status = 0x82 := by decide
/-- V13: the fifth `QEXT`. -/
theorem test_qext_empty :
    let t := after .qext (on drained [] 0 [])
    t.core.err = 2 ∧ t.core.errinfo = 0 ∧ t.core.xn = 0x61 ∧ statusBits t.core.status = 0x83 := by decide
/-- V1, join 0: the leaf `0x62` of equal weight goes first. -/
theorem test_tjoin_first :
    let t := after .tjoin (on queued [] 0 [])
    nodeAt t.core.tm 256 = some (.internal 3 0x64 0x63) ∧ t.core.queue = [0x62, 256, 0x61] ∧ t.core.nextNode = 257 := by
  decide
/-- R121: one entry is too few, and it stays queued. -/
theorem test_tjoin_one :
    let t := after .tjoin (on { queued with queue := [0x61] } [] 0 [])
    t.core.err = 2 ∧ t.core.errinfo = 1 ∧ t.core.queue = [0x61] := by decide
/-- V1. -/
theorem test_treduce_v1 :
    let t := after .treduce (on queued [] 0 [])
    t.core.tm = treed.tm ∧ t.core.root = 258 ∧ t.core.nextNode = 259 ∧ t.core.queue = [] ∧
      statusBits t.core.status = 0x04 := by decide
/-- V15. -/
theorem test_sderive_v1 : (after .sderive (on treed [] 0 [])).core = derived := by decide +kernel
/-- V15, second row: the empty path. -/
theorem test_sderive_lone : (after .sderive (on lone [] 0 [])).core.st = [(0x61, [])] := by decide
/-- R141's example, the third command: bit 2 is set. -/
theorem test_wbit_sets_its_bit :
    let t := after (.wbit .left) (on { CoreState.reset with wacc := 0x01, wcnt := 2 } [] 0 [])
    t.core.wacc = 0x05 ∧ t.core.wcnt = 3 ∧ t.host.snk = [] := by decide
/-- R141's example, the eighth command. -/
theorem test_wbit_completes_a_byte :
    let t := after (.wbit .left) (on { CoreState.reset with wacc := 0x0D, wcnt := 7 } [] 0 [])
    t.host.snk = [0x8D] ∧ t.core.wacc = 0 ∧ t.core.wcnt = 0 := by decide
/-- R142's example, the last `WSYM`: six bits `111101` pending, then `b` = `01`. -/
theorem test_wsym_straddles :
    let t := after (.wsym 0x62) (on { derived with wacc := 0x2F, wcnt := 6 } [] 0 [])
    t.host.snk = [0xAF] ∧ t.core.wcnt = 0 := by decide
/-- V16. -/
theorem test_wsym_unknown : (after (.wsym 0x7A) (on derived [] 0 [])).core.errinfo = 0x7A ∧
    (after (.wsym 0x7A) (on derived [] 0 [])).core.err = 10 := by decide
/-- V4. -/
theorem test_wflush_pending :
    let t := after .wflush (on { CoreState.reset with wacc := 0x01, wcnt := 1 } [] 0 [])
    t.host.snk = [0x01] ∧ t.core.wacc = 0 ∧ t.core.wcnt = 0 := by decide
/-- V3. -/
theorem test_wflush_nothing : (after .wflush (on CoreState.reset [] 0 [])).host.snk = [] := by decide
/-- V17. -/
theorem test_rinit_v17 : (after .rinit (on treed [] 0 [])).core.rrem = 10 ∧
    statusBits (after .rinit (on treed [] 0 [])).core.status = 0x14 := by decide +kernel
/-- V17, call 5: the bits `0`, `1` of `0x0A` held four deep. -/
theorem test_rnext_call_five :
    let t := after .rnext (on { reading with racc := 0x0A, rcnt := 4, rrem := 6 } [] 0 [])
    t.core.outb = 0x62 ∧ t.core.racc = 0x02 ∧ t.core.rcnt = 2 ∧ t.core.rrem = 5 ∧
      statusBits t.core.status = 0x54 := by decide
/-- V17, call 10: a fresh byte `04`, the bits `0`, `0`, `1`. -/
theorem test_rnext_call_ten :
    let t := after .rnext (on { reading with rrem := 1 } [0x04] 0 [])
    t.core.outb = 0x64 ∧ t.core.racc = 0 ∧ t.core.rcnt = 5 ∧ t.core.rrem = 0 ∧ t.host.pos = 1 := by decide +kernel
/-- V18, first row. -/
theorem test_hwrite_big_endian :
    (after .hwrite (on { CoreState.reset with ft := [(0x41, 0x0102030405060708)] } [] 0 [])).host.snk =
      [1, 0x41, 1, 2, 3, 4, 5, 6, 7, 8] := by decide +kernel
/-- V18: the empty table. -/
theorem test_hwrite_empty : (after .hwrite (on CoreState.reset [] 0 [])).host.snk = [0x00] := by decide
/-- V18: the two-entry header, one payload byte left. -/
theorem test_hread_two :
    let t := after .hread (on CoreState.reset
      [2, 0x78, 0, 0, 0, 0, 0, 0, 0, 1, 0x79, 0, 0, 0, 0, 0, 0, 0, 1, 1] 0 [])
    t.core.ft = [(0x78, 1), (0x79, 1)] ∧ t.host.pos = 19 := by decide
/-- V21: a descending header, entry 1 refused, entry 0 stored. -/
theorem test_hread_descending :
    let t := after .hread (on CoreState.reset
      [2, 0x62, 0, 0, 0, 0, 0, 0, 0, 1, 0x61, 0, 0, 0, 0, 0, 0, 0, 1, 1] 0 [])
    t.core.err = 6 ∧ t.core.errinfo = 0x101 ∧ t.core.ft = [(0x62, 1)] ∧ t.host.pos = 19 := by decide
/-- V7: `ba`. -/
theorem test_encode_ba :
    (after .encode (on CoreState.reset [0x62, 0x61] 0 [])).host.snk =
      [2, 0x61, 0, 0, 0, 0, 0, 0, 0, 1, 0x62, 0, 0, 0, 0, 0, 0, 0, 1, 0x02] := by decide +kernel
/-- V8. -/
theorem test_encode_empty :
    let t := after .encode (on CoreState.reset [] 0 [])
    t.core.err = 1 ∧ t.core.errinfo = 0 ∧ statusBits t.core.status = 0x01 ∧ t.host.snk = [] := by decide
/-- V21, the last row but the good case: padding that is not zero, a byte after the payload. -/
theorem test_decode_two :
    let t := after .decode (on CoreState.reset
      [2, 0x78, 0, 0, 0, 0, 0, 0, 0, 1, 0x79, 0, 0, 0, 0, 0, 0, 0, 1, 0xFD, 0x99] 0 [])
    t.host.snk = [0x78, 0x79] ∧ t.core.racc = 0x3F ∧ t.core.rcnt = 6 ∧ t.host.pos = 20 ∧
      statusBits t.core.status = 0x34 := by decide +kernel
/-- V21: the length byte 0. -/
theorem test_decode_no_entry :
    let t := after .decode (on CoreState.reset [0] 0 [])
    t.core.err = 1 ∧ t.host.pos = 1 ∧ statusBits t.core.status = 0x01 := by decide
/-- V24: the fault state and pending bits are cleared, the streams stay. -/
theorem test_clr : after .clr (on { faulted with wacc := 1, wcnt := 1 } [0x61] 1 []) =
    { core := CoreState.reset, host := { HostSide.reset with src := [0x61], pos := 1, answers := [.done] } } := by decide
/-- V24. -/
theorem test_srew : (after .srew (on counted [0x61, 0x62] 2 [])).host.pos = 0 := by decide
/-- V23, third row. -/
theorem test_srew_fails :
    let t := after .srew (on CoreState.reset [0x61] 1 [.fails 7 0 false])
    t.core.err = 5 ∧ t.core.errinfo = 7 := by decide
/-- V22: a reserved word, and any word but `CLR` in the fault state. -/
theorem test_step_reserved :
    let t := stepped ((on CoreState.reset [] 0 []).withFetchWord 16 0x5300)
    t.core.err = 12 ∧ t.core.errinfo = 0x5300 ∧ statusBits t.core.status = 0x01 ∧
      (stepped ((on faulted [] 0 []).withFetchWord 16 0xFFFF)).host.answers = [.refused] := by decide
/-- R220: reset after the last byte was moved and before the answer, with V4's pending bit. -/
theorem test_step_reset_before_the_answer :
    stepped ((on { CoreState.reset with wacc := 0x01, wcnt := 1 } [] 0 []).withScript [.commandReset 0x5400]) =
      { core := CoreState.reset, host := { HostSide.reset with snk := [0x01] } } := by decide
/-- V1 and V24: the read port. -/
theorem test_read_port :
    regRead derived 0 = 0x0C ∧ regRead derived 4 = 258 ∧ regRead derived 13 = 4 ∧ regRead derived 14 = 10 ∧
    memRead derived .tm 258 = 0xC00000000000000000028C301 ∧ memRead derived .tm 0x64 = 0x9900000000000000000040000 ∧
    memRead derived .qm 0 = 511 ∧ memRead derived .tm 511 = 0 ∧
    (memRead derived .st 0x64).extractLsb' 252 12 = 0x818 ∧ (memRead derived .st 0x64).extractLsb' 0 252 = 4 := by
  decide +kernel

/-! ### Witnesses: a state and operands that meet all hypotheses of a statement, for each clause, at its bounds -/

/-- The outcome is a next state. -/
def answers {σ φ ρ : Type} : Host.Outcome σ φ ρ → Bool
  | .next _ => true
  | .fault _ => false
  | .refused _ => false

theorem exec_eq_after {i : Instr} {s : State} (h : answers (exec i s) = true) : exec i s = .next (after i s) := by
  unfold after
  cases he : exec i s with
  | next t => rfl
  | fault f => rw [he] at h; cases h
  | refused r => rw [he] at h; cases h

theorem step_eq_stepped {s : State} (h : answers (step s) = true) : step s = .next (stepped s) := by
  unfold stepped
  cases he : step s with
  | next t => rfl
  | fault f => rw [he] at h; cases h
  | refused r => rw [he] at h; cases h

theorem exec_hwrite_of_raised {s t : State} {k : ErrorKind} {info : BitVec 32} (hr : Ready .hwrite s)
    (h : hwriteRule s = .raised k info t) : exec .hwrite s = .next (takeFault k info t) := by
  change perform .hwrite s hwriteRule = _
  rw [perform, if_neg (by simp [hr.1]), if_pos hr.2, h]
  rfl

/-- The host's next actions put before a state. -/
def scripted (s : State) (es : List HostEvent) : State := s.withScript es

/-- A table of the first `n` byte values, each counted once. -/
def firstBytes (n : Nat) : CoreState := { CoreState.reset with ft := (List.range n).map fun b => (b, 1) }

/-- V13 with one entry in the queue, the only symbol's leaf. -/
def queuedOne : CoreState :=
  { CoreState.reset with
    ft := [(0x61, 4)], tm := [(0x61, .leaf 0x61 4)], queue := [0x61]
    status := { CoreState.reset.status with phase := .queue } }

/-- After one `TJOIN` of V1 and a `QEXT`: node 256 is internal and has a child 0x64 with a parent. -/
def joinedOnce : CoreState :=
  { queued with
    tm := leaves ++ [(256, .internal 3 0x64 0x63)], queue := [256, 0x61], nextNode := 257, xn := 0x62
    status := { queued.status with xnv := true } }

/-- V17 past its end: `EOM` = 1. -/
def ended : CoreState := { readOut with outb := 0, status := { readOut.status with outv := false, eom := true } }

/-- V2: the reader of the only symbol. -/
def loneReading : CoreState := { lone with rrem := 4, status := { lone.status with rv := true } }

/-- A two-entry header. -/
def xyHeader : List Byte := [2, 0x78, 0, 0, 0, 0, 0, 0, 0, 1, 0x79, 0, 0, 0, 0, 0, 0, 0, 1]

/-- All 256 byte values present. -/
theorem nsym_firstBytes_256 : nsym (firstBytes 256).ft = 256 := by decide +kernel

theorem witness_ResetLeavesTheTableOfR28 : (scripted (on faulted [1] 1 []) [.reset]).host.script = .reset :: [] := rfl

theorem witness_StepRunsTheDecodedCommand :
    (scripted (on queued [] 0 []) [.command 0x23FF#16]).host.script = .command 0x23FF#16 :: [] ∧
    decode 0x23FF#16 = .instr (.qins 511#9) := by decide

theorem witness_StepWithoutACommand :
    State.reset.host.script = [] ∧ (scripted State.reset [.reset]).host.script = .reset :: [] ∧
    (scripted State.reset [.streams [1, 2] 2 [3]]).host.script = .streams [1, 2] 2 [3] :: [] ∧
    2 ≤ ([1, 2] : List Byte).length := by decide

theorem witness_DecodeEncodeAgree :
    (Instr.qins 511#9).wellFormed = true ∧ (Instr.wsym 0xFF#8).wellFormed = true ∧
    (Instr.wbit .right).wellFormed = true ∧ Instr.srew.wellFormed = true := by decide

theorem witness_EveryWordMatchesOneRowOrIsReserved :
    matchesRow 0x23FF#16 (.qins 511#9) = true ∧ matchesRow 0x23FF#16 (.qins 0#9) = true := by decide

theorem witness_ReservedWordRaisesIllegalCommand :
    (scripted State.reset [.command 0x5300#16]).host.script = .command 0x5300#16 :: [] ∧
    (scripted State.reset [.command 0x5300#16]).core.status.fault = false ∧
    ∀ i, matchesRow 0x5300#16 i = false := by
  refine ⟨rfl, rfl, fun i => ?_⟩
  cases i <;> simp [matchesRow, Instr.format, Instr.word, Format.mask]

theorem witness_FaultIsStickyUntilCleared :
    (scripted (on faulted [] 0 []) [.command 0x8001#16]).core.status.fault = true ∧
    (scripted (on faulted [] 0 []) [.command 0x8001#16]).host.script = .command 0x8001#16 :: [] ∧
    0x8001#16 ≠ 0x8000#16 ∧
    (scripted (on faulted [] 0 []) [.command 0x8000#16]).host.script = .command 0x8000#16 :: [] := by decide
theorem witness_FaultIsStickyUntilCleared_clearing :
    (scripted (on faulted [] 0 []) [.reset]).core.status.fault = true ∧
    step (scripted (on faulted [] 0 []) [.reset]) = .next (stepped (scripted (on faulted [] 0 []) [.reset])) ∧
    (stepped (scripted (on faulted [] 0 []) [.reset])).core.status.fault = false ∧
    step (scripted (on faulted [] 0 []) [.commandReset 0x1000#16]) =
      .next (stepped (scripted (on faulted [] 0 []) [.commandReset 0x1000#16])) ∧
    (stepped (scripted (on faulted [] 0 []) [.commandReset 0x1000#16])).core.status.fault = false :=
  ⟨rfl, rfl, rfl, rfl, rfl⟩

theorem witness_SequenceErrorWhereThePreconditionFails :
    (on queued [] 0 []).core.status.fault = false ∧ (on queued [] 0 []).core.status.phase ≠ .idle ∧
    (on treed [] 0 []).core.status.phase ≠ .queue ∧ (on queued [] 0 []).core.status.phase ≠ .tree ∧
    (on treed [] 0 []).core.status.stv = false ∧ (on treed [] 0 []).core.status.rv = false ∧
    (on ended [] 0 []).core.status.fault = false ∧ (on ended [] 0 []).core.status.eom = true := by decide
theorem witness_SequenceErrorWhereThePreconditionFails_qins :
    Ready (.qins 511#9) (on queued [] 0 []) ∧
    Ready (.qins 0x65#9) (on queued [] 0 []) ∧ validNode queued.tm 0x65#9 = false ∧
    Ready (.qins 0x64#9) (on joinedOnce [] 0 []) ∧ freeRoot joinedOnce.tm 0x64#9 = false ∧
    Ready (.qins 0x61#9) (on queued [] 0 []) ∧ inQueue queued.queue 0x61#9 = true := by decide

theorem witness_RaiseWritesOnlyTheFaultRegisters :
    (on faulted [] 0 []).core.status.fault = true ∧ Instr.encode ≠ .clr ∧
    exec .encode (on faulted [] 0 []) = .next (after .encode (on faulted [] 0 [])) := ⟨rfl, by decide, rfl⟩

theorem witness_CommandsRaiseOnlyTheirKinds :
    exec .qext (on drained [] 0 []) = .next (after .qext (on drained [] 0 [])) ∧
    (on drained [] 0 []).core.status.fault = false ∧ (after .qext (on drained [] 0 [])).core.status.fault = true ∧
    (on faulted [] 0 []).core.status.fault = true ∧ Instr.srew ≠ .clr ∧
    exec .clr (on faulted [] 0 []) = .next (after .clr (on faulted [] 0 [])) :=
  ⟨rfl, rfl, rfl, rfl, by decide, rfl⟩
theorem witness_CommandsRaiseOnlyTheirKinds_precondition :
    exec .rnext (on ended [] 0 []) = .next (after .rnext (on ended [] 0 [])) ∧
    (on ended [] 0 []).core.status.fault = false ∧ (after .rnext (on ended [] 0 [])).core.status.fault = true :=
  ⟨rfl, rfl, rfl⟩

theorem witness_IoErrorCarriesTheHostsCode :
    exec .srew (on CoreState.reset [0x61] 1 [.fails 7 0 false]) =
      .next (after .srew (on CoreState.reset [0x61] 1 [.fails 7 0 false])) ∧
    (on CoreState.reset [0x61] 1 [.fails 7 0 false]).core.status.fault = false ∧
    (after .srew (on CoreState.reset [0x61] 1 [.fails 7 0 false])).core.status.fault = true ∧
    (after .srew (on CoreState.reset [0x61] 1 [.fails 7 0 false])).core.err = 5#4 := ⟨rfl, rfl, rfl, rfl⟩
/-- Answered without `IoError`: two replies used up, the failing one not reached; and answered with another fault. -/
theorem witness_IoErrorCarriesTheHostsCode_served :
    exec .fscan (on CoreState.reset [1] 0 [.serves, .serves, .fails 7 0 false]) =
      .next (after .fscan (on CoreState.reset [1] 0 [.serves, .serves, .fails 7 0 false])) ∧
    (after .fscan (on CoreState.reset [1] 0 [.serves, .serves, .fails 7 0 false])).host.answers = [] ++ [.done] ∧
    (after .fscan (on CoreState.reset [1] 0 [.serves, .serves, .fails 7 0 false])).host.replies = [.fails 7 0 false] ∧
    exec .hread (on CoreState.reset [] 0 []) = .next (after .hread (on CoreState.reset [] 0 [])) ∧
    (after .hread (on CoreState.reset [] 0 [])).host.answers = [] ++ [.fault 3#4] :=
  ⟨exec_eq_after (by decide +kernel), by decide +kernel, by decide +kernel, exec_eq_after (by decide), by decide⟩

theorem witness_FirstStatementFaultsChangeNothingElse :
    exec (.wsym 0x7A) (on derived [] 0 []) = .next (after (.wsym 0x7A) (on derived [] 0 [])) ∧
    (after (.wsym 0x7A) (on derived [] 0 [])).core.status.fault = true ∧
    (after (.wsym 0x7A) (on derived [] 0 [])).core.err = 10#4 ∧
    exec .qbuild State.reset = .next (after .qbuild State.reset) ∧
    (after .qbuild State.reset).core.status.fault = true ∧ (after .qbuild State.reset).core.err = 1#4 :=
  ⟨exec_eq_after (by decide), by decide, by decide, exec_eq_after (by decide), by decide, by decide⟩
theorem witness_FirstStatementFaultsChangeNothingElse_rest :
    exec .qext (on drained [] 0 []) = .next (after .qext (on drained [] 0 [])) ∧
    (after .qext (on drained [] 0 [])).core.err = 2#4 ∧
    exec .hwrite (on (firstBytes 256) [] 0 []) =
      .next (takeFault .headerCountOverflow 256#32 (on (firstBytes 256) [] 0 [])) ∧
    (takeFault .headerCountOverflow 256#32 (on (firstBytes 256) [] 0 [])).core.err = 8#4 ∧
    exec .rnext (on ended [] 0 []) = .next (after .rnext (on ended [] 0 [])) ∧
    (after .rnext (on ended [] 0 [])).core.err = 11#4 :=
  ⟨rfl, rfl, exec_hwrite_of_raised (by decide) (if_pos nsym_firstBytes_256), rfl, rfl, rfl⟩

theorem witness_EveryCommandIsAnsweredOnce :
    exec .qext (on queued [] 0 []) = .next (after .qext (on queued [] 0 [])) ∧ NoResetPending (on queued [] 0 []) ∧
    exec .qext (on drained [] 0 []) = .next (after .qext (on drained [] 0 [])) ∧ NoResetPending (on drained [] 0 []) ∧
    exec .wflush (on faulted [] 0 [.fails 7 0 true]) = .next (after .wflush (on faulted [] 0 [.fails 7 0 true])) ∧
    NoResetPending (on faulted [] 0 [.fails 7 0 true]) :=
  ⟨rfl, by decide, rfl, by decide, rfl, by decide⟩

theorem witness_AbandonedCommandLeavesTheCoreReset :
    exec .fscan (on CoreState.reset [1] 0 [.resets]) = .next (after .fscan (on CoreState.reset [1] 0 [.resets])) ∧
    (after .fscan (on CoreState.reset [1] 0 [.resets])).host.answers = (on CoreState.reset [1] 0 [.resets]).host.answers :=
  ⟨rfl, rfl⟩
/-- Each command whose next request meets a reset. -/
theorem witness_AbandonedCommandLeavesTheCoreReset_request :
    (on CoreState.reset [1] 0 [.resets]).nextReply = .resets ∧ Ready .fscan (on CoreState.reset [1] 0 [.resets]) ∧
    Ready .hread (on CoreState.reset [1] 0 [.resets]) ∧ Ready .encode (on derived [1] 0 [.resets]) ∧
    Ready .decode (on derived [1] 0 [.resets]) ∧ Ready .srew (on derived [1] 0 [.resets]) ∧
    Ready .hwrite (on CoreState.reset [] 0 [.resets]) ∧ nsym CoreState.reset.ft ≠ 256 ∧
    Ready .wflush (on sevenBits [] 0 [.resets]) ∧ Ready (.wbit .left) (on sevenBits [] 0 [.resets]) ∧
    Ready (.wsym 0x61) (on { derived with wacc := 0x7F, wcnt := 7 } [] 0 [.resets]) ∧
    pathAt derived.st 0x61 = some [.left] ∧ 8 ≤ (7#3).toNat + ([.left] : Path).length ∧
    Ready .rnext (on reading [4] 0 [.resets]) ∧ reading.rrem ≠ 0#72 ∧ reading.rcnt = 0#3 ∧ reading.root ≠ 511#9 ∧
    nodeAt reading.tm reading.root = some (.internal 10 0x61 257) := by decide +kernel
/-- A reset after the first byte of a header, and after the only byte of a source. -/
theorem witness_AbandonedCommandLeavesTheCoreReset_moved :
    1 < (headerBytes counted.ft).length ∧ Ready .hwrite (on counted [] 0 [.serves, .resets]) ∧ nsym counted.ft ≠ 256 ∧
    (on counted [] 0 [.serves, .resets]).host.replies = List.replicate 1 HostReply.serves ++ .resets :: [] ∧
    Ready .fscan (on CoreState.reset [1] 0 [.serves, .resets]) ∧ 0 + 1 ≤ ([1] : List Byte).length ∧
    ∀ b : Byte, (countAt CoreState.reset.ft b).toNat + ((([1] : List Byte).drop 0).take 1).count b < 2 ^ 64 := by
  decide +kernel
theorem witness_AbandonedCommandLeavesTheCoreReset_late :
    (scripted (on sevenBits [] 0 []) [.commandReset 0x5400#16]).host.script = .commandReset (encode .wflush) :: [] ∧
    Ready .wflush (scripted (on sevenBits [] 0 []) [.commandReset 0x5400#16]) ∧ sevenBits.wcnt ≠ 0#3 ∧
    (on sevenBits [] 0 []).nextReply = .serves ∧
    step ((scripted (on sevenBits [] 0 []) [.commandReset 0x5400#16]).withScript [.command 0x5400#16]) =
      .next (stepped (scripted (on sevenBits [] 0 []) [.command 0x5400#16])) :=
  ⟨rfl, by decide, by decide, by decide, step_eq_stepped (by decide)⟩

theorem witness_CommandsAnswerWhenTheHostDoes :
    Inv (on queued [] 0 [.fails 7 0 true, .resets]) ∧ Answering (on queued [] 0 [.fails 7 0 true, .resets]) ∧
    NoResetPending (on readOut [1] 1 []) ∧ Answering (on readOut [1] 1 []) ∧
    Inv (on readOut [1] 1 []) ∧ Inv (on faulted [] 0 []) ∧ Inv (on joinedOnce [] 0 []) :=
  ⟨by decide +kernel, by decide, by decide, by decide, by decide +kernel, by decide +kernel, by decide +kernel⟩

theorem witness_SrewRewindsTheSource :
    Ready .srew (on queued [1] 1 []) ∧ (on queued [1] 1 []).nextReply = .serves ∧
    Ready .srew (on queued [1] 1 [.fails 7 0 false]) ∧
    (on queued [1] 1 [.fails 7 0 false]).nextReply = .fails 7 0 false := by decide

theorem witness_FscanAddsTheHistogram :
    Ready .fscan (on { CoreState.reset with ft := [(0x61, 0xFFFFFFFFFFFFFFFD)] } [0x62, 0x61, 0x61] 1 [.serves]) ∧
    Serving (on { CoreState.reset with ft := [(0x61, 0xFFFFFFFFFFFFFFFD)] } [0x62, 0x61, 0x61] 1 [.serves]) ∧
    1 ≤ ([0x62, 0x61, 0x61] : List Byte).length ∧
    ∀ b : Byte, (countAt [(0x61, 0xFFFFFFFFFFFFFFFD)] b).toNat +
      (([0x62, 0x61, 0x61] : List Byte).drop 1).count b < 2 ^ 64 := by decide +kernel

theorem witness_FscanCountOverflowKeepsTheCount :
    Ready .fscan (on { CoreState.reset with ft := [(0x61, 0xFFFFFFFFFFFFFFFE)] } [0x61, 0x61, 0x62] 0 []) ∧
    Serving (on { CoreState.reset with ft := [(0x61, 0xFFFFFFFFFFFFFFFE)] } [0x61, 0x61, 0x62] 0 []) ∧
    ([0x61, 0x61, 0x62] : List Byte).drop 0 = [0x61] ++ 0x61 :: [0x62] ∧
    (∀ x : Byte, (countAt [(0x61, 0xFFFFFFFFFFFFFFFE)] x).toNat + ([0x61] : List Byte).count x < 2 ^ 64) ∧
    (countAt [(0x61, 0xFFFFFFFFFFFFFFFE)] 0x61).toNat + ([0x61] : List Byte).count 0x61 = 2 ^ 64 - 1 := by
  decide +kernel

theorem witness_QbuildQueuesOneLeafPerPresentByte :
    Ready .qbuild (on counted [] 0 []) ∧ nsym counted.ft ≠ 0 ∧
    Ready .qbuild (on (firstBytes 256) [] 0 []) ∧ nsym (firstBytes 256).ft = 256 :=
  ⟨by decide, by decide +kernel, by decide, nsym_firstBytes_256⟩

theorem witness_QinsPutsTheNodeAtItsPlace :
    Inv (on extracted [] 0 []) ∧ Ready (.qins 0x64#9) (on extracted [] 0 []) ∧ eligible extracted 0x64#9 = true ∧
    extracted.status.xnv = true ∧ extracted.xn = 0x64#9 ∧
    Inv (on extractedTwo [] 0 []) ∧ Ready (.qins 0x64#9) (on extractedTwo [] 0 []) ∧
    eligible extractedTwo 0x64#9 = true ∧ extractedTwo.xn ≠ 0x64#9 :=
  ⟨by decide +kernel, by decide, by decide, rfl, rfl, by decide +kernel, by decide, by decide, by decide⟩

theorem witness_InsertionOrderDoesNotShow :
    queued.queue.Pairwise (fun i j => nodeLt queued.tm i j = true) ∧ queued.queue.Perm queued.queue ∧
    Inv (on extractedTwo [] 0 []) ∧ Ready (.qins 0x63#9) (on extractedTwo [] 0 []) ∧ 0x63#9 ≠ 0x64#9 ∧
    eligible extractedTwo 0x63#9 = true ∧ eligible extractedTwo 0x64#9 = true :=
  ⟨by decide +kernel, by decide, by decide +kernel, by decide, by decide, by decide, by decide⟩

theorem witness_QextTakesTheMinimum :
    Ready .qext (on queued [] 0 []) ∧ queued.queue = 0x64#9 :: [0x63#9, 0x62#9, 0x61#9] ∧
    Ready .qext (on queuedOne [] 0 []) ∧ queuedOne.queue = 0x61#9 :: [] := by decide

/-- Equal weights and different weights; the free roots of a state that meets R24. -/
theorem witness_ComparatorIsAStrictTotalOrder :
    nodeLt leaves 0x64#9 0x63#9 = true ∧ nodeLt leaves 0x63#9 0x62#9 = true ∧
    Inv (on joinedOnce [] 0 []) ∧ freeRoot joinedOnce.tm 256#9 = true ∧ freeRoot joinedOnce.tm 0x62#9 = true ∧
    256#9 ≠ 0x62#9 ∧ weight joinedOnce.tm 256#9 = weight joinedOnce.tm 0x62#9 ∧
    nodeAt joinedOnce.tm 0x64#9 = some (.leaf 0x64 1) ∧ nodeAt joinedOnce.tm 256#9 = some (.internal 3 0x64 0x63) :=
  ⟨by decide +kernel, by decide +kernel, by decide +kernel, by decide, by decide, by decide, by decide, rfl, rfl⟩

theorem witness_EmptyQueueErrorOnAShortQueue :
    Ready .qext (on drained [] 0 []) ∧ Ready .treduce (on drained [] 0 []) ∧ drained.queue.length = 0 ∧
    Ready .tjoin (on drained [] 0 []) ∧ Ready .tjoin (on queuedOne [] 0 []) ∧ queuedOne.queue.length < 2 := by decide
theorem witness_EmptyQueueErrorOnAShortQueue_never :
    (on CoreState.reset [] 0 []).core.status.fault = false ∧
    exec .encode (on CoreState.reset [] 0 []) = .next (after .encode (on CoreState.reset [] 0 [])) ∧
    exec .decode (on CoreState.reset [0] 0 []) = .next (after .decode (on CoreState.reset [0] 0 [])) :=
  ⟨rfl, exec_eq_after (by decide +kernel), exec_eq_after (by decide +kernel)⟩

theorem witness_TjoinJoinsTheTwoMinima :
    Inv (on queued [] 0 []) ∧ Ready .tjoin (on queued [] 0 []) ∧ queued.queue = 0x64#9 :: 0x63#9 :: [0x62#9, 0x61#9] ∧
    Inv (on joinedOnce [] 0 []) ∧ Ready .tjoin (on joinedOnce [] 0 []) ∧ joinedOnce.queue = 256#9 :: 0x61#9 :: [] :=
  ⟨by decide +kernel, by decide, rfl, by decide +kernel, by decide, rfl⟩

theorem witness_TreduceBuildsOneTree :
    Inv (on queued [] 0 []) ∧ Ready .treduce (on queued [] 0 []) ∧ queued.queue ≠ [] ∧
    Inv (on queuedOne [] 0 []) ∧ Ready .treduce (on queuedOne [] 0 []) ∧ queuedOne.queue.length = 1 ∧
    2 ≤ queued.queue.length :=
  ⟨by decide +kernel, by decide, by decide, by decide +kernel, by decide, rfl, by decide⟩

theorem witness_QbuildThenTreduceBuildsTheWholeTree :
    Inv (on counted [] 0 []) ∧ Ready .qbuild (on counted [] 0 []) ∧ nsym counted.ft = 4 ∧
    Inv (on (firstBytes 1) [] 0 []) ∧ Ready .qbuild (on (firstBytes 1) [] 0 []) ∧ nsym (firstBytes 1).ft = 1 :=
  ⟨by decide +kernel, by decide, by decide +kernel, by decide +kernel, by decide, by decide +kernel⟩

theorem witness_SderiveRecordsTheRootToLeafPaths :
    Inv (on treed [] 0 []) ∧ Ready .sderive (on treed [] 0 []) ∧
    leadsToLeaf treed.tm treed.root [.right, .right, .left] 0x64 = true ∧
    Inv (on lone [] 0 []) ∧ Ready .sderive (on lone [] 0 []) ∧ leadsToLeaf lone.tm lone.root [] 0x61 = true :=
  ⟨by decide +kernel, by decide, by decide, by decide +kernel, by decide, by decide⟩

theorem witness_OnlySymbolHasTheEmptyPath :
    Ready .sderive (on lone [] 0 []) ∧ lone.root ≠ 511#9 ∧ nodeAt lone.tm lone.root = some (.leaf 0x61 4) := by decide

theorem witness_CodewordsArePrefixFree :
    Inv (on treed [] 0 []) ∧ Ready .sderive (on treed [] 0 []) ∧
    exec .sderive (on treed [] 0 []) = .next (after .sderive (on treed [] 0 [])) ∧
    pathAt (after .sderive (on treed [] 0 [])).core.st 0x61 = some [.left] ∧
    pathAt (after .sderive (on treed [] 0 [])).core.st 0x62 = some [.right, .left] ∧ (0x61 : Byte) ≠ 0x62 :=
  ⟨by decide +kernel, by decide, exec_eq_after (by decide +kernel), by decide +kernel, by decide +kernel, by decide⟩

theorem witness_WbitAppendsOneDecision :
    Ready (.wbit .left) (on CoreState.reset [] 0 []) ∧ CoreState.reset.wcnt = 0#3 ∧
    Ready (.wbit .left) (on { CoreState.reset with wcnt := 6 } [] 0 []) ∧
    Ready (.wbit .right) (on sevenBits [] 0 []) ∧ sevenBits.wcnt = 7#3 ∧ (on sevenBits [] 0 []).nextReply = .serves ∧
    Ready (.wbit .left) (on sevenBits [] 0 [.fails 5 0 true]) ∧
    (on sevenBits [] 0 [.fails 5 0 true]).nextReply = .fails 5 0 true ∧
    (on sevenBits [] 0 [.fails 5 0 false]).nextReply = .fails 5 0 false := by decide

theorem witness_WriterAppendsItsBits :
    Ready (.wbit .left) (on sevenBits [] 0 [.serves]) ∧ Serving (on sevenBits [] 0 [.serves]) ∧
    HighBitsZero sevenBits.wacc sevenBits.wcnt ∧ HighBitsZero CoreState.reset.wacc CoreState.reset.wcnt ∧
    Ready (.wsym 0x64) (on { derived with wacc := 0x7F, wcnt := 7 } [] 0 []) ∧
    HighBitsZero ({ derived with wacc := 0x7F, wcnt := 7 } : CoreState).wacc 7#3 ∧
    pathAt derived.st 0x64 = some [.right, .right, .left] ∧
    Ready .wflush (on sevenBits [] 0 [.serves]) ∧ Ready .wflush (on CoreState.reset [] 0 []) := by decide

theorem witness_WsymWithoutAnEntryRaises :
    Ready (.wsym 0x60) (on derived [] 0 []) ∧ pathAt derived.st 0x60 = none ∧ pathAt derived.st 0x65 = none := by decide

theorem witness_WflushEmitsThePendingByte :
    Ready .wflush (on CoreState.reset [] 0 []) ∧ CoreState.reset.wcnt = 0#3 ∧
    Ready .wflush (on sevenBits [] 0 []) ∧ sevenBits.wcnt ≠ 0#3 ∧ (on sevenBits [] 0 []).nextReply = .serves ∧
    Ready .wflush (on { CoreState.reset with wacc := 1, wcnt := 1 } [] 0 [.fails 5 0 true]) ∧
    (on { CoreState.reset with wacc := 1, wcnt := 1 } [] 0 [.fails 5 0 true]).nextReply = .fails 5 0 true := by decide

theorem witness_RinitStartsTheReader : Ready .rinit (on ended [] 0 []) ∧ Ready .rinit (on lone [] 0 []) := by decide

/-- A codeword of three bits and, at the root that is a leaf, of none. -/
theorem witness_RnextDecodesOneSymbol :
    Ready .rnext (on { reading with rrem := 1 } [0x04] 0 []) ∧ Serving (on { reading with rrem := 1 } [0x04] 0 []) ∧
    Memory.wf Config.nodeMax reading.tm ∧ ({ reading with rrem := 1 } : CoreState).rrem ≠ 0#72 ∧
    leadsToLeaf reading.tm reading.root [.right, .right, .left] 0x64 = true ∧
    unreadBits (on { reading with rrem := 1 } [0x04] 0 []) =
      pathBools [.right, .right, .left] ++ [false, false, false, false, false] ∧
    Ready .rnext (on loneReading [] 0 []) ∧ loneReading.rrem ≠ 0#72 ∧
    leadsToLeaf loneReading.tm loneReading.root [] 0x61 = true ∧ unreadBits (on loneReading [] 0 []) = pathBools [] ++ [] := by
  decide +kernel

theorem witness_EndOfMessageThenSequenceError :
    Ready .rnext (on readOut [] 0 []) ∧ readOut.rrem = 0#72 ∧ ended.status.fault = false ∧ ended.status.eom = true ∧
    Ready .rinit (on ended [] 0 []) := by decide

/-- V20: the payload ends at the root, and after two bits. -/
theorem witness_TruncatedPayloadIsRaised :
    Ready .rnext (on reading [] 0 []) ∧ Serving (on reading [] 0 []) ∧ Memory.wf Config.nodeMax reading.tm ∧
    reading.rrem ≠ 0#72 ∧ unreadBits (on reading [] 0 []) = pathBools [] ∧
    follow reading.tm reading.root [] = some 258#9 ∧ nodeAt reading.tm 258#9 = some (.internal 10 0x61 257) ∧
    unreadBits (on { reading with rcnt := 2 } [] 0 []) = pathBools [.right, .right] ∧
    follow reading.tm reading.root [.right, .right] = some 256#9 ∧
    nodeAt reading.tm 256#9 = some (.internal 3 0x64 0x63) ∧
    Ready .rnext (on loneReading [] 0 []) ∧ loneReading.root ≠ 511#9 ∧
    nodeAt loneReading.tm loneReading.root = some (.leaf 0x61 4) := by decide +kernel

theorem witness_DegenerateReaderTakesNoBits :
    Ready .rnext (on loneReading [] 0 [.never]) ∧ loneReading.rrem ≠ 0#72 ∧ loneReading.root ≠ 511#9 ∧
    nodeAt loneReading.tm loneReading.root = some (.leaf 0x61 4) := by decide

theorem witness_HwriteWritesTheHeader :
    Ready .hwrite (on (firstBytes 256) [] 0 []) ∧ nsym (firstBytes 256).ft = 256 ∧
    Ready .hwrite (on (firstBytes 255) [] 0 [.serves]) ∧ Serving (on (firstBytes 255) [] 0 [.serves]) ∧
    nsym (firstBytes 255).ft ≠ 256 ∧ nsym CoreState.reset.ft = 0 :=
  ⟨by decide, nsym_firstBytes_256, by decide, by decide, by decide +kernel, by decide +kernel⟩

theorem witness_HeaderFidelity :
    Ready .hwrite (on counted [] 0 []) ∧ nsym counted.ft < 256 ∧
    exec .hwrite (on counted [] 0 []) = .next (after .hwrite (on counted [] 0 [])) ∧
    (after .hwrite (on counted [] 0 [])).host.answers = (on counted [] 0 []).host.answers ++ [.done] ∧
    Ready .hread (on CoreState.reset (headerBytes counted.ft) 0 []) ∧
    Serving (on CoreState.reset (headerBytes counted.ft) 0 []) ∧
    (headerBytes counted.ft).drop 0 = (after .hwrite (on counted [] 0 [])).host.snk ++ [] :=
  ⟨by decide, by decide +kernel, exec_eq_after (by decide +kernel), by decide +kernel, by decide, by decide,
    by decide +kernel⟩
theorem witness_HeaderFidelity_anyHeader :
    Ready .hread (on CoreState.reset (xyHeader ++ [1]) 0 [.serves]) ∧
    Serving (on CoreState.reset (xyHeader ++ [1]) 0 [.serves]) ∧
    ([(0x78, 1), (0x79, 1)] : List (Byte × Count)).Pairwise (fun e e' => e.1.toNat < e'.1.toNat) ∧
    (∀ e ∈ ([(0x78, 1), (0x79, 1)] : List (Byte × Count)), e.2 ≠ 0#64) ∧
    (xyHeader ++ [1]).drop 0 = BitVec.ofNat 8 2 :: (entriesBytes [(0x78, 1), (0x79, 1)] ++ [1]) ∧
    ([0x00, 5] : List Byte).drop 0 = BitVec.ofNat 8 0 :: (entriesBytes [] ++ [5]) :=
  ⟨by decide, by decide, by simp, by simp, by decide +kernel, by decide +kernel⟩

/-- Nothing of the header; only the length byte; an entry both out of order and cut short. -/
theorem witness_TruncatedHeaderIsRaised :
    Ready .hread (on CoreState.reset [] 0 []) ∧ Serving (on CoreState.reset [] 0 []) ∧ ([] : List Byte).drop 0 = [] ∧
    Ready .hread (on CoreState.reset [0xFF] 0 [.serves]) ∧ Serving (on CoreState.reset [0xFF] 0 [.serves]) ∧
    ([0xFF] : List Byte).drop 0 = 0xFF :: (entriesBytes [] ++ []) ∧ 0 < (0xFF#8).toNat ∧
    ([2, 0x78, 0, 0, 0, 0, 0, 0, 0, 1, 0x77, 0, 0, 0, 0, 0, 0, 0] : List Byte).drop 0 =
      2 :: (entriesBytes [(0x78, 1)] ++ [0x77, 0, 0, 0, 0, 0, 0, 0]) ∧ 1 < (2#8).toNat ∧
    ([0x77, 0, 0, 0, 0, 0, 0, 0] : List Byte).length < 9 ∧ (1 : Count) ≠ 0#64 := by decide +kernel

/-- A descending second entry (V21), an equal one, and a first entry of count 0. -/
theorem witness_MalformedHeaderIsRaised :
    Ready .hread (on CoreState.reset (2 :: (entriesBytes [(0x62, 1)] ++ (0x61 :: countBytes 1) ++ [])) 0 []) ∧
    Serving (on CoreState.reset (2 :: (entriesBytes [(0x62, 1)] ++ (0x61 :: countBytes 1) ++ [])) 0 []) ∧
    ([(0x62, 1)] : List (Byte × Count)).length < (2 : Byte).toNat ∧
    (∀ e ∈ ([(0x62, 1)] : List (Byte × Count)), e.2 ≠ 0#64) ∧
    (∃ e ∈ ([(0x62, 1)] : List (Byte × Count)), (0x61 : Byte).toNat ≤ e.1.toNat) ∧
    (∃ e ∈ ([(0x62, 1)] : List (Byte × Count)), (0x62 : Byte).toNat ≤ e.1.toNat) ∧
    Ready .hread (on CoreState.reset (1 :: (entriesBytes [] ++ (0x61 :: countBytes 0) ++ [])) 0 []) ∧
    ([] : List (Byte × Count)).length < (1 : Byte).toNat :=
  ⟨by decide, by decide, by decide, by simp, ⟨_, List.mem_cons_self, by decide⟩, ⟨_, List.mem_cons_self, by decide⟩,
    by decide, by decide⟩

/-- `ENCODE` needs no phase; 255 distinct bytes. -/
theorem witness_EncodeEmitsTheContainer :
    Ready .encode (on derived [0x62, 0x61] 2 [.serves]) ∧ Serving (on derived [0x62, 0x61] 2 [.serves]) ∧
    ([0x62, 0x61] : List Byte) ≠ [] ∧ ([0x62, 0x61] : List Byte).dedup.length ≤ 255 ∧
    (∀ b : Byte, ([0x62, 0x61] : List Byte).count b < 2 ^ 64) ∧
    Ready .encode (on CoreState.reset (List.map (BitVec.ofNat 8) (List.range 255)) 0 []) ∧
    (List.map (BitVec.ofNat 8) (List.range 255)).dedup.length ≤ 255 :=
  ⟨by decide, by decide, by decide, by decide, by decide +kernel, by decide,
    (List.dedup_sublist _).length_le.trans (by simp)⟩

theorem witness_DecodeOfEncodeIsTheMessage :
    Ready .decode (on CoreState.reset (containerOf [0x62, 0x61] ++ [0x99]) 0 []) ∧
    Serving (on CoreState.reset (containerOf [0x62, 0x61] ++ [0x99]) 0 []) ∧
    (containerOf [0x62, 0x61] ++ [0x99]).drop 0 = containerOf [0x62, 0x61] ++ [0x99] ∧
    Ready .encode (on CoreState.reset allBytes 0 []) ∧ Serving (on CoreState.reset allBytes 0 []) ∧
    (∀ b : Byte, b ∈ allBytes) ∧ ∀ b : Byte, allBytes.count b < 2 ^ 64 := by
  refine ⟨by decide, by decide, rfl, by decide, by decide, mem_allBytes, fun b => ?_⟩
  exact List.count_le_length.trans_lt (by simp [allBytes, Config.nsymMax])

theorem witness_EmptyInputErrorCases :
    Ready .qbuild State.reset ∧ nsym State.reset.core.ft = 0 ∧ Ready .encode (on derived [] 0 [.serves]) ∧
    Serving (on derived [] 0 [.serves]) ∧ (on derived [] 0 [.serves]).host.src = [] ∧
    Ready .decode (on CoreState.reset [9, 0, 7] 1 []) ∧ ([9, 0, 7] : List Byte).drop 1 = 0x00#8 :: [7] := by decide +kernel

theorem witness_EncodeIsAFunctionOfTheSource :
    Ready .encode (on derived [0x62, 0x61] 2 []) ∧ Ready .encode (on sevenBits [0x62, 0x61] 0 [.serves]) ∧
    Serving (on derived [0x62, 0x61] 2 []) ∧ Serving (on sevenBits [0x62, 0x61] 0 [.serves]) ∧
    (on derived [0x62, 0x61] 2 []).host.src = (on sevenBits [0x62, 0x61] 0 [.serves]).host.src ∧
    exec .encode (on derived [0x62, 0x61] 2 []) = .next (after .encode (on derived [0x62, 0x61] 2 [])) :=
  ⟨by decide, by decide, by decide, by decide, rfl, exec_eq_after (by decide +kernel)⟩

theorem witness_ReadPortShowsTheRegisters :
    15 ≤ 15 ∧ 256 ≤ 256 ∧ 511 ≤ 511 ∧ 255 < 256 ∧ queued.queue.length ≤ 4 ∧ queued.queue.length ≤ 255 := by decide
theorem witness_ReadPortShowsTheRegisters_inRange :
    queued.queue.length ≤ 256 ∧ Inv (on queued [] 0 []) ∧ 510#9 ≠ 511#9 ∧ nodeAt derived.tm 510#9 = none ∧
    nodeAt derived.tm 0x61#9 = some (.leaf 0x61 4) ∧ nodeAt derived.tm 256#9 = some (.internal 3 0x64 0x63) ∧
    pathAt derived.st 0x60 = none ∧ pathAt derived.st 0x64 = some [.right, .right, .left] ∧
    ([.right, .right, .left] : Path).length ≤ 255 ∧ queued.queue[3]? = some 0x61#9 ∧ 3 < 256 :=
  ⟨by decide, by decide +kernel, by decide, rfl, rfl, rfl, rfl, rfl, by decide, rfl, by decide⟩

theorem witness_SourceIsNeverWrittenAndTheSinkGrows :
    exec .wflush (on sevenBits [1] 0 []) = .next (after .wflush (on sevenBits [1] 0 [])) := rfl

theorem witness_FrameOfTheFrequencyTable :
    exec .fscan (on CoreState.reset [0x61] 0 []) = .next (after .fscan (on CoreState.reset [0x61] 0 [])) ∧
    NoResetPending (on CoreState.reset [0x61] 0 []) ∧ (0x62 : Byte) ∉ ([0x61] : List Byte).drop 0 ∧
    exec .hread (on CoreState.reset xyHeader 0 []) = .next (after .hread (on CoreState.reset xyHeader 0 [])) ∧
    NoResetPending (on CoreState.reset xyHeader 0 []) ∧
    exec .qext (on queued [] 0 []) = .next (after .qext (on queued [] 0 [])) ∧ queued.status.phase ≠ .idle :=
  ⟨exec_eq_after (by decide +kernel), by decide, by decide, exec_eq_after (by decide +kernel), by decide,
    exec_eq_after (by decide), by decide⟩

theorem witness_FrameOfTheQueueAndTreeCommands :
    exec .qbuild (on counted [] 0 []) = .next (after .qbuild (on counted [] 0 [])) ∧
    exec (.qins 0x64) (on extracted [] 0 []) = .next (after (.qins 0x64) (on extracted [] 0 [])) ∧
    exec .qext (on queued [] 0 []) = .next (after .qext (on queued [] 0 [])) ∧
    exec .tjoin (on queued [] 0 []) = .next (after .tjoin (on queued [] 0 [])) ∧
    exec .treduce (on queued [] 0 []) = .next (after .treduce (on queued [] 0 [])) :=
  ⟨exec_eq_after (by decide +kernel), exec_eq_after (by decide +kernel), exec_eq_after (by decide +kernel),
    exec_eq_after (by decide +kernel), exec_eq_after (by decide +kernel)⟩

theorem witness_FrameOfTheTreesReaders :
    exec .sderive (on treed [] 0 []) = .next (after .sderive (on treed [] 0 [])) ∧
    exec .rinit (on treed [] 0 []) = .next (after .rinit (on treed [] 0 [])) ∧ NoResetPending (on treed [] 0 []) ∧
    exec .rnext (on reading [4] 0 []) = .next (after .rnext (on reading [4] 0 [])) ∧ NoResetPending (on reading [4] 0 []) :=
  ⟨exec_eq_after (by decide +kernel), exec_eq_after (by decide +kernel), by decide,
    exec_eq_after (by decide +kernel), by decide⟩

theorem witness_FrameOfTheStreamCommands :
    exec (.wbit .left) (on sevenBits [] 0 []) = .next (after (.wbit .left) (on sevenBits [] 0 [])) ∧
    NoResetPending (on sevenBits [] 0 []) ∧
    exec (.wsym 0x64) (on derived [] 0 []) = .next (after (.wsym 0x64) (on derived [] 0 [])) ∧
    exec .wflush (on sevenBits [] 0 []) = .next (after .wflush (on sevenBits [] 0 [])) ∧
    exec .hwrite (on counted [] 0 []) = .next (after .hwrite (on counted [] 0 [])) ∧
    exec .srew (on counted [1] 1 []) = .next (after .srew (on counted [1] 1 [])) ∧ NoResetPending (on counted [1] 1 []) :=
  ⟨exec_eq_after (by decide), by decide, exec_eq_after (by decide +kernel), exec_eq_after (by decide),
    exec_eq_after (by decide +kernel), exec_eq_after (by decide), by decide⟩

theorem witness_FrameOfTheWholeStreamCommands :
    exec .encode (on readOut [0x61] 1 []) = .next (after .encode (on readOut [0x61] 1 [])) ∧
    exec .decode (on { derived with wacc := 1, wcnt := 1 } xyHeader 0 []) =
      .next (after .decode (on { derived with wacc := 1, wcnt := 1 } xyHeader 0 [])) ∧
    readOut.status.fault = false ∧ derived.status.fault = false :=
  ⟨exec_eq_after (by decide +kernel), exec_eq_after (by decide +kernel), rfl, rfl⟩

theorem witness_StepKeepsTheMemoriesCanonical :
    MemoriesCanonical (scripted (on derived [1] 1 []) [.command 0x5264#16]) ∧
    step (scripted (on derived [1] 1 []) [.command 0x5264#16]) =
      .next (stepped (scripted (on derived [1] 1 []) [.command 0x5264#16])) :=
  ⟨by decide, step_eq_stepped (by decide +kernel)⟩

/-- A `WBIT` whose completed byte the sink fails: log entry 16. -/
theorem witness_StepKeepsTheRegistersAgreed :
    FaultRegistersAgree (scripted (on sevenBits [] 0 [.fails 5 0 false]) [.command 0x5001#16]) ∧
    ResultRegistersAgree (scripted (on sevenBits [] 0 [.fails 5 0 false]) [.command 0x5001#16]) ∧
    BitCountsAgree (scripted (on sevenBits [] 0 [.fails 5 0 false]) [.command 0x5001#16]) ∧
    step (scripted (on sevenBits [] 0 [.fails 5 0 false]) [.command 0x5001#16]) =
      .next (stepped (scripted (on sevenBits [] 0 [.fails 5 0 false]) [.command 0x5001#16])) :=
  ⟨by decide, by decide, by decide, step_eq_stepped (by decide)⟩

theorem witness_StepKeepsTheInvariant :
    Inv (scripted (on queued [] 0 []) [.command 0x3200#16]) ∧
    step (scripted (on queued [] 0 []) [.command 0x3200#16]) =
      .next (stepped (scripted (on queued [] 0 []) [.command 0x3200#16])) :=
  ⟨by decide +kernel, step_eq_stepped (by decide +kernel)⟩

end Sys2Proof.Tests
end

section
/-! SUPPORT. What every step keeps of the state (R15 to R17, R20 to R24, R27): what a rule keeps however it ends, carried
through `exec` and `step`. -/

namespace Sys2Proof.Machine

/-! ### The fault registers and the writer's bits -/

/-- What the end of a command decides: the fault registers (R15), and the writer's half of R24 item 7, asked while
`FAULT` = 0 (log entry 16). -/
structure EndAgrees (s : State) : Prop where
  fault : FaultRegistersAgree s
  writer : s.core.status.fault = false → WriterAgrees s

theorem EndAgrees.of_core_eq {s t : State} (h : EndAgrees s) (hc : t.core = s.core) : EndAgrees t := by
  refine ⟨?_, ?_⟩
  · rw [FaultRegistersAgree, hc]; exact h.fault
  · rw [WriterAgrees, hc]; exact h.writer

/-- A fault taken: one of the codes that are raised, and nothing is asked of the writer. -/
theorem endAgrees_enterFault (s : State) (k : ErrorKind) (info : BitVec 32) : EndAgrees (s.enterFault k info) where
  fault := by
    rw [FaultRegistersAgree, if_pos (by rfl), State.enterFault_err]
    cases k <;> decide
  writer := fun hf => by cases hf

theorem endAgrees_cleared (s : State) : EndAgrees s.cleared where
  fault := (by decide : FaultRegistersAgree State.reset)
  writer := fun _ => (by decide : HighBitsZero 0#8 0#3)

theorem faultRegistersAgree_of_noFault {s : State} (hf : s.core.status.fault = false) :
    FaultRegistersAgree s ↔ s.core.err = 0#4 ∧ s.core.errinfo = 0#32 := by
  rw [FaultRegistersAgree, if_neg (by simp [hf])]

/-- However a rule ends from a state without a fault, the fault registers agree: only `raise` writes them (R196). -/
theorem ruleOf_faultRegistersAgree (i : Instr) {s : State} (hf : s.core.status.fault = false)
    (h : FaultRegistersAgree s) : (ruleOf i s).Ends FaultRegistersAgree := by
  by_cases h1 : i = .encode
  · subst h1
    exact (encodeRule_frame s).imp fun t ht => by rw [FaultRegistersAgree, ht.2]; exact ⟨rfl, rfl⟩
  by_cases h2 : i = .decode
  · subst h2
    exact (decodeRule_frame s).imp fun t ht => by rw [FaultRegistersAgree, ht.2]; exact ⟨rfl, rfl⟩
  by_cases h3 : i = .clr
  · subst h3; exact (endAgrees_cleared s).fault
  obtain ⟨herr, hinfo⟩ := (faultRegistersAgree_of_noFault hf).1 h
  refine (ruleOf_faultRegisters s h1 h2 h3).imp fun t ⟨e1, e2, e3⟩ => ?_
  exact (faultRegistersAgree_of_noFault (e3.trans hf)).2 ⟨e1.trans herr, e2.trans hinfo⟩

theorem exec_keeps_endAgrees {i : Instr} {s t : State} (h : EndAgrees s) (ht : exec i s = .next t) : EndAgrees t := by
  rcases exec_next_cases ht with ⟨-, -, rfl⟩ | ⟨-, -, rfl⟩ | ⟨hf, -, ⟨u, hu, rfl⟩ | ⟨k, info, u, -, rfl⟩ | ⟨u, -, rfl⟩⟩
  · exact h.of_core_eq rfl
  · exact (endAgrees_enterFault s _ _).of_core_eq rfl
  · refine EndAgrees.of_core_eq (s := u) ?_ rfl
    rcases hf with hf | rfl
    · exact ⟨(ruleOf_faultRegistersAgree i hf h.fault).of_ok hu, fun _ => ruleOf_writer i (h.writer hf) hu⟩
    · cases hu; exact endAgrees_cleared s
  · exact (endAgrees_enterFault u k info).of_core_eq rfl
  · exact endAgrees_cleared u

theorem step_keeps_endAgrees {s t : State} (h : EndAgrees s) (ht : step s = .next t) : EndAgrees t :=
  step_keeps ht h (fun _ _ _ hu hv => exec_keeps_endAgrees hu hv) (fun _ _ hu => hu.of_core_eq rfl)
    (fun _ _ hu => hu.of_core_eq rfl) (fun u _ _ => endAgrees_enterFault u _ _) (fun u _ => endAgrees_cleared u)
    (fun _ _ _ _ hu => hu.of_core_eq rfl)

/-! ### The whole invariant -/

theorem exec_keeps_sound {i : Instr} {s t : State} (h : Sound s) (ht : exec i s = .next t) : Sound t :=
  exec_next_of_rule ht h (fun _ _ hu => hu.of_core hu.pos rfl) (fun _ _ _ hu => hu.of_core hu.pos rfl)
    (fun _ hu => .cleared hu.pos) fun _ hp => ruleOf_sound i h hp

theorem step_keeps_sound {s t : State} (h : Sound s) (ht : step s = .next t) : Sound t :=
  step_keeps ht h (fun _ _ _ hu hv => exec_keeps_sound hu hv) (fun _ _ hu => hu.of_core hu.pos rfl)
    (fun _ _ hu => hu.of_core hu.pos rfl) (fun _ _ hu => hu.of_core hu.pos rfl) (fun _ hu => .cleared hu.pos)
    (fun _ _ _ _ hu => hu.of_core (Nat.min_le_right _ _) rfl)

/-- Settles O60: `Sound` is kept by every rule, the rest of the invariant by the end of every command. -/
theorem stepKeepsTheInvariant : Obligations.StepKeepsTheInvariant := by
  intro s t hs ht
  obtain ⟨hsound, hfault, hwriter⟩ := (inv_iff s).1 hs
  obtain ⟨hfault', hwriter'⟩ := step_keeps_endAgrees ⟨hfault, hwriter⟩ ht
  exact (inv_iff t).2 ⟨step_keeps_sound hsound ht, hfault', hwriter'⟩

/-! ### `ENCODE` and `DECODE`, run from their own `CLR` -/

section WholeStreams

variable {P : State → Prop} {s : State} (hclear : P s.cleared)
  (hrule : ∀ i u, i ≠ .encode → i ≠ .decode → P u → precondition i u.core.status = true → (ruleOf i u).Ends P)

include hclear hrule

/-- `ENCODE` ends in a property that `CLR` establishes, that every other command's rule keeps where it is accepted, and that
the loop of the second pass keeps (R163). -/
theorem encodeRule_ends (hloop : ∀ n u, P u → (encodeLoop n u).Ends P) : (encodeRule s).Ends P := by
  unfold encodeRule
  refine Res.ends_andThen (r := clrRule s) hclear fun _ s1 h1 k1 => ?_
  have p1 : s1.core.status.phase = .idle := by cases h1; rfl
  refine Res.ends_andThen (hrule .srew s1 nofun nofun k1 rfl) fun _ s2 h2 k2 => ?_
  have p2 : s2.core.status.phase = .idle := by rw [((srcRewind_frame s1).of_ok h2).2]; exact p1
  refine Res.ends_andThen (hrule .fscan s2 nofun nofun k2 (by simp [precondition, p2])) fun _ s3 h3 k3 => ?_
  have p3 : s3.core.status.phase = .idle := by rw [((fscanRule_frame s2).of_ok h3).2.1]; exact p2
  refine Res.ends_andThen (hrule .qbuild s3 nofun nofun k3 (by simp [precondition, p3])) fun _ s4 h4 k4 => ?_
  have p4 := qbuildRule_phase h4
  refine Res.ends_andThen (hrule .treduce s4 nofun nofun k4 (by simp [precondition, p4])) fun _ s5 h5 k5 => ?_
  have p5 := treduceRule_phase h5
  refine Res.ends_andThen (hrule .sderive s5 nofun nofun k5 (by simp [precondition, p5])) fun _ s6 _ k6 => ?_
  refine Res.ends_andThen (hrule .hwrite s6 nofun nofun k6 rfl) fun _ s7 _ k7 => ?_
  refine Res.ends_andThen (hrule .srew s7 nofun nofun k7 rfl) fun _ s8 _ k8 => ?_
  exact Res.ends_andThen (hloop _ s8 k8) fun _ s9 _ k9 => hrule .wflush s9 nofun nofun k9 rfl

/-- `DECODE` ends in a property that `CLR` establishes, that every other command's rule keeps where it is accepted, and that
its loop keeps (R164). -/
theorem decodeRule_ends (hloop : ∀ n u, P u → (decodeLoop n u).Ends P) : (decodeRule s).Ends P := by
  unfold decodeRule
  refine Res.ends_andThen (r := clrRule s) hclear fun _ s1 h1 k1 => ?_
  have p1 : s1.core.status.phase = .idle := by cases h1; rfl
  refine Res.ends_andThen (hrule .hread s1 nofun nofun k1 (by simp [precondition, p1])) fun _ s2 h2 k2 => ?_
  have p2 : s2.core.status.phase = .idle := by rw [((hreadRule_frame s1).of_ok h2).2.1]; exact p1
  refine Res.ends_andThen (hrule .qbuild s2 nofun nofun k2 (by simp [precondition, p2])) fun _ s3 h3 k3 => ?_
  have p3 := qbuildRule_phase h3
  refine Res.ends_andThen (hrule .treduce s3 nofun nofun k3 (by simp [precondition, p3])) fun _ s4 h4 k4 => ?_
  have p4 := treduceRule_phase h4
  have hr : (rinitRule s4).Ends P := hrule .rinit s4 nofun nofun k4 (by simp [precondition, p4])
  -- unified as it stands, the rule would be unfolded to the sum of 256 counts
  generalize rinitRule s4 = r at hr ⊢
  exact Res.ends_andThen hr fun _ s5 _ k5 => hloop _ s5 k5

end WholeStreams

/-! ### The result registers and the reader's bits -/

/-- R16, R17, R24 items 5 and 6 without the tree, and the reader's half of item 7. -/
structure RegistersAgree (s : State) : Prop where
  xn : s.core.status.xnv = false → s.core.xn = Config.noNode
  outb : s.core.status.outv = false → s.core.outb = 0#8
  root : s.core.status.phase ≠ .tree →
    s.core.root = Config.noNode ∧ s.core.status.stv = false ∧ s.core.status.rv = false
  queue : s.core.status.phase ≠ .queue → s.core.status.xnv = false ∧ s.core.queue = []
  held : HighBitsZero s.core.racc s.core.rcnt

theorem registersAgree_iff {s : State} :
    RegistersAgree s ↔ ResultRegistersAgree s ∧ HighBitsZero s.core.racc s.core.rcnt :=
  ⟨fun h => ⟨⟨h.xn, h.outb, h.root, h.queue⟩, h.held⟩, fun ⟨⟨h1, h2, h3, h4⟩, h5⟩ => ⟨h1, h2, h3, h4, h5⟩⟩

/-- The states that differ in nothing the agreement speaks of but the bits the reader holds. -/
theorem RegistersAgree.of_core {s t : State} (h : RegistersAgree s)
    (hc : t.core = { s.core with
      ft := t.core.ft, tm := t.core.tm, st := t.core.st, nextNode := t.core.nextNode
      err := t.core.err, errinfo := t.core.errinfo, wacc := t.core.wacc, wcnt := t.core.wcnt
      racc := t.core.racc, rcnt := t.core.rcnt, rrem := t.core.rrem
      status := { s.core.status with fault := t.core.status.fault } })
    (hheld : HighBitsZero t.core.racc t.core.rcnt) : RegistersAgree t := by
  obtain ⟨tc, th⟩ := t
  change tc = _ at hc
  rw [hc]
  exact { xn := h.xn, outb := h.outb, root := h.root, queue := h.queue, held := hheld }

theorem registersAgree_cleared (s : State) : RegistersAgree s.cleared :=
  registersAgree_iff.2 (by decide : ResultRegistersAgree State.reset ∧ HighBitsZero 0#8 0#3)

theorem qbuildRule_registers {s : State} (h : RegistersAgree s) (hph : s.core.status.phase = .idle) :
    (qbuildRule s).Ends RegistersAgree := by
  unfold qbuildRule
  split_ifs
  · exact h
  · exact { xn := h.xn, outb := h.outb, root := fun _ => h.root (by simp [hph])
            queue := fun hc => absurd rfl hc, held := h.held }

/-- `QINS` of the node that `XN` names gives up `XN` with `XNV`; of another node it leaves both (R104). -/
theorem xn_after_insert {xnv : Bool} {xn : NodeIdx} (idx : NodeIdx) (h : xnv = false → xn = Config.noNode)
    (hx : (xnv && !(xnv && xn == idx)) = false) :
    (if (xnv && xn == idx) = true then Config.noNode else xn) = Config.noNode := by
  cases xnv with
  | false => simpa using h rfl
  | true => simp_all

theorem qinsRule_registers {s : State} (h : RegistersAgree s) (hph : s.core.status.phase = .queue) (idx : NodeIdx) :
    (qinsRule idx s).Ends RegistersAgree := by
  unfold qinsRule
  split
  · exact h
  · split
    · trivial
    · split
      · trivial
      · exact { xn := xn_after_insert idx h.xn, outb := h.outb, root := h.root
                queue := fun hc => absurd hph hc, held := h.held }

theorem qextRule_registers {s : State} (h : RegistersAgree s) (hph : s.core.status.phase = .queue) :
    (qextRule s).Ends RegistersAgree := by
  unfold qextRule
  split
  · exact h
  · exact { xn := fun hc => (by cases hc), outb := h.outb, root := h.root
            queue := fun hc => absurd hph hc, held := h.held }

theorem tjoinRule_registers {s : State} (h : RegistersAgree s) (hph : s.core.status.phase = .queue) :
    (tjoinRule s).Ends RegistersAgree := by
  unfold tjoinRule
  split
  · dsimp only
    split_ifs
    · trivial
    · split
      · trivial
      · exact { xn := fun _ => rfl, outb := h.outb, root := h.root
                queue := fun hc => absurd hph hc, held := h.held }
  · exact h
  · exact h

theorem reduceLoop_registers (n : Nat) : ∀ {s : State}, RegistersAgree s → s.core.status.phase = .queue →
    (reduceLoop n s).Ends RegistersAgree := by
  induction n with
  | zero => intro s _ _; trivial
  | succ n ih =>
    intro s h hph
    unfold reduceLoop
    split_ifs
    · exact h
    · refine Res.ends_andThen (tjoinRule_registers h hph) fun _ u hu ku => ih ku ?_
      rw [((tjoinRule_frame s).of_ok hu).2]; exact hph

theorem treduceRule_registers {s : State} (h : RegistersAgree s) (hph : s.core.status.phase = .queue) :
    (treduceRule s).Ends RegistersAgree := by
  unfold treduceRule
  split_ifs
  · exact h
  · refine Res.ends_andThen (reduceLoop_registers _ h hph) fun _ u _ hu => ?_
    exact { xn := fun _ => rfl, outb := hu.outb, root := fun hc => absurd rfl hc
            queue := fun _ => ⟨rfl, rfl⟩, held := hu.held }

theorem sderiveRule_registers {s : State} (h : RegistersAgree s) (hph : s.core.status.phase = .tree) :
    (sderiveRule s).Ends RegistersAgree := by
  unfold sderiveRule
  split
  · exact { xn := h.xn, outb := h.outb, root := fun hc => absurd hph hc, queue := h.queue, held := h.held }
  · trivial

theorem rinitRule_registers {s : State} (h : RegistersAgree s) (hph : s.core.status.phase = .tree) :
    (rinitRule s).Ends RegistersAgree := by
  unfold rinitRule
  exact { xn := h.xn, outb := fun _ => rfl, root := fun hc => absurd hph hc, queue := h.queue
          held := (by decide : HighBitsZero 0#8 0#3) }

theorem rnextRule_registers {s : State} (h : RegistersAgree s) : (rnextRule s).Ends RegistersAgree := by
  unfold rnextRule
  split_ifs
  · exact { xn := h.xn, outb := fun _ => rfl, root := h.root, queue := h.queue, held := h.held }
  · have hwalk := ((walkBits_frame (s.bitsLeft + 1) s.core.root s).and (walkBits_held _ _ s h.held)).imp
      fun t ⟨⟨_, hc⟩, hheld⟩ => h.of_core (by rw [hc]) hheld
    refine Res.ends_andThen hwalk fun _ u _ hu => ?_
    exact { xn := hu.xn, outb := fun hc => (by cases hc), root := hu.root, queue := hu.queue, held := hu.held }

theorem encodeLoop_registers (n : Nat) {s : State} (h : RegistersAgree s) : (encodeLoop n s).Ends RegistersAgree :=
  (encodeLoop_frame n s).imp fun _ ht => h.of_core (by rw [ht.2]) (by rw [ht.2]; exact h.held)

theorem decodeLoop_registers (n : Nat) : ∀ {s : State}, RegistersAgree s → (decodeLoop n s).Ends RegistersAgree := by
  induction n with
  | zero => intro s _; trivial
  | succ n ih =>
    intro s h
    unfold decodeLoop
    refine Res.ends_andThen (rnextRule_registers h) fun _ u _ hu => ?_
    split_ifs
    · exact hu
    · refine Res.ends_andThen ((snkWrite_frame _ u).imp fun t ht => ?_) fun _ v _ hv => ih hv
      exact hu.of_core (by rw [ht.2]) (by rw [ht.2]; exact hu.held)

/-- Every rule but those of `ENCODE` and `DECODE` keeps the registers agreed, however it ends, where its precondition
holds. -/
theorem simpleRule_registers (i : Instr) (s : State) (h1 : i ≠ .encode) (h2 : i ≠ .decode) (h : RegistersAgree s)
    (hp : precondition i s.core.status = true) : (ruleOf i s).Ends RegistersAgree := by
  cases i with
  | fscan => exact (fscanRule_frame s).imp fun _ ht => h.of_core (by rw [ht.2.1]) (by rw [ht.2.1]; exact h.held)
  | qbuild => exact qbuildRule_registers h (by simpa [precondition] using hp)
  | qins idx => exact qinsRule_registers h (by simpa [precondition] using hp) idx
  | qext => exact qextRule_registers h (by simpa [precondition] using hp)
  | tjoin => exact tjoinRule_registers h (by simpa [precondition] using hp)
  | treduce => exact treduceRule_registers h (by simpa [precondition] using hp)
  | sderive => exact sderiveRule_registers h (by simpa [precondition] using hp)
  | wbit d => exact (wbitRule_frame d s).imp fun _ ht => h.of_core (by rw [ht.2]) (by rw [ht.2]; exact h.held)
  | wsym sym => exact (wsymRule_frame sym s).imp fun _ ht => h.of_core (by rw [ht.2]) (by rw [ht.2]; exact h.held)
  | wflush => exact (wflushRule_frame s).imp fun _ ht => h.of_core (by rw [ht.2]) (by rw [ht.2]; exact h.held)
  | rinit => exact rinitRule_registers h (by simpa [precondition] using hp)
  | rnext => exact rnextRule_registers h
  | hwrite => exact (hwriteRule_frame s).imp fun _ ht => h.of_core (by rw [ht.2]) (by rw [ht.2]; exact h.held)
  | hread => exact (hreadRule_frame s).imp fun _ ht => h.of_core (by rw [ht.2.1]) (by rw [ht.2.1]; exact h.held)
  | encode => exact absurd rfl h1
  | decode => exact absurd rfl h2
  | clr => exact registersAgree_cleared s
  | srew => exact (srcRewind_frame s).imp fun _ ht => h.of_core (by rw [ht.2]) (by rw [ht.2]; exact h.held)

theorem ruleOf_registers (i : Instr) {s : State} (h : RegistersAgree s) (hp : precondition i s.core.status = true) :
    (ruleOf i s).Ends RegistersAgree := by
  by_cases h1 : i = .encode
  · subst h1
    exact encodeRule_ends (registersAgree_cleared s) simpleRule_registers fun n _ => encodeLoop_registers n
  by_cases h2 : i = .decode
  · subst h2
    exact decodeRule_ends (registersAgree_cleared s) simpleRule_registers fun n _ => decodeLoop_registers n
  exact simpleRule_registers i s h1 h2 h hp

theorem exec_keeps_registers {i : Instr} {s t : State} (h : RegistersAgree s) (ht : exec i s = .next t) :
    RegistersAgree t :=
  exec_next_of_rule ht h (fun _ _ hu => hu.of_core rfl hu.held) (fun _ _ _ hu => hu.of_core rfl hu.held)
    (fun u _ => registersAgree_cleared u) fun _ hp => ruleOf_registers i h hp

theorem step_keeps_registers {s t : State} (h : RegistersAgree s) (ht : step s = .next t) : RegistersAgree t :=
  step_keeps ht h (fun _ _ _ hu hv => exec_keeps_registers hu hv) (fun _ _ hu => hu.of_core rfl hu.held)
    (fun _ _ hu => hu.of_core rfl hu.held) (fun _ _ hu => hu.of_core rfl hu.held) (fun u _ => registersAgree_cleared u)
    (fun _ _ _ _ hu => hu.of_core rfl hu.held)

/-- Settles O59: the agreement of each part is kept without the forest of R24 items 1 to 4. -/
theorem stepKeepsTheRegistersAgreed : Obligations.StepKeepsTheRegistersAgreed := by
  intro s t hfault hresults ⟨hheld, hwriter⟩ ht
  obtain ⟨hfault', hwriter'⟩ := step_keeps_endAgrees ⟨hfault, hwriter⟩ ht
  obtain ⟨hresults', hheld'⟩ := registersAgree_iff.1 (step_keeps_registers (registersAgree_iff.2 ⟨hresults, hheld⟩) ht)
  exact ⟨hfault', hresults', hheld', hwriter'⟩

end Sys2Proof.Machine
end

section
/-! SUPPORT. Every rule keeps the canonical form of the memories (log entry 13) and the source position inside the source
(R27), in states that need not meet R24. -/

namespace Sys2Proof.Machine

theorem MemoriesCanonical.pos_le {s : State} (h : MemoriesCanonical s) : s.host.pos ≤ s.host.src.length := by
  obtain ⟨-, -, -, hpos⟩ := h
  exact hpos

/-- The memories unchanged, the streams moved. -/
theorem MemoriesCanonical.of_frame {s t : State} (h : MemoriesCanonical s) (hm : StreamsMoved s t)
    (hc : t.core = { t.core with ft := s.core.ft, tm := s.core.tm, st := s.core.st }) : MemoriesCanonical t := by
  obtain ⟨hft, htm, hst, hpos⟩ := h
  rw [MemoriesCanonical, hc]
  exact ⟨hft, htm, hst, hm.pos_le hpos⟩

/-- Another frequency table, the source moved. -/
theorem MemoriesCanonical.withTable {s t : State} (h : MemoriesCanonical s) (hm : SourceMoved s t)
    (hc : t.core = { s.core with ft := t.core.ft }) (hft : countsWf t.core.ft) : MemoriesCanonical t := by
  obtain ⟨-, htm, hst, hpos⟩ := h
  refine ⟨hft, ?_, ?_, hm.pos_le hpos⟩
  · rw [hc]; exact htm
  · rw [hc]; exact hst

theorem memoriesCanonical_cleared {s : State} (h : s.host.pos ≤ s.host.src.length) : MemoriesCanonical s.cleared :=
  ⟨(by decide : countsWf []), (by decide : Memory.wf Config.nodeMax []), (by decide : Memory.wf Config.nsymMax []), h⟩

theorem qbuildRule_memories {s : State} (h : MemoriesCanonical s) : (qbuildRule s).Ends MemoriesCanonical := by
  obtain ⟨hft, htm, hst, hpos⟩ := h
  unfold qbuildRule
  split_ifs
  · exact ⟨hft, htm, hst, hpos⟩
  · exact ⟨hft, putLeaves_wf htm, hst, hpos⟩

/-- A join writes node `NEXT`, which is a node where the join does not stop (R121, log entry 14). -/
theorem tjoinRule_memories {s : State} (h : MemoriesCanonical s) : (tjoinRule s).Ends MemoriesCanonical := by
  obtain ⟨hft, htm, hst, hpos⟩ := h
  unfold tjoinRule
  split
  · dsimp only
    split_ifs with hn
    · trivial
    · split
      · trivial
      · exact ⟨hft, setNode_wf htm hn _, hst, hpos⟩
  · exact ⟨hft, htm, hst, hpos⟩
  · exact ⟨hft, htm, hst, hpos⟩

theorem reduceLoop_memories (n : Nat) : ∀ {s : State}, MemoriesCanonical s → (reduceLoop n s).Ends MemoriesCanonical := by
  induction n with
  | zero => intro s _; trivial
  | succ n ih =>
    intro s h
    unfold reduceLoop
    split_ifs
    · exact h
    · exact Res.ends_andThen (tjoinRule_memories h) fun _ u _ hu => ih hu

theorem treduceRule_memories {s : State} (h : MemoriesCanonical s) : (treduceRule s).Ends MemoriesCanonical := by
  unfold treduceRule
  split_ifs
  · exact h
  · exact Res.ends_andThen (reduceLoop_memories _ h) fun _ u _ hu => hu

/-- The walk of `SDERIVE`, where it does not stop, writes entries of bytes only (R131). -/
theorem deriveWalk_wf {tm : Memory Node} (n : Nat) : ∀ {i : NodeIdx} {p : Path} {st st' : Memory Path},
    Memory.wf Config.nsymMax st → deriveWalk tm n i p st = .ok st' → Memory.wf Config.nsymMax st' := by
  induction n with
  | zero => intro i p st st' _ hw; cases hw
  | succ n ih =>
    intro i p st st' h hw
    unfold deriveWalk at hw
    split_ifs at hw
    split at hw
    · split at hw
      · next hl => exact ih (ih h hl) hw
      · cases hw
    · cases hw; exact setPath_wf h _ _
    · cases hw; exact setPath_wf h _ _

theorem sderiveRule_memories {s : State} (h : MemoriesCanonical s) : (sderiveRule s).Ends MemoriesCanonical := by
  obtain ⟨hft, htm, -, hpos⟩ := h
  unfold sderiveRule
  split
  · next st hw => exact ⟨hft, htm, deriveWalk_wf _ (by decide) hw, hpos⟩
  · trivial

/-- Every rule but those of `ENCODE` and `DECODE` keeps the canonical form, however it ends. -/
theorem simpleRule_memories (i : Instr) (s : State) (h1 : i ≠ .encode) (h2 : i ≠ .decode) (h : MemoriesCanonical s) :
    (ruleOf i s).Ends MemoriesCanonical := by
  cases i with
  | fscan => exact (fscanRule_frame s).imp fun _ ht => h.withTable ht.1 ht.2.1 (ht.2.2 h.1)
  | qbuild => exact qbuildRule_memories h
  | qins idx => exact (qinsRule_frame idx s).imp fun _ ht => h.of_frame (.of_host_eq ht.1) (by rw [ht.2])
  | qext => exact (qextRule_frame s).imp fun _ ht => h.of_frame (.of_host_eq ht.1) (by rw [ht.2])
  | tjoin => exact tjoinRule_memories h
  | treduce => exact treduceRule_memories h
  | sderive => exact sderiveRule_memories h
  | wbit d => exact (wbitRule_frame d s).imp fun _ ht => h.of_frame ht.1.streams (by rw [ht.2])
  | wsym sym => exact (wsymRule_frame sym s).imp fun _ ht => h.of_frame ht.1.streams (by rw [ht.2])
  | wflush => exact (wflushRule_frame s).imp fun _ ht => h.of_frame ht.1.streams (by rw [ht.2])
  | rinit => exact h
  | rnext => exact (rnextRule_frame s).imp fun _ ht => h.of_frame ht.1.streams (by rw [ht.2])
  | hwrite => exact (hwriteRule_frame s).imp fun _ ht => h.of_frame ht.1.streams (by rw [ht.2])
  | hread => exact (hreadRule_frame s).imp fun _ ht => h.withTable ht.1 ht.2.1 ht.2.2
  | encode => exact absurd rfl h1
  | decode => exact absurd rfl h2
  | clr => exact memoriesCanonical_cleared h.pos_le
  | srew => exact (srcRewind_frame s).imp fun _ ht => h.of_frame ht.1.streams (by rw [ht.2])

theorem ruleOf_memories (i : Instr) {s : State} (h : MemoriesCanonical s) : (ruleOf i s).Ends MemoriesCanonical := by
  have hclear := memoriesCanonical_cleared h.pos_le
  by_cases h1 : i = .encode
  · subst h1
    exact encodeRule_ends hclear (fun i u h1 h2 hu _ => simpleRule_memories i u h1 h2 hu) fun n u hu =>
      (encodeLoop_frame n u).imp fun _ ht => hu.of_frame ht.1 (by rw [ht.2])
  by_cases h2 : i = .decode
  · subst h2
    exact decodeRule_ends hclear (fun i u h1 h2 hu _ => simpleRule_memories i u h1 h2 hu) fun n u hu =>
      (decodeLoop_frame n u).imp fun _ ht => hu.of_frame ht.1 (by rw [ht.2])
  exact simpleRule_memories i s h1 h2 h

theorem exec_keeps_memories {i : Instr} {s t : State} (h : MemoriesCanonical s) (ht : exec i s = .next t) :
    MemoriesCanonical t :=
  exec_next_of_rule ht h (fun _ _ hu => hu) (fun _ _ _ hu => hu) (fun _ hu => memoriesCanonical_cleared hu.pos_le)
    fun _ _ => ruleOf_memories i h

/-- Settles O58: a step is a command, whose rule keeps the form, or an event that writes no memory and puts the source
position inside the source. -/
theorem stepKeepsTheMemoriesCanonical : Obligations.StepKeepsTheMemoriesCanonical := by
  intro s t hs ht
  refine step_keeps ht hs (fun _ _ _ hu hv => exec_keeps_memories hu hv) (fun _ _ hu => hu) (fun _ _ hu => hu)
    (fun _ _ hu => hu) (fun _ hu => memoriesCanonical_cleared hu.pos_le) fun u b p k ⟨hft, htm, hst, _⟩ => ?_
  exact ⟨hft, htm, hst, Nat.min_le_right _ _⟩

end Sys2Proof.Machine
end

section
/-! SUPPORT. What commands do to the streams (R44, R61), and the state that reset and `CLR` leave (R28). -/

namespace Sys2Proof.Machine

/-! ### The source and the sink -/

/-- Settles O52: no rule moves a stream but by its primitives, and answers, faults and reset touch none. -/
theorem sourceIsNeverWrittenAndTheSinkGrows : Obligations.SourceIsNeverWrittenAndTheSinkGrows := by
  intro i s t ht
  refine exec_next_of_rule ht (P := fun u =>
    u.host.src = s.host.src ∧ u.host.script = s.host.script ∧ s.host.snk <+: u.host.snk)
    ⟨rfl, rfl, List.prefix_rfl⟩ (fun _ _ hu => hu) (fun _ _ _ hu => hu) (fun _ hu => hu) fun _ _ => ?_
  exact (ruleOf_streams i s).imp fun u hu => ⟨hu.src, by rw [hu.host], hu.snk⟩

/-! ### Reset -/

/-- Settles O2: the reset state is `CLR` of itself. -/
theorem resetMeetsTheInvariant : Obligations.ResetMeetsTheInvariant :=
  (inv_iff State.reset).2 ⟨Sound.cleared (s := State.reset) (Nat.le_refl 0), (endAgrees_cleared State.reset).fault,
    (endAgrees_cleared State.reset).writer⟩

theorem present_nil (b : Byte) : present [] b = false := by simp [present]

theorem nsym_nil : nsym [] = 0 :=
  List.length_eq_zero_iff.2 (List.filter_eq_nil_iff.2 fun b _ => by simp [present_nil])

theorem total_nil : total [] = 0#72 := by
  refine List.sum_eq_zero fun w hw => ?_
  obtain ⟨b, -, rfl⟩ := List.mem_map.1 hw
  rw [countAt_nil]; rfl

/-- `CLR` is accepted and answered in every state, a fault pending or not (R181, R209). -/
theorem exec_clr (s : State) : exec .clr s = .next (s.cleared.answered .done) := by
  rw [exec_eq_perform, perform, if_neg (by simp), if_pos (by rfl)]
  rfl

theorem step_reset {s : State} {es : List HostEvent} (h : s.host.script = .reset :: es) :
    step s = .next (s.withScript es).cleared := by
  unfold step; rw [h]

/-- Settles O1: the table is read off field by field; `CLR` and the reset input both end in `State.cleared`. -/
theorem resetLeavesTheTableOfR28 : Obligations.ResetLeavesTheTableOfR28 := by
  refine ⟨⟨rfl, rfl, rfl, rfl, rfl, rfl, rfl, rfl, rfl, rfl, rfl, rfl, rfl, nsym_nil, total_nil,
    countAt_nil, fun _ => rfl, fun _ => rfl, fun _ => rfl⟩, fun s => ?_, fun s es hs => ?_⟩
  · exact ⟨_, exec_clr s, rfl, rfl, rfl, rfl⟩
  · exact ⟨_, step_reset hs, rfl, rfl, rfl, rfl⟩

end Sys2Proof.Machine
end

section
/-! SUPPORT. What the read port shows (R25, R184): the fields of a register or record at their bits, zero-extended to the
model's port width (log entry 19). -/

namespace Sys2Proof.Machine

/-! ### Registers -/

/-- Numbers 15 and above name no register (R184). -/
theorem regRead_out_of_range (c : CoreState) {n : Nat} (h : 15 ≤ n) : regRead c n = 0 := by
  obtain ⟨k, rfl⟩ := Nat.exists_eq_add_of_le' h
  rfl

/-- The fields of `STATUS`, joined and zero-extended, stand at their bits (R13). -/
theorem status_fields {xnv outv eom rv stv fault : Bool} {phase : BitVec 2} {x : BitVec 264}
    (hx : x = (BitVec.ofBool xnv ++ BitVec.ofBool outv ++ BitVec.ofBool eom ++ BitVec.ofBool rv ++ BitVec.ofBool stv ++
      phase ++ BitVec.ofBool fault).setWidth 264) :
    x.getLsbD 0 = fault ∧ x.extractLsb' 1 2 = phase ∧ x.getLsbD 3 = stv ∧ x.getLsbD 4 = rv ∧ x.getLsbD 5 = eom ∧
      x.getLsbD 6 = outv ∧ x.getLsbD 7 = xnv := by
  have hbit (j : Nat) := congrArg (BitVec.getLsbD · j) hx
  simp only [BitVec.getLsbD_setWidth, BitVec.getLsbD_append] at hbit
  refine ⟨?_, BitVec.eq_of_getLsbD_eq fun j hj => ?_, ?_, ?_, ?_, ?_, ?_⟩
  case refine_2 => rw [BitVec.getLsbD_extractLsb', hbit]; grind
  all_goals rw [hbit]; simp

theorem regRead_status (c : CoreState) :
    (regRead c 0).getLsbD 0 = c.status.fault ∧ (regRead c 0).extractLsb' 1 2 = phaseBits c.status.phase ∧
    (regRead c 0).getLsbD 3 = c.status.stv ∧ (regRead c 0).getLsbD 4 = c.status.rv ∧
    (regRead c 0).getLsbD 5 = c.status.eom ∧ (regRead c 0).getLsbD 6 = c.status.outv ∧
    (regRead c 0).getLsbD 7 = c.status.xnv := status_fields rfl

theorem nsym_le (ft : Memory Count) : nsym ft ≤ 256 := by
  refine (List.length_filter_le _ _).trans (Nat.le_of_eq ?_)
  rw [allBytes, List.length_map, List.length_range]

/-- `NSYM` fits its nine bits (R29). -/
theorem regRead_nsym (c : CoreState) : (regRead c 13).toNat = nsym c.ft := by
  have := nsym_le c.ft
  change ((BitVec.ofNat 9 (nsym c.ft)).setWidth 264).toNat = _
  rw [BitVec.toNat_setWidth_of_le (by decide), BitVec.toNat_ofNat, Nat.mod_eq_of_lt (by omega)]

/-- The registers after `STATUS` by number, but for `QLEN` (R25). -/
theorem regRead_toNat (c : CoreState) :
    (regRead c 1).toNat = c.err.toNat ∧ (regRead c 2).toNat = c.errinfo.toNat ∧
    (regRead c 4).toNat = c.root.toNat ∧ (regRead c 5).toNat = c.nextNode.toNat ∧ (regRead c 6).toNat = c.xn.toNat ∧
    (regRead c 7).toNat = c.outb.toNat ∧ (regRead c 8).toNat = c.wacc.toNat ∧ (regRead c 9).toNat = c.wcnt.toNat ∧
    (regRead c 10).toNat = c.racc.toNat ∧ (regRead c 11).toNat = c.rcnt.toNat ∧ (regRead c 12).toNat = c.rrem.toNat ∧
    (regRead c 13).toNat = nsym c.ft ∧ (regRead c 14).toNat = (total c.ft).toNat := by
  have ext {n : Nat} (x : BitVec n) (h : n ≤ 264) : (x.setWidth 264).toNat = x.toNat := BitVec.toNat_setWidth_of_le h
  exact ⟨ext _ (by decide), ext _ (by decide), ext _ (by decide), ext _ (by decide), ext _ (by decide),
    ext _ (by decide), ext _ (by decide), ext _ (by decide), ext _ (by decide), ext _ (by decide), ext _ (by decide),
    regRead_nsym c, ext _ (by decide)⟩

/-- `QLEN` fits its nine bits while the queue holds at most 256 entries (R16). -/
theorem regRead_qlen (c : CoreState) (h : c.queue.length ≤ 256) : (regRead c 3).toNat = c.queue.length := by
  change ((qlen c).setWidth 264).toNat = _
  rw [BitVec.toNat_setWidth_of_le (by decide), qlen, BitVec.toNat_ofNat, Nat.mod_eq_of_lt (by omega)]

/-- R24 bounds the queue: its entries are free roots, of which there are at most 256. -/
theorem QueueForest.queue_le {c : CoreState} (h : QueueForest c) : c.queue.length ≤ 256 := by
  have := h.count_le h.sorted.nodup h.queued
  have := h.next_ge
  omega

/-! ### Memories -/

theorem memRead_ft (c : CoreState) (b : Byte) : memRead c .ft b.toNat = (countAt c.ft b).setWidth 264 := by
  rw [memRead, if_pos b.isLt, BitVec.ofNat_toNat, BitVec.setWidth_eq]

theorem memRead_st (c : CoreState) (b : Byte) : memRead c .st b.toNat = pathRecordBits (pathAt c.st b) := by
  rw [memRead, if_pos b.isLt, BitVec.ofNat_toNat, BitVec.setWidth_eq, BitVec.setWidth_eq]

theorem memRead_tm (c : CoreState) {i : NodeIdx} (h : i ≠ 511#9) :
    memRead c .tm i.toNat = (nodeBits (nodeAt c.tm i)).setWidth 264 := by
  have hi : i.toNat < 511 := by bv_omega
  rw [memRead, if_pos hi, BitVec.ofNat_toNat, BitVec.setWidth_eq]

theorem memRead_qm (c : CoreState) {k : Nat} (h : k < 256) :
    (memRead c .qm k).toNat = (queueEntry c k).toNat := by
  rw [memRead, if_pos h, BitVec.toNat_setWidth_of_le (by decide)]

/-- Indices out of range read as 0, queue entries past the end as 511 (R184, R23). -/
theorem memRead_out_of_range (c : CoreState) (i : Nat) :
    (256 ≤ i → memRead c .ft i = 0 ∧ memRead c .st i = 0 ∧ memRead c .qm i = 0) ∧
    (511 ≤ i → memRead c .tm i = 0) ∧
    (i < 256 → c.queue.length ≤ i → (memRead c .qm i).toNat = 511) := by
  refine ⟨fun h => ?_, fun h => if_neg (by omega), fun h hq => ?_⟩
  · exact ⟨if_neg (by omega), if_neg (by omega), if_neg (by omega)⟩
  · rw [memRead_qm c h, queueEntry, List.getD_eq_default _ _ hq]; rfl

/-- The fields of a record of `TM`, joined and zero-extended, stand at their bits (R21). -/
theorem node_fields {v k : BitVec 1} {sym : Byte} {w : Weight} {l r : NodeIdx} {x : BitVec 264}
    (hx : x = (v ++ k ++ sym ++ w ++ l ++ r).setWidth 264) :
    x.extractLsb' 100 164 = 0 ∧ x.getLsbD 99 = v.getLsbD 0 ∧ x.getLsbD 98 = k.getLsbD 0 ∧ x.extractLsb' 90 8 = sym ∧
      x.extractLsb' 18 72 = w ∧ x.extractLsb' 9 9 = l ∧ x.extractLsb' 0 9 = r := by
  have hbit (j : Nat) := congrArg (BitVec.getLsbD · j) hx
  simp only [BitVec.getLsbD_setWidth, BitVec.getLsbD_append] at hbit
  refine ⟨?_, ?_, ?_, ?_, ?_, ?_, ?_⟩
  · ext j hj; simp [hx]
  · rw [hbit]; simp
  · rw [hbit]; simp
  all_goals
    refine BitVec.eq_of_getLsbD_eq fun j hj => ?_
    rw [BitVec.getLsbD_extractLsb', hbit]; grind

/-- Bit `k` of a path's bits is 1 where decision `k` is `Left` (R131). -/
theorem pathBits_getLsbD (p : Path) : ∀ k, k < 255 → (pathBits p).getLsbD k = decide (p[k]? = some .left) := by
  induction p with
  | nil => intro k _; simp [pathBits]
  | cons d p ih =>
    intro k hk
    cases k with
    | zero => cases d <;> simp [pathBits, Decision.bit]
    | succ k =>
      rw [List.getElem?_cons_succ, ← ih k (by omega), pathBits]
      simp only [BitVec.getLsbD_or, BitVec.getLsbD_shiftLeft, BitVec.getLsbD_setWidth, hk, BitVec.getLsbD_ofBool]
      simp

/-- The fields of a record of `ST` stand at their bits (R22). -/
theorem path_fields {p : Path} (h : p.length ≤ 255) :
    (pathRecordBits (some p)).getLsbD 263 = true ∧ ((pathRecordBits (some p)).extractLsb' 255 8).toNat = p.length ∧
      ∀ k, k < 255 → (pathRecordBits (some p)).getLsbD k = decide (p[k]? = some .left) := by
  have hbit (j : Nat) : (pathRecordBits (some p)).getLsbD j =
      (1#1 ++ BitVec.ofNat 8 p.length ++ pathBits p).getLsbD j := rfl
  simp only [BitVec.getLsbD_append] at hbit
  have hlen : (pathRecordBits (some p)).extractLsb' 255 8 = BitVec.ofNat 8 p.length := by
    refine BitVec.eq_of_getLsbD_eq fun j hj => ?_
    rw [BitVec.getLsbD_extractLsb', hbit]; grind
  refine ⟨?_, ?_, fun k hk => ?_⟩
  · rw [hbit]; rfl
  · rw [hlen, BitVec.toNat_ofNat, Nat.mod_eq_of_lt (by omega)]
  · rw [hbit, if_pos hk, pathBits_getLsbD p k hk]

/-- Settles O51: each register and each record by its own lemma above. -/
theorem readPortShowsTheRegisters : Obligations.ReadPortShowsTheRegisters := by
  refine ⟨fun c n => regRead_out_of_range c, regRead_status, regRead_toNat, memRead_out_of_range, regRead_qlen,
    fun s hs => (queueForest_of_inv hs).queue_le, fun c b => ?_, fun c i hi => ⟨fun h => ?_, fun sym w h => ?_,
    fun w l r h => ?_⟩, fun c b => ⟨fun h => ?_, fun p h hp => ?_⟩, fun c k a hk h => ?_⟩
  · rw [memRead_ft, BitVec.toNat_setWidth_of_le (by decide)]
  · rw [memRead_tm c hi, h]; simp [nodeBits]
  · exact node_fields (v := 1#1) (k := 0#1) (by rw [memRead_tm c hi, h]; rfl)
  · exact node_fields (v := 1#1) (k := 1#1) (by rw [memRead_tm c hi, h]; rfl)
  · rw [memRead_st, h]; rfl
  · rw [memRead_st, h]; exact path_fields hp
  · rw [memRead_qm c hk, queueEntry, List.getD_eq_getElem?_getD, h]; rfl

end Sys2Proof.Machine
end

section
/-! SUPPORT. The encoding of commands (R71 to R76): the three fields of a word, the row of the table each command stands
in, and the answer a performed command gives (R70). -/

namespace Sys2Proof

/-! ### The fields of a word (R71) -/

/-- The two words have the same `grp` and the same `fn`. -/
structure SameOpcode (w v : CmdWord) : Prop where
  grp : w.extractLsb' 12 4 = v.extractLsb' 12 4
  fn : w.extractLsb' 9 3 = v.extractLsb' 9 3

theorem SameOpcode.symm {w v : CmdWord} (h : SameOpcode w v) : SameOpcode v w := ⟨h.grp.symm, h.fn.symm⟩

theorem SameOpcode.trans {w v u : CmdWord} (h : SameOpcode w v) (h' : SameOpcode v u) : SameOpcode w u :=
  ⟨h.grp.trans h'.grp, h.fn.trans h'.fn⟩

/-- A word is its three fields: bit `j` is one of `arg` below 9, of `fn` below 12, of `grp` from there on. -/
theorem eq_of_fields_eq {w v : CmdWord} (h : SameOpcode w v) (harg : w.extractLsb' 0 9 = v.extractLsb' 0 9) : w = v := by
  refine BitVec.eq_of_getLsbD_eq fun j hj => ?_
  have hg := congrArg (BitVec.getLsbD · (j - 12)) h.grp
  have hf := congrArg (BitVec.getLsbD · (j - 9)) h.fn
  have ha := congrArg (BitVec.getLsbD · j) harg
  simp only [BitVec.getLsbD_extractLsb'] at hg hf ha
  grind

/-- The operand lies below `grp` and `fn` (R72). -/
theorem encode_getLsbD (i : Instr) {k : Nat} (h : 9 ≤ k) : (encode i).getLsbD k = i.word.getLsbD k := by
  rw [encode, BitVec.getLsbD_or, BitVec.getLsbD_setWidth, BitVec.getLsbD_of_ge i.arg k h, Bool.and_false, Bool.or_false]

theorem encode_sameOpcode (i : Instr) : SameOpcode (encode i) i.word where
  grp := by ext j hj; simp only [BitVec.getElem_extractLsb', encode_getLsbD i (show 9 ≤ 12 + j by omega)]
  fn := by ext j hj; simp only [BitVec.getElem_extractLsb', encode_getLsbD i (show 9 ≤ 9 + j by omega)]

/-- The operand field of every command, from the family of `Laws.OperandField`. -/
theorem operandField (i : Instr) : Laws.OperandField.Statement i := by
  cases i with
  | fscan => exact Laws.OperandField.fscan
  | qbuild => exact Laws.OperandField.qbuild
  | qins idx => exact Laws.OperandField.qins idx
  | qext => exact Laws.OperandField.qext
  | tjoin => exact Laws.OperandField.tjoin
  | treduce => exact Laws.OperandField.treduce
  | sderive => exact Laws.OperandField.sderive
  | wbit d => exact Laws.OperandField.wbit d
  | wsym sym => exact Laws.OperandField.wsym sym
  | wflush => exact Laws.OperandField.wflush
  | rinit => exact Laws.OperandField.rinit
  | rnext => exact Laws.OperandField.rnext
  | hwrite => exact Laws.OperandField.hwrite
  | hread => exact Laws.OperandField.hread
  | encode => exact Laws.OperandField.encode
  | decode => exact Laws.OperandField.decode
  | clr => exact Laws.OperandField.clr
  | srew => exact Laws.OperandField.srew

theorem encode_arg (i : Instr) : (encode i).extractLsb' 0 9 = i.arg := (operandField i).2

theorem argOk_arg (i : Instr) : i.format.argOk i.arg = true := (operandField i).1

/-- A word with the opcode of a command's row and its operand is its encoding. -/
theorem eq_encode {w : CmdWord} {i : Instr} (h : SameOpcode w i.word) (harg : w.extractLsb' 0 9 = i.arg) :
    w = encode i :=
  eq_of_fields_eq (h.trans (encode_sameOpcode i).symm) (harg.trans (encode_arg i).symm)

/-! ### The rows (R74) -/

/-- The command of the same row whose operand field is `a`. -/
def Instr.withArg (i : Instr) (a : BitVec 9) : Instr :=
  match i with
  | .qins _ => .qins a
  | .wbit _ => .wbit (decisionOf (a.getLsbD 0))
  | .wsym _ => .wsym (a.extractLsb' 0 8)
  | i => i

@[simp] theorem Instr.withArg_word (i : Instr) (a : BitVec 9) : (i.withArg a).word = i.word := by cases i <;> rfl

/-- A field that passes the check of the row's format is the operand of a command of the row. -/
theorem Instr.withArg_arg {i : Instr} {a : BitVec 9} (h : i.format.argOk a = true) : (i.withArg a).arg = a := by
  cases i with
  | qins _ => rfl
  | wbit _ =>
    have hbits : ∀ a, Format.argOk .d a = true → (Instr.wbit (decisionOf (a.getLsbD 0))).arg = a := by decide +kernel
    exact hbits a h
  | wsym _ =>
    have hbits : ∀ a, Format.argOk .b a = true → (Instr.wsym (a.extractLsb' 0 8)).arg = a := by decide +kernel
    exact hbits a h
  | _ => exact (eq_of_beq h).symm

/-- A command carries its own operand field. -/
@[simp] theorem Instr.withArg_self (i : Instr) : i.withArg i.arg = i := by
  cases i with
  | wbit d => cases d <;> rfl
  | wsym sym =>
    refine congrArg Instr.wsym (BitVec.eq_of_getLsbD_eq fun j hj => ?_)
    simp [Instr.arg, hj, hj.trans (show 8 < 9 by decide)]
  | _ => rfl

/-- The decoder on the opcode of a row: the check of the row's format, then the row's command. -/
theorem decodeFields_row (i : Instr) (a : BitVec 9) :
    decodeFields (i.word.extractLsb' 12 4).toNat (i.word.extractLsb' 9 3).toNat a = checked i.format a (i.withArg a) := by
  cases i <;> simp only [Instr.word] <;> rfl

theorem decode_row {w : CmdWord} {i : Instr} (h : SameOpcode w i.word) :
    decode w = checked i.format (w.extractLsb' 0 9) (i.withArg (w.extractLsb' 0 9)) := by
  rw [decode, h.grp, h.fn, decodeFields_row]

theorem checked_eq_instr {f : Format} {a : BitVec 9} {i j : Instr} :
    checked f a i = .instr j ↔ f.argOk a = true ∧ i = j := by
  unfold checked
  split_ifs with h <;> simp [h]

/-- The decoder reads a command only from the opcode of its row: an arm that answers one checks the operand of that
command, the other arms answer reserved. -/
theorem opcode_of_decodeFields {g f : Nat} {a : BitVec 9} {i : Instr} (h : decodeFields g f a = .instr i) :
    g = (i.word.extractLsb' 12 4).toNat ∧ f = (i.word.extractLsb' 9 3).toNat := by
  unfold decodeFields at h
  split at h
  case h_9 => cases h
  all_goals
    split at h
    all_goals simp only [checked_eq_instr, reduceCtorEq] at h
    all_goals
      obtain ⟨-, rfl⟩ := h
      simp only [Instr.word]
      exact ⟨rfl, rfl⟩

theorem sameOpcode_of_decode {w : CmdWord} {i : Instr} (h : decode w = .instr i) : SameOpcode w i.word :=
  have ⟨hg, hf⟩ := opcode_of_decodeFields h
  ⟨BitVec.eq_of_toNat_eq hg, BitVec.eq_of_toNat_eq hf⟩

/-- The must-be-zero bits of a format are the operand bits of its mask (R72, R74). -/
theorem argOk_iff_mask (f : Format) (a : BitVec 9) : f.argOk a = true ↔ a &&& f.mask.extractLsb' 0 9 = 0#9 := by
  revert a
  cases f <;> decide +kernel

/-- Every mask keeps the opcode. -/
theorem sameOpcode_and_mask (w : CmdWord) (f : Format) : SameOpcode (w &&& f.mask) w where
  grp := by
    have hmask : f.mask.extractLsb' 12 4 = BitVec.allOnes 4 := by cases f <;> rfl
    rw [BitVec.extractLsb'_and, hmask, BitVec.and_allOnes]
  fn := by
    have hmask : f.mask.extractLsb' 9 3 = BitVec.allOnes 3 := by cases f <;> rfl
    rw [BitVec.extractLsb'_and, hmask, BitVec.and_allOnes]

/-- A row's word has no operand bits (R74). -/
theorem word_arg (i : Instr) : i.word.extractLsb' 0 9 = 0#9 := by
  cases i <;> simp only [Instr.word] <;> rfl

/-- A word matches a row where it has the row's opcode and its operand field passes the check of the row's format. -/
theorem matchesRow_iff {w : CmdWord} {i : Instr} :
    matchesRow w i = true ↔ SameOpcode w i.word ∧ i.format.argOk (w.extractLsb' 0 9) = true := by
  have hop := sameOpcode_and_mask w i.format
  rw [matchesRow, beq_iff_eq, argOk_iff_mask, ← BitVec.extractLsb'_and, ← word_arg i]
  constructor
  · intro h
    rw [h] at hop ⊢
    exact ⟨hop.symm, rfl⟩
  · rintro ⟨h, harg⟩
    exact eq_of_fields_eq (hop.trans h) harg

/-! ### Decoding and encoding -/

theorem decode_encode (i : Instr) : decode (encode i) = .instr i := by
  rw [decode_row (encode_sameOpcode i), encode_arg, Instr.withArg_self, checked, if_pos (argOk_arg i)]

theorem matchesRow_encode (i : Instr) : matchesRow (encode i) i = true :=
  matchesRow_iff.2 ⟨encode_sameOpcode i, by rw [encode_arg]; exact argOk_arg i⟩

/-- A command is read only from its own encoding. -/
theorem eq_encode_of_decode {w : CmdWord} {i : Instr} (h : decode w = .instr i) : w = encode i := by
  have hop := sameOpcode_of_decode h
  obtain ⟨hok, hi⟩ := checked_eq_instr.1 ((decode_row hop).symm.trans h)
  have harg := Instr.withArg_arg hok
  rw [hi] at harg
  exact eq_encode hop harg.symm

/-- A word that matches a row is the encoding of a command of the row. -/
theorem exists_encode_of_matchesRow {w : CmdWord} {i : Instr} (h : matchesRow w i = true) :
    ∃ j, w = encode j ∧ j.word = i.word := by
  obtain ⟨hop, hok⟩ := matchesRow_iff.1 h
  refine ⟨i.withArg (w.extractLsb' 0 9), eq_encode ?_ (Instr.withArg_arg hok).symm, i.withArg_word _⟩
  rwa [Instr.withArg_word]

/-- Settles O6: the opcode of an encoding selects the command's row, and its operand field passes that row's check;
the premise holds of every command (`argOk_arg`). -/
theorem decodeEncodeAgree : Obligations.DecodeEncodeAgree :=
  fun i _ => ⟨decode_encode i, matchesRow_encode i⟩

/-- Settles O7: the words that match a row are the encodings of its commands, and decoding an encoding gives the command
back, so no two rows share a word. -/
theorem everyWordMatchesOneRowOrIsReserved : Obligations.EveryWordMatchesOneRowOrIsReserved := by
  refine ⟨fun w i => ⟨eq_encode_of_decode, ?_⟩, fun w i j hi hj => ?_, fun w => ⟨?_, fun hno => ?_⟩⟩
  · rintro rfl; exact decode_encode i
  · obtain ⟨i', hwi, hi'⟩ := exists_encode_of_matchesRow hi
    obtain ⟨j', hwj, hj'⟩ := exists_encode_of_matchesRow hj
    have hij : Decoded.instr i' = .instr j' := by rw [← decode_encode i', ← decode_encode j', ← hwi, ← hwj]
    injection hij with hij
    rw [← hi', ← hj', hij]
  · rintro ⟨why, hw⟩ i
    by_contra hm
    obtain ⟨j, rfl, -⟩ := exists_encode_of_matchesRow (Bool.eq_true_of_not_eq_false hm)
    rw [decode_encode] at hw
    cases hw
  · cases hd : decode w with
    | reserved why => exact ⟨why, rfl⟩
    | instr i =>
      have hm := matchesRow_encode i
      rw [← eq_encode_of_decode hd, hno i] at hm
      cases hm

/-- Settles O5, by evaluating the decoder on each of the fifteen words. -/
theorem specWordsDecode : Obligations.SpecWordsDecode := by
  unfold Obligations.SpecWordsDecode
  decide

end Sys2Proof

namespace Sys2Proof.Machine

/-! ### Performing a presented word -/

theorem step_command {s : State} {w : CmdWord} {es : List HostEvent} (h : s.host.script = .command w :: es) :
    step s = presentWord w (s.withScript es) := by
  unfold step; rw [h]

theorem presentWord_instr {w : CmdWord} {i : Instr} (h : decode w = .instr i) (s : State) :
    presentWord w s = exec i s := by
  unfold presentWord; rw [h]

/-- Settles O3: the step presents the word, and the word is performed as the command it decodes to. -/
theorem stepRunsTheDecodedCommand : Obligations.StepRunsTheDecodedCommand :=
  fun s _ es _ hs hd => (step_command hs).trans (presentWord_instr hd (s.withScript es))

/-! ### The answer to a command -/

/-- A rule writes no answer: the command that runs it does. -/
theorem ruleOf_answers (i : Instr) (s : State) : (ruleOf i s).Ends fun u => u.host.answers = s.host.answers :=
  (ruleOf_streams i s).imp fun u hu => by rw [hu.host]

/-- An accepted command whose rule ends with a value leaves no fault: `CLR` clears it, the others find none. -/
theorem ruleOf_ok_noFault {i : Instr} {s u : State} (hf : s.core.status.fault = false ∨ i = .clr)
    (hu : ruleOf i s = .ok () u) : u.core.status.fault = false := by
  rcases hf with hf | rfl
  · exact (ruleOf_noFault i hf).of_ok hu
  · cases hu; rfl

/-- Settles O15: a command ends refused, in a fault or with its rule's end, which answers once; without a reset pending
no rule is abandoned. -/
theorem everyCommandIsAnsweredOnce : Obligations.EveryCommandIsAnsweredOnce := by
  intro i s t ht hreset
  have haccepted (h : s.core.status.fault = false ∨ i = .clr) : ¬ (s.core.status.fault = true ∧ i ≠ .clr) := by
    rintro ⟨hf, hi⟩
    exact h.elim (by simp [hf]) hi
  rcases exec_next_cases ht with
    ⟨hf, hi, rfl⟩ | ⟨hf, -, rfl⟩ | ⟨hf, -, ⟨u, hu, rfl⟩ | ⟨k, info, u, hu, rfl⟩ | ⟨u, hu, rfl⟩⟩
  · rw [if_pos ⟨hf, hi⟩]; rfl
  · rw [if_neg (haccepted (.inl hf)), if_pos (by rfl)]; rfl
  · rw [if_neg (haccepted hf), State.answered_core, if_neg (by simp [ruleOf_ok_noFault hf hu]), State.answered_answers,
      (ruleOf_answers i s).of_ok hu]
  · have hans := ruleOf_answers i s
    rw [hu, Res.ends_raised] at hans
    rw [if_neg (haccepted hf), if_pos (by rfl), ← hans]; rfl
  · exact absurd rfl (hreset _ (ruleOf_abandons i s u hu))

end Sys2Proof.Machine
end

section
/-! SUPPORT. The frequency table (R91, R162, R24 item 8): what `FSCAN` adds, and what the commands leave of the counts. -/

namespace Sys2Proof.Machine

/-! ### The counts that `FSCAN` leaves (R91) -/

/-- A byte read is the first of the rest of the source, and the others stay to be read (R45). -/
theorem rest_of_srcRead {s u : State} {b : Byte} (h : srcRead s = .ok (some b) u) : s.rest = b :: u.rest := by
  obtain ⟨-, hb, rfl⟩ := srcRead_eq_ok.1 h
  obtain ⟨hl, hb⟩ := List.getElem?_eq_some_iff.1 hb.symm
  rw [State.rest, List.drop_eq_getElem_cons hl, hb]
  rfl

/-- Counting a byte reads nothing and leaves the counts of the other bytes (R91, R92). -/
theorem countByte_others (b : Byte) (s : State) : (countByte b s).Ends fun t =>
    t.rest = s.rest ∧ ∀ x, x ≠ b → countAt t.core.ft x = countAt s.core.ft x := by
  unfold countByte
  dsimp only
  split_ifs
  · exact ⟨rfl, fun _ _ => rfl⟩
  · refine ⟨rfl, fun x hx => ?_⟩
    rw [State.withCore_core, countAt_setCount, if_neg hx]

theorem fscanLoop_countAt (n : Nat) {s : State} {x : Byte} (hx : x ∉ s.rest) :
    (fscanLoop n s).Ends fun t => countAt t.core.ft x = countAt s.core.ft x := by
  induction n generalizing s with
  | zero => trivial
  | succ n ih =>
    unfold fscanLoop
    refine Res.ends_andThen ((srcRead_frame s).imp fun t ht => by rw [ht.2]) fun r u hu hcu => ?_
    match r with
    | none => exact hcu
    | some b =>
      rw [rest_of_srcRead hu, List.mem_cons, not_or] at hx
      have hcount := countByte_others b u
      refine Res.ends_andThen (hcount.imp fun v hv => (hv.2 x hx.1).trans hcu) fun _ v hv hcv => ?_
      have hrest : v.rest = u.rest := (hcount.of_ok hv).1
      exact (ih (hrest ▸ hx.2)).imp fun t ht => ht.trans hcv

/-- Settles O20: the loop of `FSCAN` takes the whole rest of the source, and no count reaches its limit on the way. -/
theorem fscanAddsTheHistogram : Obligations.FscanAddsTheHistogram := by
  intro s ⟨hf, hp⟩ hserve hpos hcounts
  obtain ⟨ft, hrule, hft, -⟩ := fscanRule_moved hserve hcounts
  have hend : s.host.pos + s.rest.length = s.host.src.length := by
    rw [State.rest, List.length_drop]; omega
  rw [hend] at hrule
  exact ⟨_, (exec_ready hf hp).trans (congrArg conclude hrule), hft, rfl, rfl⟩

/-! ### The frame of the table's commands (R91, R162) and the table outside phase `IDLE` (R24 item 8) -/

/-- A property of the end states of a command that no reset abandons: enough that answering and taking a fault keep it
and that the pseudocode, where it runs, ends in it. -/
theorem exec_next_of_rule_unreset {P : State → Prop} {i : Instr} {s t : State} (h : exec i s = .next t)
    (hreset : NoResetPending s) (hs : P s) (hans : ∀ u a, P u → P (u.answered a))
    (hfault : ∀ u k info, P u → P (u.enterFault k info))
    (hrule : (s.core.status.fault = false ∨ i = .clr) → precondition i s.core.status = true → (ruleOf i s).Ends P) :
    P t := by
  rcases exec_next_cases h with
    ⟨-, -, rfl⟩ | ⟨-, -, rfl⟩ | ⟨hf, hp, ⟨u, hu, rfl⟩ | ⟨k, info, u, hu, rfl⟩ | ⟨u, hu, rfl⟩⟩
  · exact hans _ _ hs
  · exact hans _ _ (hfault _ _ _ hs)
  · exact hans _ _ ((hrule hf hp).of_ok hu)
  · have hend := hrule hf hp
    rw [hu, Res.ends_raised] at hend
    exact hans _ _ (hfault _ _ _ hend)
  · exact absurd rfl (hreset _ (ruleOf_abandons i s u hu))

/-- From `s` to `t` only `FT` and the fault registers of the CORE changed, and the sink did not. -/
structure OnlyTable (s t : State) : Prop where
  core : t.core = { s.core with
    ft := t.core.ft, err := t.core.err, errinfo := t.core.errinfo
    status := { s.core.status with fault := t.core.status.fault } }
  snk : t.host.snk = s.host.snk

theorem OnlyTable.enterFault {s t : State} (h : OnlyTable s t) (k : ErrorKind) (info : BitVec 32) :
    OnlyTable s (t.enterFault k info) where
  core := by rw [State.enterFault, h.core]
  snk := h.snk

theorem OnlyTable.of_sourceMoved {s t : State} (hm : SourceMoved s t) (hc : t.core = { s.core with ft := t.core.ft }) :
    OnlyTable s t where
  core := by rw [hc]
  snk := by rw [hm.host]

theorem ruleOf_onlyTable {i : Instr} (s : State) (hi : i = .fscan ∨ i = .hread) : (ruleOf i s).Ends (OnlyTable s) := by
  rcases hi with rfl | rfl
  · exact (fscanRule_frame s).imp fun t ht => .of_sourceMoved ht.1 ht.2.1
  · exact (hreadRule_frame s).imp fun t ht => .of_sourceMoved ht.1 ht.2.1

/-- However a rule but those of `ENCODE`, `DECODE` and `CLR` ends outside phase `IDLE`, `FT` is as before: `FSCAN` and
`HREAD` are not accepted there (R80). -/
theorem ruleOf_ft {i : Instr} {s : State} (hp : precondition i s.core.status = true) (hph : s.core.status.phase ≠ .idle)
    (h1 : i ≠ .encode) (h2 : i ≠ .decode) (h3 : i ≠ .clr) : (ruleOf i s).Ends fun t => t.core.ft = s.core.ft := by
  cases i with
  | fscan => exact absurd (by simpa [precondition] using hp) hph
  | hread => exact absurd (by simpa [precondition] using hp) hph
  | encode => exact absurd rfl h1
  | decode => exact absurd rfl h2
  | clr => exact absurd rfl h3
  | qbuild => exact (qbuildRule_frame s).imp fun t h => by rw [h.2]
  | qins idx => exact (qinsRule_frame idx s).imp fun t h => by rw [h.2]
  | qext => exact (qextRule_frame s).imp fun t h => by rw [h.2]
  | tjoin => exact (tjoinRule_frame s).imp fun t h => by rw [h.2]
  | treduce => exact (treduceRule_frame s).imp fun t h => by rw [h.2]
  | sderive => exact (sderiveRule_frame s).imp fun t h => by rw [h.2]
  | wbit d => exact (wbitRule_frame d s).imp fun t h => by rw [h.2]
  | wsym sym => exact (wsymRule_frame sym s).imp fun t h => by rw [h.2]
  | wflush => exact (wflushRule_frame s).imp fun t h => by rw [h.2]
  | rinit => exact (rinitRule_frame s).imp fun t h => by rw [h.2]
  | rnext => exact (rnextRule_frame s).imp fun t h => by rw [h.2]
  | hwrite => exact (hwriteRule_frame s).imp fun t h => by rw [h.2]
  | srew => exact (srcRewind_frame s).imp fun t h => by rw [h.2]

/-- Settles O53: the frames of the two rules, the count of a byte the loop of `FSCAN` does not meet, and the rules that
can run outside phase `IDLE`, each carried to the end of its command. -/
theorem frameOfTheFrequencyTable : Obligations.FrameOfTheFrequencyTable := by
  refine ⟨fun i s t hi ht hreset => ?_, fun i s t ht hreset hph h3 h1 h2 => ?_⟩
  · have honly : OnlyTable s t := exec_next_of_rule_unreset ht hreset ⟨rfl, rfl⟩ (fun _ _ hu => ⟨hu.core, hu.snk⟩)
      (fun _ k info hu => hu.enterFault k info) fun _ _ => ruleOf_onlyTable s hi
    refine ⟨honly.core, honly.snk, ?_⟩
    rintro rfl x hx
    exact exec_next_of_rule_unreset (P := fun u => countAt u.core.ft x = countAt s.core.ft x) ht hreset rfl
      (fun _ _ hu => hu) (fun _ _ _ hu => hu) fun _ _ => fscanLoop_countAt _ hx
  · exact exec_next_of_rule_unreset (P := fun u => u.core.ft = s.core.ft) ht hreset rfl
      (fun _ _ hu => hu) (fun _ _ _ hu => hu) fun _ hp => ruleOf_ft hp hph h1 h2 h3

end Sys2Proof.Machine
end

section
/-! SUPPORT. The priority queue (R100 to R105): the comparator, and the ends of `QBUILD`, `QINS` and `QEXT`. -/

namespace Sys2Proof.Machine

/-- An accepted command whose rule ends with a value is answered `done`. -/
theorem exec_done {i : Instr} {s u : State} (h : Ready i s) (hu : ruleOf i s = .ok () u) :
    exec i s = .next (u.answered .done) :=
  (exec_ready h.1 h.2).trans (congrArg conclude hu)

/-! ### The comparator (R100, R101) -/

theorem leftmost_of_leaf {tm : Memory Node} {i : NodeIdx} {sym : Byte} {w : Weight}
    (h : nodeAt tm i = some (.leaf sym w)) : leftmost tm i = sym := by
  simp [leftmost, leftmostFrom, h]

/-- Different free roots are ordered one way and not the other: their trees are disjoint (R101). -/
theorem Forest.nodeLt_trichotomy {ft tm next} (h : Forest ft tm next) {i j : NodeIdx} (hi : freeRoot tm i = true)
    (hj : freeRoot tm j = true) (hij : i ≠ j) :
    (nodeLt tm i j = true ∧ nodeLt tm j i = false) ∨ (nodeLt tm i j = false ∧ nodeLt tm j i = true) :=
  (nodeLt_total (h.roots_ordered hi hj hij)).imp (fun hlt => ⟨hlt, nodeLt_asymm hlt⟩) fun hlt => ⟨nodeLt_asymm hlt, hlt⟩

/-- Settles O26: the laws of the comparator; in a state that meets R24 the walk to the leftmost leaf ends below its bound,
and no two free roots share that leaf. -/
theorem comparatorIsAStrictTotalOrder : Obligations.ComparatorIsAStrictTotalOrder :=
  ⟨fun _ _ _ _ => leftmost_of_leaf, fun _ _ _ _ _ hs => (queueForest_of_inv hs).leftmost_node, nodeLt_iff, nodeLt_irrefl,
    fun _ _ _ _ => nodeLt_trans, fun _ _ _ hs => (queueForest_of_inv hs).nodeLt_trichotomy⟩

/-! ### `QBUILD` (R103) -/

/-- `TM` after the leaves were written, read at the slot of a byte. -/
theorem nodeAt_putLeaves_leafIdx (ft : Memory Count) (tm : Memory Node) (b : Byte) :
    nodeAt (putLeaves ft tm) (leafIdx b) =
      if present ft b = true then some (leafOf ft b) else nodeAt tm (leafIdx b) := by
  obtain ⟨hpresent, hother⟩ := nodeAt_putLeaves ft tm (leafIdx b)
  split_ifs with hb
  · exact hpresent b hb rfl
  · exact hother fun x hx hbx => hb (leafIdx_inj hbx ▸ hx)

theorem leafIdx_ne_of_ge {i : NodeIdx} (h : 256 ≤ i.toNat) (b : Byte) : i ≠ leafIdx b := by
  rintro rfl
  have := b.isLt
  rw [leafIdx_toNat] at h
  omega

/-- Between leaves the comparator goes by the count, then by the byte (R100, R101). -/
theorem nodeLt_putLeaves {ft : Memory Count} (tm : Memory Node) {b b' : Byte} (hb : present ft b = true)
    (hb' : present ft b' = true) :
    nodeLt (putLeaves ft tm) (leafIdx b) (leafIdx b') = true ↔ (countAt ft b).toNat < (countAt ft b').toNat ∨
      countAt ft b = countAt ft b' ∧ b.toNat < b'.toNat := by
  obtain ⟨hl, hw⟩ := leftmost_putLeaves ft tm hb
  obtain ⟨hl', hw'⟩ := leftmost_putLeaves ft tm hb'
  have hwide (c : Count) : (c.setWidth 72).toNat = c.toNat := BitVec.toNat_setWidth_of_le (by decide)
  rw [nodeLt_iff, hl, hw, hl', hw', ← BitVec.toNat_inj, ← BitVec.toNat_inj, hwide, hwide]

/-- Settles O22: the leaves are read off `nodeAt_putLeaves`, the queue is the sorted list of the leaves, and its order is
that of the comparator between leaves. -/
theorem qbuildQueuesOneLeafPerPresentByte : Obligations.QbuildQueuesOneLeafPerPresentByte := by
  intro s hready hn
  obtain ⟨hperm, hsorted⟩ := sorted_leaves s.core.ft s.core.tm
  have hpresent {b : Byte} (hb : leafIdx b ∈ s.core.built.queue) : present s.core.ft b = true := by
    obtain ⟨x, hx, hxb⟩ := List.mem_map.1 (hperm.mem_iff.1 hb)
    exact leafIdx_inj hxb ▸ mem_presentBytes.1 hx
  refine ⟨_, exec_done hready (qbuildRule_ok hn), nodeAt_putLeaves_leafIdx _ _, fun i hi => ?_, hperm, hsorted, ?_, rfl, rfl⟩
  · exact (nodeAt_putLeaves _ _ i).2 fun b _ => leafIdx_ne_of_ge hi b
  · refine hsorted.imp_of_mem ?_
    rintro _ _ hi hj hlt b b' rfl rfl
    exact (nodeLt_putLeaves _ (hpresent hi) (hpresent hj)).1 hlt

/-! ### `QINS` (R104) -/

/-- The CORE after `QINS` of an eligible node (R104). -/
def CoreState.inserted (c : CoreState) (idx : NodeIdx) : CoreState :=
  { c with
    queue := placeInQueue c.tm c.queue idx
    xn := if c.status.xnv = true ∧ c.xn = idx then Config.noNode else c.xn
    status := c.status.setXnv (if c.status.xnv = true ∧ c.xn = idx then false else c.status.xnv) }

theorem exec_qins {s : State} {idx : NodeIdx} (h : QueueForest s.core) (hready : Ready (.qins idx) s)
    (he : eligible s.core idx = true) :
    exec (.qins idx) s = .next ((s.withCore (s.core.inserted idx)).answered .done) := by
  refine exec_done hready ((qinsRule_ok h he).trans ?_)
  unfold CoreState.inserted
  by_cases hwas : s.core.status.xnv = true ∧ s.core.xn = idx
  · obtain ⟨hxnv, hxn⟩ := hwas
    simp [hxnv, hxn]
  · have hwas' : (s.core.status.xnv && s.core.xn == idx) = false := by simpa using hwas
    simp [hwas, hwas']

theorem QueueForest.inserted {c : CoreState} (h : QueueForest c) {idx : NodeIdx} (he : eligible c idx = true) :
    QueueForest (c.inserted idx) :=
  h.insert (eligible_iff.1 he).1 (eligible_iff.1 he).2 _ _

/-- A node stays eligible where another was put into the queue. -/
theorem eligible_inserted {c : CoreState} {i j : NodeIdx} (hij : i ≠ j) (hj : eligible c j = true) :
    eligible (c.inserted i) j = true := by
  obtain ⟨hroot, hout⟩ := eligible_iff.1 hj
  refine eligible_iff.2 ⟨hroot, fun hmem => ?_⟩
  exact (mem_placeInQueue.1 hmem).elim (fun hc => hij hc.symm) hout

/-- Settles O23: in a sorted queue the place counted is the place of the order, and the free roots are ordered. -/
theorem qinsPutsTheNodeAtItsPlace : Obligations.QinsPutsTheNodeAtItsPlace := by
  intro idx s hs hready he
  have hforest := queueForest_of_inv hs
  exact ⟨_, exec_qins hforest hready he, placeInQueue_eq hforest.sorted idx, (hforest.inserted he).sorted, rfl, rfl⟩

/-- Two eligible nodes leave the same queue and the same `XN` in either order: sorted queues of the same nodes are equal, and
`XN` names at most one of the two (R102). -/
theorem inserted_comm {c : CoreState} (h : QueueForest c) {i j : NodeIdx} (hij : i ≠ j) (hi : eligible c i = true)
    (hj : eligible c j = true) : (c.inserted i).inserted j = (c.inserted j).inserted i := by
  have hqueue : ((c.inserted i).inserted j).queue = ((c.inserted j).inserted i).queue := by
    refine sorted_unique ((h.inserted hi).inserted (eligible_inserted hij hj)).sorted
      ((h.inserted hj).inserted (eligible_inserted hij.symm hi)).sorted ?_
    have hperm (a b : NodeIdx) : ((c.inserted a).inserted b).queue.Perm (b :: a :: c.queue) :=
      (placeInQueue_perm _ _ b).trans ((placeInQueue_perm _ _ a).cons b)
    exact (hperm i j).trans ((List.Perm.swap i j _).trans (hperm j i).symm)
  simp only [CoreState.inserted] at hqueue ⊢
  rw [hqueue]
  by_cases hxi : c.xn = i
  · simp [hxi, hij, Status.setXnv]
  by_cases hxj : c.xn = j
  · simp [hxj, hij.symm, Status.setXnv]
  · simp [hxi, hxj, Status.setXnv]

/-- Settles O24: sorted queues of the same nodes are equal, and insertions commute on the CORE. -/
theorem insertionOrderDoesNotShow : Obligations.InsertionOrderDoesNotShow := by
  refine ⟨fun tm q q' => sorted_unique, fun i j s hs hready hij hi hj => ?_⟩
  have hforest := queueForest_of_inv hs
  refine ⟨_, _, _, _, exec_qins hforest hready hi,
    exec_qins (hforest.inserted hi) hready (eligible_inserted hij hj),
    exec_qins hforest hready hj,
    exec_qins (hforest.inserted hj) hready (eligible_inserted hij.symm hi), inserted_comm hforest hij hi hj⟩

/-! ### `QEXT` (R105) -/

theorem qextRule_ok {s : State} {a : NodeIdx} {q : List NodeIdx} (hq : s.core.queue = a :: q) :
    qextRule s = .ok () (s.withCore { s.core with queue := q, xn := a, status := s.core.status.setXnv true }) := by
  rw [qextRule, hq]

/-- Settles O25: the rule takes the first entry off a queue that has one. -/
theorem qextTakesTheMinimum : Obligations.QextTakesTheMinimum :=
  fun _ _ _ hready hq => exec_done hready (qextRule_ok hq)

end Sys2Proof.Machine
end

section
/-! SUPPORT. The frame of the queue's and the tree's commands (R103 to R105, R121, R122): what their rules leave of the CORE
however they end, carried to the end of the command. -/

namespace Sys2Proof.Machine

/-! ### Rules that make no stream request -/

/-- A rule that leaves the host side alone is never abandoned: an abandoned one used up a reply. -/
theorem ruleOf_ne_abandoned {i : Instr} {s : State} (hhost : (ruleOf i s).Ends fun u => u.host = s.host) (t : State) :
    ruleOf i s ≠ .abandoned t := by
  intro ht
  have huses := ruleOf_uses i s
  rw [ht] at huses hhost
  obtain ⟨used, hused, -⟩ := huses
  rw [show t.host = s.host from hhost] at hused
  have hlen := congrArg List.length hused
  simp only [List.length_append, List.length_cons] at hlen
  omega

/-- A property of the end states of a command that makes no stream request: enough that answering and taking a fault keep
it and that the pseudocode, where it runs, ends in it. -/
theorem exec_next_of_rule_streamless {P : State → Prop} {i : Instr} {s t : State} (h : exec i s = .next t) (hs : P s)
    (hans : ∀ u a, P u → P (u.answered a)) (hfault : ∀ u k info, P u → P (u.enterFault k info))
    (hhost : (ruleOf i s).Ends fun u => u.host = s.host) (hrule : (ruleOf i s).Ends P) : P t := by
  rcases exec_next_cases h with
    ⟨-, -, rfl⟩ | ⟨-, -, rfl⟩ | ⟨-, -, ⟨u, hu, rfl⟩ | ⟨k, info, u, hu, rfl⟩ | ⟨u, hu, rfl⟩⟩
  · exact hans _ _ hs
  · exact hans _ _ (hfault _ _ _ hs)
  · exact hans _ _ (hrule.of_ok hu)
  · rw [hu, Res.ends_raised] at hrule
    exact hans _ _ (hfault _ _ _ hrule)
  · exact absurd hu (ruleOf_ne_abandoned hhost u)

/-! ### The records of `TM` that a join leaves (R121, R122) -/

theorem nextNode_succ {n : NodeIdx} (h : n ≠ Config.noNode) : (n + 1#9).toNat = n.toNat + 1 := by
  have hlt := n.isLt
  have hne : n.toNat ≠ 511 := fun hc => h (BitVec.eq_of_toNat_eq hc)
  rw [BitVec.toNat_add, show (1#9).toNat = 1 from rfl, Nat.mod_eq_of_lt (by omega)]

/-- However a join ends, only node `NEXT` of `TM` may change, and `NEXT` does not go back. -/
theorem tjoinRule_nodes (s : State) : (tjoinRule s).Ends fun t =>
    s.core.nextNode.toNat ≤ t.core.nextNode.toNat ∧
    ∀ j, j ≠ s.core.nextNode → nodeAt t.core.tm j = nodeAt s.core.tm j := by
  unfold tjoinRule
  split
  · dsimp only
    split_ifs with hn
    · trivial
    · split
      · trivial
      · refine ⟨?_, fun j hj => ?_⟩
        · rw [State.withCore_core, nextNode_succ hn]; omega
        · rw [State.withCore_core, nodeAt_setNode, if_neg hj]
  · exact ⟨le_rfl, fun _ _ => rfl⟩
  · exact ⟨le_rfl, fun _ _ => rfl⟩

/-- However the loop of `TREDUCE` ends, the nodes below the first `NEXT` are as before. -/
theorem reduceLoop_nodes (n : Nat) (s : State) : (reduceLoop n s).Ends fun t =>
    s.core.nextNode.toNat ≤ t.core.nextNode.toNat ∧
    ∀ j : NodeIdx, j.toNat < s.core.nextNode.toNat → nodeAt t.core.tm j = nodeAt s.core.tm j := by
  induction n generalizing s with
  | zero => trivial
  | succ n ih =>
    unfold reduceLoop
    split_ifs
    · exact ⟨le_rfl, fun _ _ => rfl⟩
    · refine Res.ends_andThen ((tjoinRule_nodes s).imp fun u hu => ⟨hu.1, fun j hj => hu.2 j ?_⟩) fun _ u _ hu => ?_
      · rintro rfl; omega
      · exact (ih u).imp fun t ht =>
          ⟨hu.1.trans ht.1, fun j hj => (ht.2 j (hj.trans_le hu.1)).trans (hu.2 j hj)⟩

theorem treduceRule_nodes (s : State) : (treduceRule s).Ends fun t =>
    ∀ j : NodeIdx, j.toNat < s.core.nextNode.toNat → nodeAt t.core.tm j = nodeAt s.core.tm j := by
  unfold treduceRule
  split_ifs
  · exact fun _ _ => rfl
  · exact Res.ends_andThen ((reduceLoop_nodes _ s).imp fun _ hu => hu.2) fun _ _ _ hu => hu

/-- However `QBUILD` ends, only the slots of present bytes may change in `TM`. -/
theorem qbuildRule_nodes (s : State) : (qbuildRule s).Ends fun t =>
    ∀ j, (∀ b, present s.core.ft b = true → j ≠ leafIdx b) → nodeAt t.core.tm j = nodeAt s.core.tm j := by
  unfold qbuildRule
  split_ifs
  · exact fun _ _ => rfl
  · exact fun j => (nodeAt_putLeaves _ _ j).2

/-! ### The frame -/

/-- From `c` to `c'` only what the rules of the queue's and the tree's commands write may differ, and the fault registers;
each register and each record of `TM` only by the command `i` whose rule writes it. -/
structure QueueTreeFrame (i : Instr) (idx : NodeIdx) (c c' : CoreState) : Prop where
  core : c' = { c with
    tm := c'.tm, queue := c'.queue, root := c'.root, nextNode := c'.nextNode, xn := c'.xn
    err := c'.err, errinfo := c'.errinfo
    status := { c.status with fault := c'.status.fault, phase := c'.status.phase, xnv := c'.status.xnv } }
  root : i ≠ .treduce → c'.root = c.root
  next : i ≠ .treduce → i ≠ .tjoin → c'.nextNode = c.nextNode
  phase : i ≠ .treduce → i ≠ .qbuild → c'.status.phase = c.status.phase
  queueOnly : i = .qext ∨ i = .qins idx → c'.tm = c.tm
  qbuild : i = .qbuild → c'.xn = c.xn ∧ c'.status.xnv = c.status.xnv ∧
    ∀ j, (∀ b, present c.ft b = true → j ≠ leafIdx b) → nodeAt c'.tm j = nodeAt c.tm j
  tjoin : i = .tjoin → ∀ j, j ≠ c.nextNode → nodeAt c'.tm j = nodeAt c.tm j
  treduce : i = .treduce → ∀ j : NodeIdx, j.toNat < c.nextNode.toNat → nodeAt c'.tm j = nodeAt c.tm j

theorem QueueTreeFrame.refl (i : Instr) (idx : NodeIdx) (c : CoreState) : QueueTreeFrame i idx c c where
  core := rfl
  root _ := rfl
  next _ _ := rfl
  phase _ _ := rfl
  queueOnly _ := rfl
  qbuild _ := ⟨rfl, rfl, fun _ _ => rfl⟩
  tjoin _ _ _ := rfl
  treduce _ _ _ := rfl

/-- A fault taken writes the fault registers alone (R196). -/
theorem QueueTreeFrame.enterFault {i : Instr} {idx : NodeIdx} {c : CoreState} {u : State}
    (h : QueueTreeFrame i idx c u.core) (k : ErrorKind) (info : BitVec 32) :
    QueueTreeFrame i idx c (u.enterFault k info).core :=
  { h with core := by rw [State.enterFault, h.core] }

/-- However the rule of a queue's or tree's command ends, the host side is as before and the CORE keeps the frame. -/
theorem ruleOf_queueTreeFrame {i : Instr} {idx : NodeIdx} (s : State)
    (hi : i = .qbuild ∨ i = .qins idx ∨ i = .qext ∨ i = .tjoin ∨ i = .treduce) :
    (ruleOf i s).Ends fun u => u.host = s.host ∧ QueueTreeFrame i idx s.core u.core := by
  rcases hi with rfl | rfl | rfl | rfl | rfl
  · refine ((qbuildRule_frame s).and (qbuildRule_nodes s)).imp fun u ⟨⟨hh, hc⟩, hn⟩ => ⟨hh, ?_⟩
    rw [hc]
    exact { core := rfl, root := fun _ => rfl, next := fun _ _ => rfl, phase := fun _ h => absurd rfl h
            queueOnly := nofun, qbuild := fun _ => ⟨rfl, rfl, hn⟩, tjoin := nofun, treduce := nofun }
  · refine (qinsRule_frame idx s).imp fun u ⟨hh, hc⟩ => ⟨hh, ?_⟩
    rw [hc]
    exact { core := rfl, root := fun _ => rfl, next := fun _ _ => rfl, phase := fun _ _ => rfl
            queueOnly := fun _ => rfl, qbuild := nofun, tjoin := nofun, treduce := nofun }
  · refine (qextRule_frame s).imp fun u ⟨hh, hc⟩ => ⟨hh, ?_⟩
    rw [hc]
    exact { core := rfl, root := fun _ => rfl, next := fun _ _ => rfl, phase := fun _ _ => rfl
            queueOnly := fun _ => rfl, qbuild := nofun, tjoin := nofun, treduce := nofun }
  · refine ((tjoinRule_frame s).and (tjoinRule_nodes s)).imp fun u ⟨⟨hh, hc⟩, _, hn⟩ => ⟨hh, ?_⟩
    rw [hc]
    exact { core := rfl, root := fun _ => rfl, next := fun _ h => absurd rfl h, phase := fun _ _ => rfl
            queueOnly := nofun, qbuild := nofun, tjoin := fun _ => hn, treduce := nofun }
  · refine ((treduceRule_frame s).and (treduceRule_nodes s)).imp fun u ⟨⟨hh, hc⟩, hn⟩ => ⟨hh, ?_⟩
    rw [hc]
    exact { core := rfl, root := fun h => absurd rfl h, next := fun h => absurd rfl h, phase := fun h => absurd rfl h
            queueOnly := nofun, qbuild := nofun, tjoin := nofun, treduce := fun _ => hn }

/-- Settles O54: the frames of the five rules, none of which makes a stream request, carried to the end of the command. -/
theorem frameOfTheQueueAndTreeCommands : Obligations.FrameOfTheQueueAndTreeCommands := by
  intro i idx s t hi ht
  have hrule := ruleOf_queueTreeFrame s hi
  obtain ⟨hhost, hframe⟩ : t.host = { s.host with answers := t.host.answers } ∧ QueueTreeFrame i idx s.core t.core := by
    refine exec_next_of_rule_streamless (P := fun u => u.host = { s.host with answers := u.host.answers } ∧
      QueueTreeFrame i idx s.core u.core) ht ⟨rfl, .refl _ _ _⟩ ?_ ?_ (hrule.imp fun _ hu => hu.1) ?_
    · exact fun u a ⟨hh, hf⟩ => ⟨by rw [State.answered, hh], hf⟩
    · exact fun u k info ⟨hh, hf⟩ => ⟨hh, hf.enterFault k info⟩
    · exact hrule.imp fun u ⟨hh, hf⟩ => ⟨by rw [hh], hf⟩
  exact ⟨hframe.core, hhost, hframe.root, hframe.next, hframe.phase, hframe.queueOnly, hframe.qbuild, hframe.tjoin,
    hframe.treduce⟩

end Sys2Proof.Machine
end

section
/-! SUPPORT. The tree synthesizer (R121, R122): the ends of `TJOIN` and `TREDUCE`, and `TREDUCE` of the queue
that `QBUILD` makes. -/

namespace Sys2Proof.Machine

/-! ### `TJOIN` (R121) -/

theorem exec_tjoin {s : State} (h : QueueForest s.core) (hready : Ready .tjoin s) {a b : NodeIdx} {q : List NodeIdx}
    (hq : s.core.queue = a :: b :: q) : exec .tjoin s = .next ((s.withCore (s.core.joined a b q)).answered .done) :=
  exec_done hready (tjoinRule_ok h hq)

theorem nodeAt_joined (c : CoreState) (a b : NodeIdx) (q : List NodeIdx) (i : NodeIdx) :
    nodeAt (c.joined a b q).tm i = if i = c.nextNode then some (joinNode c.tm a b) else nodeAt c.tm i :=
  nodeAt_setNode _ _ _ _

/-- The entries a join leaves in the queue stay sorted: the new record changes no old node's place in the order. -/
theorem QueueForest.sorted_rest {c : CoreState} (h : QueueForest c) {a b : NodeIdx} {q : List NodeIdx}
    (hq : c.queue = a :: b :: q) : Sorted (c.joined a b q).tm q := by
  have hsub : q.Sublist c.queue := hq ▸ (List.sublist_cons_self b q).cons a
  exact (h.extends_set _).sorted h.toForest (fun i hi => h.valid (hsub.subset hi)) (h.sorted.sublist hsub)

/-- The weight of the new node is the exact sum of its children's (R185). -/
theorem QueueForest.joined_weight {c : CoreState} (h : QueueForest c) {a b : NodeIdx} {q : List NodeIdx}
    (hq : c.queue = a :: b :: q) :
    (weight c.tm a + weight c.tm b).toNat = (weight c.tm a).toNat + (weight c.tm b).toNat := by
  have hsub : [a, b].Sublist c.queue := hq ▸ List.sublist_append_left [a, b] q
  simpa using (h.sum_weights (h.sorted.nodup.sublist hsub) fun i hi => h.queued i (hsub.subset hi)).1

/-- Settles O28: a join of a forest's first two queued roots is a forest again, and in a forest the weights are exact. -/
theorem tjoinJoinsTheTwoMinima : Obligations.TjoinJoinsTheTwoMinima := by
  intro s a b q hs hready hq
  have hforest := queueForest_of_inv hs
  obtain ⟨hjoined, hnext, hleft, -⟩ := hforest.join hq
  exact ⟨_, exec_tjoin hforest hready hq, nodeAt_joined _ _ _ _, placeInQueue_eq (hforest.sorted_rest hq) _, hleft,
    hforest.joined_weight hq, fun _ _ _ _ => hjoined.weight_node, hnext, rfl, rfl⟩

/-! ### `TREDUCE` (R122) -/

/-- The leaves of the one tree that joins leave are those of the trees queued before. -/
theorem Joined.root_leaves {c c' : CoreState} {k : Nat} (h : Joined c c' k) {x : NodeIdx} (hx : c'.queue = [x])
    (b : Byte) : (∃ p, leadsToLeaf c'.tm x p b = true) ↔ ∃ i ∈ c.queue, ∃ p, leadsToLeaf c.tm i p b = true := by
  rw [← h.leaves b, hx]; simp

/-- The weight of the one tree that joins leave is the sum of the weights queued before. -/
theorem Joined.root_weight {c c' : CoreState} {k : Nat} (h : Joined c c' k) {x : NodeIdx} (hx : c'.queue = [x]) :
    weight c'.tm x = (c.queue.map (weight c.tm)).sum := by
  rw [← h.weights, hx, List.map_singleton, List.sum_singleton]

/-- The last join makes the root (R122). -/
theorem Joined.root_last {c c' : CoreState} {k : Nat} (h : Joined c c' k) {x : NodeIdx} (hx : c'.queue = [x])
    (hk : 0 < k) : x.toNat + 1 = c'.nextNode.toNat := by
  obtain ⟨n, hn, hlast⟩ := h.last hk
  rw [hx, List.mem_singleton] at hn
  rwa [hn] at hlast

/-- Where two entries are queued, `TREDUCE` is a `TJOIN` with `TREDUCE` after it (R122). -/
theorem treduceRule_of_join {s : State} (h : QueueForest s.core) {a b : NodeIdx} {q : List NodeIdx}
    (hq : s.core.queue = a :: b :: q) : treduceRule s = treduceRule (s.withCore (s.core.joined a b q)) := by
  have hlen : (s.core.joined a b q).queue.length = q.length + 1 := placeInQueue_length _ _ _
  rw [treduceRule, treduceRule, State.withCore_core, hlen, hq, if_neg (by simp), if_neg (by omega)]
  rw [List.length_cons, List.length_cons, reduceLoop, hq, if_neg (by simp), tjoinRule_ok h hq, Res.andThen_ok]

/-- `TJOIN` and then `TREDUCE` leave the CORE of `TREDUCE` alone (R122). -/
theorem exec_tjoin_treduce {s : State} {c : CoreState} (h : QueueForest s.core) (hready : Ready .treduce s)
    (hlen : 2 ≤ s.core.queue.length) (hc : treduceRule s = .ok () (s.withCore c)) :
    ∃ u v, exec .tjoin s = .next u ∧ exec .treduce u = .next v ∧ v.core = c := by
  match hq : s.core.queue with
  | [] => simp [hq] at hlen
  | [_] => simp [hq] at hlen
  | a :: b :: q =>
    have hrule := (treduceRule_of_join h hq).symm.trans hc
    exact ⟨_, _, exec_tjoin h hready hq, exec_done hready ((treduceRule_onHost _ _).trans (congrArg _ hrule)), rfl⟩

/-- Settles O29: the joins keep the leaves and the sum of the weights of the queued trees, one tree is left, and the
sum over free roots is exact. -/
theorem treduceBuildsOneTree : Obligations.TreduceBuildsOneTree := by
  intro s hs hready hq
  have hforest := queueForest_of_inv hs
  obtain ⟨c, x, hrule, hc, hx, -, hjoins⟩ := treduceRule_ok hforest hq
  have hweight := hjoins.root_weight hx
  refine ⟨_, exec_done hready hrule, hjoins.next, hjoins.keep, hc.queued x (by simp [hx]), fun hone => ?_,
    hjoins.root_leaves hx, hweight, ?_, fun hlen => exec_tjoin_treduce hforest hready hlen hrule, rfl, rfl⟩
  · obtain ⟨hqueue, htm⟩ := hjoins.same (by omega)
    exact ⟨by rw [← hqueue, hx]; rfl, htm⟩
  · exact (congrArg BitVec.toNat hweight).trans (hforest.sum_weights hforest.sorted.nodup hforest.queued).1

/-! ### `QBUILD` then `TREDUCE` (R122, "Result") -/

theorem built_queue_perm (c : CoreState) : c.built.queue.Perm ((presentBytes c.ft).map leafIdx) :=
  (sorted_leaves c.ft c.tm).1

theorem mem_built_queue {c : CoreState} {i : NodeIdx} :
    i ∈ c.built.queue ↔ ∃ b, present c.ft b = true ∧ i = leafIdx b := by
  rw [(built_queue_perm c).mem_iff, List.mem_map]
  exact exists_congr fun b => and_congr mem_presentBytes eq_comm

/-- The trees that `QBUILD` queues have a leaf for exactly the present bytes. -/
theorem built_leaves (c : CoreState) (b : Byte) :
    (∃ i ∈ c.built.queue, ∃ p, leadsToLeaf c.built.tm i p b = true) ↔ present c.ft b = true := by
  have hleaf {x : Byte} (hx : present c.ft x = true) : nodeAt c.built.tm (leafIdx x) = some (leafOf c.ft x) :=
    (nodeAt_putLeaves c.ft c.tm (leafIdx x)).1 x hx rfl
  constructor
  · rintro ⟨i, hi, p, hp⟩
    obtain ⟨x, hx, rfl⟩ := mem_built_queue.1 hi
    obtain ⟨-, rfl⟩ := (leadsToLeaf_leaf (hleaf hx) p b).1 hp
    exact hx
  · intro hb
    exact ⟨leafIdx b, mem_built_queue.2 ⟨b, hb, rfl⟩, [], (leadsToLeaf_leaf (hleaf hb) [] b).2 ⟨rfl, rfl⟩⟩

/-- Only the present bytes count in `total` (R29). -/
theorem total_eq_sum_presentBytes (ft : Memory Count) :
    total ft = ((presentBytes ft).map fun b => (countAt ft b).setWidth 72).sum := by
  have hsplit := List.sum_map_filter_add_sum_map_filter_not (fun b => present ft b = true)
    (fun b => (countAt ft b).setWidth 72) allBytes
  have habsent : ((allBytes.filter fun b => ¬ present ft b = true).map fun b => (countAt ft b).setWidth 72).sum = 0 := by
    refine List.sum_eq_zero fun w hw => ?_
    obtain ⟨b, hb, rfl⟩ := List.mem_map.1 hw
    have hzero : countAt ft b = 0#64 := by simpa [present] using (List.mem_filter.1 hb).2
    rw [hzero]; rfl
  rw [habsent, add_zero] at hsplit
  simpa [total, presentBytes] using hsplit.symm

/-- The weights that `QBUILD` queues add up to `total`. -/
theorem built_weights (c : CoreState) : (c.built.queue.map (weight c.built.tm)).sum = total c.ft := by
  rw [((built_queue_perm c).map _).sum_eq, List.map_map, total_eq_sum_presentBytes]
  exact congrArg List.sum
    (List.map_congr_left fun b hb => (leftmost_putLeaves c.ft c.tm (mem_presentBytes.1 hb)).2)

/-- Settles O30: `QBUILD` makes a forest of one leaf for each present byte, and the joins of `TREDUCE` keep the
leaves and the sum of the weights. -/
theorem qbuildThenTreduceBuildsTheWholeTree : Obligations.QbuildThenTreduceBuildsTheWholeTree := by
  intro s hs hready hn
  have hidle : s.core.status.phase = .idle := by simpa [precondition] using hready.2
  obtain ⟨hsound, -, -⟩ := (inv_iff s).1 hs
  obtain ⟨htm, hfirst⟩ := hsound.idle hidle
  have hlen := built_queue_length s.core
  obtain ⟨c, x, hrule, -, hx, -, hjoins⟩ := treduceRule_ok (s := (s.withCore s.core.built).answered .done)
    (built_forest htm hfirst) (List.ne_nil_of_length_pos (hlen ▸ Nat.pos_of_ne_zero hn))
  simp only [State.answered_core, State.withCore_core, hlen] at hjoins
  have hnext : c.nextNode.toNat = 255 + nsym s.core.ft := by
    have hstart : s.core.built.nextNode.toNat = 256 := congrArg BitVec.toNat hfirst
    rw [hjoins.next, hstart]; omega
  refine ⟨_, _, exec_done hready (qbuildRule_ok hn), exec_done ⟨hready.1, rfl⟩ hrule, hnext, fun hmany => ?_,
    fun hone => ?_, fun b => (hjoins.root_leaves hx b).trans (built_leaves _ b),
    (hjoins.root_weight hx).trans (built_weights _)⟩
  · have hlast := hjoins.root_last hx (by omega)
    change x.toNat = _
    omega
  · have hqueue := (hjoins.same (by omega)).1
    exact mem_built_queue.1 (hqueue ▸ hx ▸ List.mem_singleton_self x)

end Sys2Proof.Machine
end

section
/-! SUPPORT. The symbol table (R131 to R133): what `SDERIVE` records of a tree, the empty path of an only symbol, and why
no codeword begins another. -/

namespace Sys2Proof.Machine

/-! ### The table of a tree (R131) -/

/-- The longest path from a node of the forest has at most 255 decisions: index 511 is no node. -/
theorem depthBound_le_of_valid {tm : Memory Node} {i : NodeIdx} (h : validNode tm i = true) : depthBound i ≤ 255 := by
  have hlt := i.isLt
  have hne : i.toNat ≠ 511 := by
    intro hi
    obtain rfl : i = Config.noNode := BitVec.eq_of_toNat_eq hi
    simp [validNode] at h
  unfold depthBound
  omega

/-- No path to a leaf has more than 255 decisions (R6, R131). -/
theorem Forest.leadsToLeaf_length {ft tm next} (h : Forest ft tm next) {i : NodeIdx} (hi : validNode tm i = true)
    {p : Path} {b : Byte} (hp : leadsToLeaf tm i p b = true) : p.length ≤ 255 := by
  obtain ⟨j, -, hj, -⟩ := leadsToLeaf_iff.1 hp
  exact (h.follow_length i hi p j hj).trans (depthBound_le_of_valid hi)

theorem phase_of_sderive {s : State} (hready : Ready .sderive s) : s.core.status.phase = .tree := by
  simpa [precondition] using hready.2

/-- An accepted `SDERIVE` stands at the root of a tree (R24 item 6, R80). -/
theorem root_valid_of_sderive {s : State} (hs : Inv s) (hready : Ready .sderive s) :
    validNode s.core.tm s.core.root = true := by
  obtain ⟨hsound, -, -⟩ := (inv_iff s).1 hs
  exact hsound.root_valid (phase_of_sderive hready)

/-- The state after `SDERIVE` recorded the table `st` (R131). -/
def State.derived (s : State) (st : Memory Path) : State :=
  (s.withCore { s.core with st := st, status := s.core.status.setStv }).answered .done

/-- In a state that meets R24, `SDERIVE` completes and records the paths from the root to the leaves. -/
theorem exec_sderive {s : State} (hs : Inv s) (hready : Ready .sderive s) :
    ∃ st, exec .sderive s = .next (s.derived st) ∧
      ∀ b p, pathAt st b = some p ↔ leadsToLeaf s.core.tm s.core.root p b = true := by
  obtain ⟨st, hrule, -, hpaths⟩ :=
    sderiveRule_ok (queueForest_of_inv hs).toForest (root_valid_of_sderive hs hready)
  exact ⟨st, exec_done hready hrule, hpaths⟩

/-- Settles O31: the walk of `SDERIVE` completes on a tree of the forest, whose paths are at most 255 decisions long. -/
theorem sderiveRecordsTheRootToLeafPaths : Obligations.SderiveRecordsTheRootToLeafPaths := by
  intro s hs hready
  obtain ⟨st, hexec, hpaths⟩ := exec_sderive hs hready
  exact ⟨s.derived st, hexec, hpaths, fun b p hp => (queueForest_of_inv hs).leadsToLeaf_length
    (root_valid_of_sderive hs hready) ((hpaths b p).1 hp), rfl, rfl⟩

/-! ### Codewords (R133) -/

/-- No path leads on from a leaf: a path to a leaf that continues another path to a leaf is that path. -/
theorem eq_of_leadsToLeaf_append {tm : Memory Node} {i : NodeIdx} {p q : Path} {b b' : Byte}
    (hp : leadsToLeaf tm i p b = true) (hpq : leadsToLeaf tm i (p ++ q) b' = true) : q = [] ∧ b' = b := by
  obtain ⟨j, w, hj, hleaf⟩ := leadsToLeaf_iff.1 hp
  obtain ⟨k, v, hk, hleaf'⟩ := leadsToLeaf_iff.1 hpq
  rw [follow_append, hj] at hk
  exact (leadsToLeaf_leaf hleaf q b').1 (leadsToLeaf_iff.2 ⟨k, v, hk, hleaf'⟩)

/-- Settles O33: both codewords are paths from the root to leaves, and no path leads on from a leaf. -/
theorem codewordsArePrefixFree : Obligations.CodewordsArePrefixFree := by
  rintro s t b b' p _ hs hready ht hp hp' hne ⟨q, rfl⟩
  obtain ⟨st, hexec, hpaths⟩ := exec_sderive hs hready
  obtain rfl : s.derived st = t := by rw [hexec] at ht; injection ht
  obtain ⟨-, heq⟩ := eq_of_leadsToLeaf_append ((hpaths b p).1 hp) ((hpaths b' (p ++ q)).1 hp')
  exact hne heq.symm

/-! ### The only symbol (R132) -/

/-- Where the root is a leaf, the walk ends at once and records the empty path. -/
theorem sderiveRule_leaf {s : State} {b : Byte} {w : Weight} (hroot : s.core.root ≠ Config.noNode)
    (hleaf : nodeAt s.core.tm s.core.root = some (.leaf b w)) : sderiveRule s =
      .ok () (s.withCore { s.core with st := [(b.toNat, [])], status := s.core.status.setStv }) := by
  rw [sderiveRule, deriveWalk, if_neg hroot, hleaf]
  rfl

/-- `WSYM` of a symbol with the empty path writes nothing (R132). -/
theorem wsymRule_empty {s : State} {b : Byte} (h : pathAt s.core.st b = some []) : wsymRule b s = .ok () s := by
  rw [wsymRule, h]
  rfl

/-- Settles O32: the table has the empty path of the root's symbol alone, and `WSYM` of it is accepted and writes no bit. -/
theorem onlySymbolHasTheEmptyPath : Obligations.OnlySymbolHasTheEmptyPath := by
  intro s b w hready hroot hleaf
  have hwsym : Ready (.wsym b) (s.derived [(b.toNat, [])]) := ⟨hready.1, by
    simp [State.derived, precondition, Status.setStv, phase_of_sderive hready]⟩
  have hpath : pathAt (s.derived [(b.toNat, [])]).core.st b = some [] :=
    (pathAt_setPath [] b [] b).trans (if_pos rfl)
  exact ⟨_, exec_done hready (sderiveRule_leaf hroot hleaf), rfl, exec_done hwsym (wsymRule_empty hpath)⟩

end Sys2Proof.Machine
end

section
/-! SUPPORT. The frame of the commands that read the tree (R131, R151, R152): `SDERIVE`, `RINIT` and `RNEXT`. -/

namespace Sys2Proof.Machine

/-- From `s` to `t` only `ST`, `STV` and the fault registers of the CORE changed, and no stream. -/
structure OnlySymTable (s t : State) : Prop where
  core : t.core = { s.core with
    st := t.core.st, err := t.core.err, errinfo := t.core.errinfo
    status := { s.core.status with fault := t.core.status.fault, stv := t.core.status.stv } }
  host : t.host = { s.host with answers := t.host.answers }

theorem OnlySymTable.enterFault {s t : State} (h : OnlySymTable s t) (k : ErrorKind) (info : BitVec 32) :
    OnlySymTable s (t.enterFault k info) where
  core := by rw [State.enterFault, h.core]
  host := h.host

theorem OnlySymTable.answered {s t : State} (h : OnlySymTable s t) (a : Answer) : OnlySymTable s (t.answered a) where
  core := h.core
  host := by rw [State.answered, h.host]

theorem sderiveRule_onlySymTable (s : State) : (sderiveRule s).Ends (OnlySymTable s) :=
  (sderiveRule_frame s).imp fun t ⟨hhost, hcore⟩ => ⟨by rw [hcore], by rw [hhost]⟩

/-- From `s` to `t` only the reader's registers and flags, `OUTB` and the fault registers of the CORE changed, and of the
streams only the source position. -/
structure OnlyReader (s t : State) : Prop where
  core : t.core = { s.core with
    racc := t.core.racc, rcnt := t.core.rcnt, outb := t.core.outb, rrem := t.core.rrem
    err := t.core.err, errinfo := t.core.errinfo
    status := { s.core.status with
      fault := t.core.status.fault, rv := t.core.status.rv, eom := t.core.status.eom, outv := t.core.status.outv } }
  host : t.host = { s.host with pos := t.host.pos, replies := t.host.replies, answers := t.host.answers }

theorem OnlyReader.enterFault {s t : State} (h : OnlyReader s t) (k : ErrorKind) (info : BitVec 32) :
    OnlyReader s (t.enterFault k info) where
  core := by rw [State.enterFault, h.core]
  host := h.host

theorem OnlyReader.answered {s t : State} (h : OnlyReader s t) (a : Answer) : OnlyReader s (t.answered a) where
  core := h.core
  host := by rw [State.answered, h.host]

theorem ruleOf_onlyReader {i : Instr} (s : State) (hi : i = .rinit ∨ i = .rnext) : (ruleOf i s).Ends (OnlyReader s) := by
  rcases hi with rfl | rfl
  · exact (rinitRule_frame s).imp fun t ⟨hhost, hcore⟩ => ⟨by rw [hcore], by rw [hhost]⟩
  · exact (rnextRule_frame s).imp fun t ⟨hmoved, hcore⟩ => ⟨by rw [hcore], by rw [hmoved.host]⟩

/-- Settles O55: the frames of the three rules, carried to the end of the command; `SDERIVE` and `RINIT` make no stream
request. -/
theorem frameOfTheTreesReaders : Obligations.FrameOfTheTreesReaders := by
  refine ⟨fun s t ht => ?_, fun i s t hi ht hreset => ?_⟩
  · have honly : OnlySymTable s t := exec_next_of_rule_streamless ht ⟨rfl, rfl⟩ (fun _ a hu => hu.answered a)
      (fun _ k info hu => hu.enterFault k info) ((sderiveRule_frame s).imp fun _ hu => hu.1) (sderiveRule_onlySymTable s)
    exact ⟨honly.core, honly.host⟩
  · have honly : OnlyReader s t := exec_next_of_rule_unreset ht hreset ⟨rfl, rfl⟩ (fun _ a hu => hu.answered a)
      (fun _ k info hu => hu.enterFault k info) fun _ _ => ruleOf_onlyReader s hi
    refine ⟨honly.core, honly.host, ?_⟩
    rintro rfl
    exact exec_next_of_rule_unreset (P := fun u => u.host.pos = s.host.pos) ht hreset rfl (fun _ _ hu => hu)
      (fun _ _ _ hu => hu) fun _ _ => (rinitRule_frame s).imp fun _ hu => by rw [hu.1]

end Sys2Proof.Machine
end

section
/-! SUPPORT. The bitstream writer (R141 to R145): what `WBIT` and `WFLUSH` do where no byte is due, where the sink takes
the byte and where it fails, and the bits written on a host that serves. -/

namespace Sys2Proof.Machine

/-- An accepted command whose rule raises takes the fault (R196). -/
theorem exec_raises {i : Instr} {s u : State} {k : ErrorKind} {info : BitVec 32} (h : Ready i s)
    (hu : ruleOf i s = .raised k info u) : exec i s = .next (takeFault k info u) :=
  (exec_ready h.1 h.2).trans (congrArg conclude hu)

theorem pushBit_eq_ite (acc : Byte) (cnt : BitVec 3) (d : Decision) :
    pushBit acc cnt d = if d = .left then acc ||| (1#8 <<< cnt) else acc := by
  cases d <;> rfl

/-- The eighth decision goes to bit 7 (R53). -/
theorem pushBit_eighth (acc : Byte) (d : Decision) :
    pushBit acc 7#3 d = if d = .left then acc ||| 0x80#8 else acc :=
  pushBit_eq_ite acc 7#3 d

/-! ### Emitting a byte -/

/-- The two statements `WBIT` and `WFLUSH` end with where a byte is due: it goes to the sink, then the writer is emptied
(R141, R143). -/
def emitByte (v : Byte) (s : State) : Res Unit :=
  (snkWrite v s).andThen fun _ u => .ok () (u.withCore { u.core with wacc := 0#8, wcnt := 0#3 })

theorem emitByte_serves {s : State} (h : s.nextReply = .serves) (v : Byte) : emitByte v s =
    .ok () ((s.dropReply.withSnk (s.host.snk ++ [v])).withCore { s.core with wacc := 0#8, wcnt := 0#3 }) := by
  rw [emitByte, snkWrite_eq_ok.2 ⟨h, rfl⟩]; rfl

/-- Where the sink fails, the writer is not emptied (R207). -/
theorem emitByte_fails {s : State} {e : BitVec 32} {p : Nat} {reached : Bool} (h : s.nextReply = .fails e p reached)
    (v : Byte) : emitByte v s =
    .raised .io e (s.dropReply.withSnk (if reached then s.host.snk ++ [v] else s.host.snk)) := by
  rw [emitByte, snkWrite_eq_raised.2 ⟨rfl, p, reached, h, rfl⟩]; rfl

/-! ### `WBIT` (R141) -/

/-- Before the eighth bit, `WBIT` makes no stream request. -/
theorem wbitRule_pending {s : State} (h : s.core.wcnt ≠ 7#3) (d : Decision) : wbitRule d s =
    .ok () (s.withCore { s.core with
      wacc := pushBit s.core.wacc s.core.wcnt d, wcnt := s.core.wcnt + 1#3 }) := by
  rw [wbitRule, if_neg h]; rfl

/-- At the eighth bit, `WBIT` emits the completed byte, which is already in `WACC`. -/
theorem wbitRule_eighth {s : State} (h : s.core.wcnt = 7#3) (d : Decision) : wbitRule d s =
    emitByte (pushBit s.core.wacc 7#3 d) (s.withCore { s.core with wacc := pushBit s.core.wacc 7#3 d }) := by
  rw [wbitRule, if_pos h, h]; rfl

/-- Settles O34: below the eighth bit no request is made; at the eighth the reply of the sink decides, and a failing one
leaves the CORE as it offered the byte. -/
theorem wbitAppendsOneDecision : Obligations.WbitAppendsOneDecision := by
  refine ⟨fun d s hready h7 => ?_, fun d s hready h7 hserves => ?_, fun d s e p reached hready h7 hfails => ?_⟩
  · rw [← pushBit_eq_ite]
    exact exec_done hready (wbitRule_pending h7 d)
  · rw [← pushBit_eighth]
    refine exec_done hready ((wbitRule_eighth h7 d).trans (emitByte_serves ?_ _))
    exact hserves
  · rw [← pushBit_eighth]
    refine ⟨_, exec_raises hready ((wbitRule_eighth h7 d).trans
      (emitByte_fails (p := p) (reached := reached) ?_ _)), rfl, ?_⟩
    · exact hfails
    · cases reached
      · exact .inl rfl
      · exact .inr rfl

/-! ### `WFLUSH` (R143) -/

theorem wflushRule_empty {s : State} (h : s.core.wcnt = 0#3) : wflushRule s = .ok () s := if_pos h

theorem wflushRule_pending {s : State} (h : s.core.wcnt ≠ 0#3) : wflushRule s = emitByte s.core.wacc s := if_neg h

/-- Settles O37: with nothing pending no request is made; else the reply of the sink decides. -/
theorem wflushEmitsThePendingByte : Obligations.WflushEmitsThePendingByte := by
  refine ⟨fun s hready h0 => ?_, fun s hready h0 hserves => ?_, fun s e p b hready h0 hfails => ?_⟩
  · exact exec_done hready (wflushRule_empty h0)
  · exact exec_done hready ((wflushRule_pending h0).trans (emitByte_serves hserves _))
  · exact ⟨_, exec_raises hready ((wflushRule_pending h0).trans (emitByte_fails hfails _)), rfl⟩

/-! ### The written bits (R145, R54) -/

/-- Settles O35: on a host that serves, each rule completes and appends its bits, and answering moves none. -/
theorem writerAppendsItsBits : Obligations.WriterAppendsItsBits := by
  refine ⟨fun d s hready hserve hz => ?_, fun sym p s hready hserve hz hp => ?_, fun s hready hserve hz => ?_⟩
  · obtain ⟨u, hu, -, hbits⟩ := wbitRule_bits hserve hz d
    exact ⟨_, exec_done hready hu, hbits⟩
  · obtain ⟨u, hu, -, hbits⟩ := wsymRule_bits hserve hz hp
    obtain ⟨-, hcore⟩ := (wsymRule_frame sym s).of_ok hu
    have hstatus : u.core.status = s.core.status := by rw [hcore]
    exact ⟨_, exec_done hready hu, hstatus, hbits⟩
  · obtain ⟨u, hu, hacc, hcnt, hbits⟩ := wflushRule_bits hserve hz
    exact ⟨_, exec_done hready hu, hacc, hcnt, hbits⟩

end Sys2Proof.Machine
end

section
/-! SUPPORT. The frame of the commands that work on one stream (R141 to R143, R161, R182): the writer's commands, `HWRITE`
and `SREW`. -/

namespace Sys2Proof.Machine

/-- From `s` to `t` only the writer and the fault registers of the CORE changed, and of the streams only the sink. -/
structure OnlyWriter (s t : State) : Prop where
  core : t.core = { s.core with
    wacc := t.core.wacc, wcnt := t.core.wcnt, err := t.core.err, errinfo := t.core.errinfo
    status := { s.core.status with fault := t.core.status.fault } }
  host : t.host = { s.host with snk := t.host.snk, replies := t.host.replies, answers := t.host.answers }

theorem OnlyWriter.enterFault {s t : State} (h : OnlyWriter s t) (k : ErrorKind) (info : BitVec 32) :
    OnlyWriter s (t.enterFault k info) where
  core := by rw [State.enterFault, h.core]
  host := h.host

theorem OnlyWriter.answered {s t : State} (h : OnlyWriter s t) (a : Answer) : OnlyWriter s (t.answered a) where
  core := h.core
  host := by rw [State.answered, h.host]

theorem OnlyWriter.of_sinkMoved {s t : State} (hm : SinkMoved s t)
    (hc : t.core = { s.core with wacc := t.core.wacc, wcnt := t.core.wcnt }) : OnlyWriter s t where
  core := by rw [hc]
  host := by rw [hm.host]

theorem ruleOf_onlyWriter {i : Instr} {d : Decision} {sym : Byte} (s : State)
    (hi : i = .wbit d ∨ i = .wsym sym ∨ i = .wflush ∨ i = .hwrite) : (ruleOf i s).Ends (OnlyWriter s) := by
  rcases hi with rfl | rfl | rfl | rfl
  · exact (wbitRule_frame d s).imp fun t ⟨hmoved, hcore⟩ => .of_sinkMoved hmoved hcore
  · exact (wsymRule_frame sym s).imp fun t ⟨hmoved, hcore⟩ => .of_sinkMoved hmoved hcore
  · exact (wflushRule_frame s).imp fun t ⟨hmoved, hcore⟩ => .of_sinkMoved hmoved hcore
  · exact (hwriteRule_frame s).imp fun t ⟨hmoved, hcore⟩ => .of_sinkMoved hmoved (by rw [hcore])

/-- From `s` to `t` only the fault registers of the CORE changed, and of the streams only the source position. -/
structure OnlySourcePos (s t : State) : Prop where
  core : t.core = { s.core with
    err := t.core.err, errinfo := t.core.errinfo, status := { s.core.status with fault := t.core.status.fault } }
  host : t.host = { s.host with pos := t.host.pos, replies := t.host.replies, answers := t.host.answers }

theorem OnlySourcePos.enterFault {s t : State} (h : OnlySourcePos s t) (k : ErrorKind) (info : BitVec 32) :
    OnlySourcePos s (t.enterFault k info) where
  core := by rw [State.enterFault, h.core]
  host := h.host

theorem OnlySourcePos.answered {s t : State} (h : OnlySourcePos s t) (a : Answer) : OnlySourcePos s (t.answered a) where
  core := h.core
  host := by rw [State.answered, h.host]

theorem srewRule_onlySourcePos (s : State) : (srewRule s).Ends (OnlySourcePos s) :=
  (srcRewind_frame s).imp fun t ⟨hmoved, hcore⟩ => ⟨by rw [hcore], by rw [hmoved.host]⟩

/-- Settles O56: the frames of the rules, carried to the end of a command that no reset abandons. -/
theorem frameOfTheStreamCommands : Obligations.FrameOfTheStreamCommands := by
  refine ⟨fun i d sym s t hi ht hreset => ?_, fun s t ht hreset => ?_⟩
  · have honly : OnlyWriter s t := exec_next_of_rule_unreset ht hreset ⟨rfl, rfl⟩ (fun _ a hu => hu.answered a)
      (fun _ k info hu => hu.enterFault k info) fun _ _ => ruleOf_onlyWriter s hi
    refine ⟨honly.core, honly.host, ?_⟩
    rintro rfl
    exact exec_next_of_rule_unreset (P := fun u => u.core.wacc = s.core.wacc ∧ u.core.wcnt = s.core.wcnt) ht hreset
      ⟨rfl, rfl⟩ (fun _ _ hu => hu) (fun _ _ _ hu => hu) fun _ _ =>
        (hwriteRule_frame s).imp fun _ ⟨_, hcore⟩ => ⟨congrArg _ hcore, congrArg _ hcore⟩
  · have honly : OnlySourcePos s t := exec_next_of_rule_unreset ht hreset ⟨rfl, rfl⟩ (fun _ a hu => hu.answered a)
      (fun _ k info hu => hu.enterFault k info) fun _ _ => srewRule_onlySourcePos s
    exact ⟨honly.core, honly.host⟩

end Sys2Proof.Machine
end

section
/-! SUPPORT. The bitstream reader (R151 to R154): the end of `RINIT`, and those of `RNEXT` on a codeword, at the end
of the message and at a root that is a leaf. -/

namespace Sys2Proof.Machine

/-! ### `RINIT` (R29, R151) -/

theorem countSum_eq_sum_range (ft : Memory Count) :
    countSum ft = ((List.range 256).map fun k => (countAt ft (BitVec.ofNat 8 k)).toNat).sum := by
  rw [countSum, allBytes, List.map_map, Function.comp_def]

/-- `RINIT` makes no stream request: it only starts the reader. -/
theorem exec_rinit {s : State} (h : Ready .rinit s) : exec .rinit s = .next ((s.withCore { s.core with
    rrem := total s.core.ft, racc := 0#8, rcnt := 0#3, outb := 0#8
    status := s.core.status.readerFresh }).answered .done) :=
  exec_done h rfl

/-- Settles O38: the registers by the end of `RINIT`, the sum since 256 counts of 64 bits fit in 72. -/
theorem rinitStartsTheReader : Obligations.RinitStartsTheReader :=
  ⟨fun _ hready => exec_rinit hready, fun ft => (total_toNat ft).trans (countSum_eq_sum_range ft)⟩

/-! ### `RNEXT` on a codeword (R152) -/

/-- Settles O39: the rule takes the codeword and moves only the source, and answering touches no bit. -/
theorem rnextDecodesOneSymbol : Obligations.RnextDecodesOneSymbol := by
  intro s p b rest hready hserve hwf hrrem hleaf hbits
  obtain ⟨u, hu, hrest, hmoved, hcore⟩ := rnextRule_symbol hserve hwf hrrem hleaf hbits
  refine ⟨u.answered .done, exec_done hready hu, hrest, hcore, ?_⟩
  rw [State.answered, hmoved.host]

/-! ### The end of the message (R154) -/

theorem rnextRule_endOfMessage {s : State} (h : s.core.rrem = 0#72) : rnextRule s =
    .ok () (s.withCore { s.core with outb := 0#8, status := s.core.status.endOfMessage }) :=
  if_pos h

/-- After the end of the message `RNEXT` is not accepted (R80). -/
theorem precondition_rnext_of_eom {st : Status} (h : st.eom = true) : precondition .rnext st = false := by
  simp [precondition, h]

/-- Settles O40: no symbol is left, so the walk does not start; `EOM` fails the precondition of R80; `RINIT` clears it. -/
theorem endOfMessageThenSequenceError : Obligations.EndOfMessageThenSequenceError := by
  refine ⟨fun s hready hrrem => ?_, fun s hfault heom => ?_, fun s hready => ?_⟩
  · exact exec_done hready (rnextRule_endOfMessage hrrem)
  · exact exec_sequence hfault (precondition_rnext_of_eom heom)
  · exact ⟨_, exec_rinit hready, rfl⟩

/-! ### The reader of a single leaf (R153) -/

theorem walkBits_leaf {s : State} {i : NodeIdx} {b : Byte} {w : Weight} (n : Nat) (hi : i ≠ Config.noNode)
    (hleaf : nodeAt s.core.tm i = some (.leaf b w)) : walkBits (n + 1) i s = .ok b s := by
  rw [walkBits, if_neg hi, hleaf]

theorem rnextRule_leaf {s : State} {b : Byte} {w : Weight} (hrrem : s.core.rrem ≠ 0#72)
    (hroot : s.core.root ≠ Config.noNode) (hleaf : nodeAt s.core.tm s.core.root = some (.leaf b w)) : rnextRule s =
    .ok () (s.withCore { s.core with outb := b, rrem := s.core.rrem - 1#72, status := s.core.status.setOutv }) := by
  rw [rnextRule, if_neg hrrem, walkBits_leaf _ hroot hleaf, Res.andThen_ok]

/-- Settles O42: the walk ends at the root, before a bit is asked for. -/
theorem degenerateReaderTakesNoBits : Obligations.DegenerateReaderTakesNoBits :=
  fun _ _ _ hready hrrem hroot hleaf => exec_done hready (rnextRule_leaf hrrem hroot hleaf)

end Sys2Proof.Machine
end

section
/-! SUPPORT. `HREAD` of what `HWRITE` wrote (R162, R166). -/

namespace Sys2Proof.Machine

/-- Only a rule that ends with a value is answered `done` (R70). -/
theorem ruleOf_ok_of_done {i : Instr} {s t : State} (ht : exec i s = .next t)
    (hans : t.host.answers = s.host.answers ++ [.done]) : ∃ u, ruleOf i s = .ok () u ∧ t = u.answered .done := by
  have hrule := ruleOf_answers i s
  rcases exec_next_cases ht with
    ⟨-, -, rfl⟩ | ⟨-, -, rfl⟩ | ⟨-, -, ⟨u, hu, rfl⟩ | ⟨k, info, u, hu, rfl⟩ | ⟨u, hu, rfl⟩⟩
  · simp at hans
  · simp [takeFault] at hans
  · exact ⟨u, hu, rfl⟩
  · rw [hu, Res.ends_raised] at hrule
    simp [takeFault, hrule] at hans
  · rw [hu, Res.ends_abandoned] at hrule
    simp [hrule] at hans

/-- `HWRITE` that ends with a value wrote the header, whatever the host replied on the way. -/
theorem hwriteRule_ok_snk {s u : State} (h : hwriteRule s = .ok () u) :
    u.host.snk = s.host.snk ++ headerBytes s.core.ft := by
  unfold hwriteRule at h
  split_ifs at h
  exact snkWriteAll_ok_snk _ h

theorem headerEntriesOf_length (ft : Memory Count) : (headerEntriesOf ft).length = nsym ft := List.length_map _

theorem headerBytes_length (ft : Memory Count) : (headerBytes ft).length = 1 + 9 * nsym ft := by
  rw [headerBytes_eq, List.length_cons, entriesBytes_length, headerEntriesOf_length, Nat.add_comm]

theorem Ascending.nodup_bytes {prev : Option Byte} {es : List (Byte × Count)} (h : Ascending prev es) :
    (es.map Prod.fst).Nodup := by
  obtain ⟨hlt, -, -⟩ := h
  exact List.pairwise_map.2 (hlt.imp fun hab hc => by rw [hc] at hab; exact Nat.lt_irrefl _ hab)

theorem mem_headerEntriesOf {ft : Memory Count} {e : Byte × Count} :
    e ∈ headerEntriesOf ft ↔ present ft e.1 = true ∧ e.2 = countAt ft e.1 := by
  rw [headerEntriesOf, List.mem_map]
  constructor
  · rintro ⟨b, hb, rfl⟩
    exact ⟨mem_presentBytes.1 hb, rfl⟩
  · rintro ⟨hb, hc⟩
    exact ⟨e.1, mem_presentBytes.2 hb, Prod.ext rfl hc.symm⟩

/-- The entries of a table's header give its counts, canonical form or not. -/
theorem countAt_putCounts_headerEntriesOf (ft : Memory Count) (b : Byte) :
    countAt (putCounts [] (headerEntriesOf ft)) b = countAt ft b := by
  obtain ⟨hin, hout⟩ := countAt_putCounts (headerEntriesOf ft) [] (headerEntriesOf_ascending ft).nodup_bytes
  by_cases hb : present ft b = true
  · exact hin (b, countAt ft b) (mem_headerEntriesOf.2 ⟨hb, rfl⟩)
  · rw [hout b fun e he hc => hb (hc ▸ (mem_headerEntriesOf.1 he).1), countAt_nil]
    rw [present_iff, not_not] at hb
    exact hb.symm

/-- An accepted `HREAD` of good entries on a host that serves (R162). -/
theorem exec_hread_entries {u : State} (hready : Ready .hread u) (h : Serving u) {es : List (Byte × Count)}
    {post : List Byte} (hl : es.length < 256) (ha : Ascending none es)
    (hr : u.rest = BitVec.ofNat 8 es.length :: (entriesBytes es ++ post)) :
    exec .hread u = .next (((u.withFt (putCounts [] es)).took (1 + 9 * es.length)).answered .done) :=
  exec_done hready (hreadRule_entries h hl ha hr)

/-- Settles O44: `HWRITE` writes the entries of its table, and `HREAD` of good entries gives their counts. -/
theorem headerFidelity : Obligations.HeaderFidelity := by
  refine ⟨fun s t _ hn ht hans => ?_, fun u es post hready h hl hlt hne hr => ?_⟩
  · obtain ⟨w, hw, rfl⟩ := ruleOf_ok_of_done ht hans
    refine ⟨headerBytes s.core.ft, hwriteRule_ok_snk (u := w) hw, fun u post hready h hr => ?_⟩
    have hlen := headerEntriesOf_length s.core.ft
    refine ⟨_, exec_hread_entries hready h (es := headerEntriesOf s.core.ft) (post := post) (by omega)
      (headerEntriesOf_ascending _) ?_, fun b => ?_, ?_, rfl⟩
    · rw [State.rest, hr, headerBytes_eq, hlen]; rfl
    · exact countAt_putCounts_headerEntriesOf s.core.ft b
    · rw [headerBytes_length, ← hlen]; rfl
  · have ha : Ascending none es := ⟨hlt, hne, nofun⟩
    obtain ⟨hin, hout⟩ := countAt_putCounts es [] ha.nodup_bytes
    exact ⟨_, exec_hread_entries hready h hl ha hr, hin, hout, rfl, rfl⟩

end Sys2Proof.Machine
end

section
/-! SUPPORT. `ENCODE` and `DECODE` on hosts that serve (R163, R164): the container, its round trip (R167), and that it is a
function of the source (R168). -/

namespace Sys2Proof.Machine

/-! ### `ENCODE` as a function of the source (R168) -/

/-- Two ends of twin runs answer in states with the same CORE and source position, their sinks grown by the same bytes. -/
theorem Twins.conclude {k k' : List Byte} {r r' : Res Unit} (h : Twins k k' r r') {t : State}
    (ht : conclude r = .next t) : ∃ t' c, Machine.conclude r' = .next t' ∧ t'.core = t.core ∧
      t'.host.pos = t.host.pos ∧ t.host.snk = k ++ c ∧ t'.host.snk = k' ++ c := by
  cases r <;> cases r' <;> simp only [Twins] at h
  case ok.ok u _ u' =>
    obtain ⟨-, htwin⟩ := h
    obtain ⟨c, hk, hk'⟩ := htwin.snk
    cases ht
    exact ⟨u'.answered .done, c, rfl, htwin.core, htwin.pos, hk, hk'⟩
  case raised.raised kind info u kind' info' u' =>
    obtain ⟨rfl, rfl, htwin⟩ := h
    obtain ⟨c, hk, hk'⟩ := htwin.snk
    cases ht
    refine ⟨takeFault kind' info' u', c, rfl, ?_, htwin.pos, hk, hk'⟩
    rw [takeFault, takeFault, State.answered_core, State.answered_core, State.enterFault, State.enterFault, htwin.core]
  case stopped.stopped => cases ht

/-- Settles O50: the two runs of `ENCODE` are twins from their own `CLR` and rewind on. -/
theorem encodeIsAFunctionOfTheSource : Obligations.EncodeIsAFunctionOfTheSource := by
  intro s s' t ⟨hf, hp⟩ ⟨hf', hp'⟩ h h' hsrc ht
  rw [exec_ready hf hp] at ht
  rw [exec_ready hf' hp']
  exact (encodeRule_twins h h' hsrc.symm).conclude ht

/-! ### The container (R55, R163) -/

theorem plant_ft {ft : Memory Count} (hn : nsym ft ≠ 0) : (plant ft).ft = ft := by
  obtain ⟨-, -, -, -, hplant⟩ := plant_spec hn
  rw [hplant]; rfl

theorem plant_status {ft : Memory Count} (hn : nsym ft ≠ 0) : (plant ft).status = CoreState.reset.status.enterTree := by
  obtain ⟨-, -, -, -, hplant⟩ := plant_spec hn
  rw [hplant]; rfl

/-- Settles O47: `ENCODE` ends with the tree of the source's table and the paths to its leaves, one for each byte of the
source. -/
theorem encodeEmitsTheContainer : Obligations.EncodeEmitsTheContainer := by
  intro s hready h hne hd hc
  obtain ⟨u, ft, st, payload, pad, hft, hu, hcore, hst, hpos, hmoved, hsnk, hpad, hbits⟩ := encodeRule_ok h hne hd hc
  have hn := hft.nsym_ne hne
  obtain ⟨-, -, -, hleaves, hplant⟩ := plant_spec hn
  have hucore : u.core.ft = ft ∧ u.core.st = st ∧ u.core.tm = (plant ft).tm ∧ u.core.root = (plant ft).root := by
    rw [hcore]; exact ⟨plant_ft hn, rfl, rfl, rfl⟩
  obtain ⟨huft, hust, hutm, huroot⟩ := hucore
  have hstatus : u.core.status = CoreState.reset.status.enterTree.setStv := by
    rw [hcore]; exact congrArg Status.setStv (plant_status hn)
  refine ⟨u.answered .done, payload, pad, exec_done hready hu, ?_, ?_, ?_, hpos, hmoved.src, fun b => ?_,
    fun b hb => ?_, ?_, hpad, ?_, ?_⟩
  · rw [State.answered_core, hstatus]; rfl
  · rw [State.answered_core, hcore, hplant]; rfl
  · rw [State.answered_core, hcore, hplant]; rfl
  · rw [State.answered_core, huft]; exact hft.counts b
  · obtain ⟨p, hp⟩ := (hleaves b).2 ((hft.present_iff b).2 hb)
    rw [State.answered_core, hust, hutm, huroot]
    exact ⟨p, (hst b p).2 hp, hp⟩
  · rw [State.answered_core, huft]; exact hsnk
  · rw [State.answered_core, hust]; exact hbits
  · rw [State.answered_answers, hmoved.host]

/-- The machine out of reset, with a message as its source. -/
def sourceOf (m : List Byte) : State := { core := CoreState.reset, host := { HostSide.reset with src := m } }

theorem ready_sourceOf (m : List Byte) : Ready .encode (sourceOf m) := ⟨rfl, rfl⟩

theorem serving_sourceOf (m : List Byte) : Serving (sourceOf m) := fun _ hr => by cases hr

theorem containerOf_of_exec {m : List Byte} {t : State} (h : exec .encode (sourceOf m) = .next t) :
    containerOf m = t.host.snk := by
  unfold containerOf
  rw [← sourceOf, h]

/-- The container is the header of the message's table, then its codewords padded to whole bytes (R55). -/
theorem containerOf_spec {m : List Byte} (hne : m ≠ []) (hd : m.dedup.length ≤ 255) (hc : ∀ b, m.count b < 2 ^ 64) :
    ∃ ft st payload pad, TableOf ft m ∧ containerOf m = headerBytes ft ++ payload ∧
      (∀ b p, pathAt st b = some p ↔ leadsToLeaf (plant ft).tm (plant ft).root p b = true) ∧ pad < 8 ∧
      payload.flatMap byteBits = codeBits st m ++ List.replicate pad false := by
  obtain ⟨t, ft, st, payload, pad, hft, ht, -, hst, -, -, hsnk, hpad, hbits⟩ :=
    encodeRule_ok (s := sourceOf m) (serving_sourceOf m) hne hd hc
  refine ⟨ft, st, payload, pad, hft, ?_, hst, hpad, hbits⟩
  rw [containerOf_of_exec (exec_done (ready_sourceOf m) ht)]
  exact hsnk

/-- `ENCODE` anywhere appends the container of its source: that of the machine out of reset, by R168. -/
theorem encode_appends_container {s t : State} (hready : Ready .encode s) (h : Serving s)
    (ht : exec .encode s = .next t) : t.host.snk = s.host.snk ++ containerOf s.host.src := by
  obtain ⟨t', c, ht', -, -, hsnk, hsnk'⟩ := encodeIsAFunctionOfTheSource s (sourceOf s.host.src) t hready
    (ready_sourceOf _) h (serving_sourceOf _) rfl ht
  rw [hsnk, containerOf_of_exec ht', hsnk']; rfl

/-! ### The round trip (R167) -/

/-- `DECODE` of a container, whatever follows it: the paths of `ENCODE`'s symbol table lead through the same tree. -/
theorem decodeRule_containerOf {u : State} {m post : List Byte} (h : Serving u) (hne : m ≠ [])
    (hd : m.dedup.length ≤ 255) (hc : ∀ b, m.count b < 2 ^ 64) (hr : u.rest = containerOf m ++ post) :
    ∃ v, decodeRule u = .ok () v ∧ StreamsMoved u v ∧ v.host.snk = u.host.snk ++ m ∧
      v.host.pos = u.host.pos + (containerOf m).length ∧ v.core.rrem = 0#72 ∧
      v.core.status = CoreState.reset.status.enterTree.readerFresh.endOfMessage := by
  obtain ⟨ft, st, payload, pad, hft, hcont, hst, hpad, hbits⟩ := containerOf_spec hne hd hc
  have hn := hft.nsym_ne hne
  obtain ⟨-, -, -, hleaves, -⟩ := plant_spec hn
  have hpath : ∀ b ∈ m, leadsToLeaf (plant ft).tm (plant ft).root ((pathAt st b).getD []) b = true := by
    intro b hb
    obtain ⟨p, hp⟩ := (hleaves b).2 ((hft.present_iff b).2 hb)
    rw [(hst b p).2 hp]; exact hp
  rw [hcont] at hr ⊢
  obtain ⟨v, hv, hsnk, hpos, hmoved, hrrem, hstatus⟩ := decodeRule_ok h hft hne hd hpath hbits hpad hr
  exact ⟨v, hv, hmoved, hsnk, hpos, hrrem, by rw [hstatus, plant_status hn]⟩

theorem nsym_of_all_present {ft : Memory Count} (h : ∀ b, present ft b = true) : nsym ft = Config.nsymMax := by
  rw [nsym, presentBytes, List.filter_eq_self.2 fun b _ => h b, allBytes, List.length_map, List.length_range]

/-- `ENCODE` where all 256 byte values occur raises before the header (R161). -/
theorem encodeRule_overflow {s : State} (h : Serving s) (hall : ∀ b, b ∈ s.host.src)
    (hc : ∀ b, s.host.src.count b < 2 ^ 64) :
    ∃ u, encodeRule s = .raised .headerCountOverflow 256#32 u ∧ u.host.snk = s.host.snk := by
  have hne := List.ne_nil_of_mem (hall 0#8)
  obtain ⟨u, ft, st, hft, he, hcore, -, -, -, hsnk⟩ := encodeRule_front h hne hc
  have huft : u.core.ft = ft := by rw [hcore]; exact plant_ft (hft.nsym_ne hne)
  have hn : nsym u.core.ft = Config.nsymMax := by
    rw [huft]; exact nsym_of_all_present fun b => (hft.present_iff b).2 (hall b)
  refine ⟨u, ?_, hsnk⟩
  rw [he, writeAll, hwriteRule, if_pos hn, Res.andThen_raised]

/-- Settles O48: `ENCODE` appends the container, `DECODE` reads it back, and the header has no room for 256 entries. -/
theorem decodeOfEncodeIsTheMessage : Obligations.DecodeOfEncodeIsTheMessage := by
  refine ⟨fun s hready h hne hd hc => ?_, fun u m post hready h hne hd hc hr => ?_, fun s hready h hall hc => ?_⟩
  · obtain ⟨u, -, -, -, -, -, hu, -⟩ := encodeRule_ok h hne hd hc
    have ht := exec_done hready hu
    exact ⟨_, ht, congrArg (· ++ [Answer.done]) ((ruleOf_answers .encode s).of_ok hu),
      encode_appends_container hready h ht⟩
  · obtain ⟨v, hv, hmoved, hsnk, hpos, hrrem, hstatus⟩ := decodeRule_containerOf h hne hd hc hr
    refine ⟨v.answered .done, exec_done hready hv, ?_, hsnk, hpos, ?_, hrrem⟩
    · rw [State.answered_answers, hmoved.host]
    · rw [State.answered_core, hstatus]; rfl
  · obtain ⟨u, hu, hsnk⟩ := encodeRule_overflow h hall hc
    exact ⟨_, exec_raises hready hu, rfl, rfl, hsnk⟩

end Sys2Proof.Machine
end

section
/-! SUPPORT. The frame of `ENCODE` and `DECODE` (R163, R164, R181): what they leave as their own `CLR` does, however they
end. -/

namespace Sys2Proof.Machine

/-- A property of the end states of an accepted command: enough that answering, taking a fault and resetting keep it and
that the pseudocode ends in it. -/
theorem exec_next_of_accepted {P : State → Prop} {i : Instr} {s t : State} (h : exec i s = .next t) (hready : Ready i s)
    (hans : ∀ u a, P u → P (u.answered a)) (hfault : ∀ u k info, P u → P (u.enterFault k info))
    (hclear : ∀ u : State, P u.cleared) (hrule : (ruleOf i s).Ends P) : P t := by
  rw [exec_ready hready.1 hready.2] at h
  cases hr : ruleOf i s with
  | ok _ u => rw [hr] at h hrule; cases h; exact hans _ _ hrule
  | raised k info u => rw [hr] at h hrule; cases h; exact hans _ _ (hfault _ _ _ hrule)
  | abandoned u => rw [hr] at h; cases h; exact hclear u
  | stopped f => rw [hr] at h; cases h

/-! ### `XN` outside `QEXT` -/

/-- `XN` holds no node and `XNV` = 0, as `CLR` leaves them (R17). -/
abbrev NoneExtracted (s : State) : Prop := s.core.xn = Config.noNode ∧ s.core.status.xnv = false

theorem NoneExtracted.of_core {s t : State} (h : NoneExtracted s)
    (hc : t.core = { t.core with xn := s.core.xn, status := { t.core.status with xnv := s.core.status.xnv } }) :
    NoneExtracted t := by
  rw [NoneExtracted, hc]; exact h

theorem noneExtracted_cleared (s : State) : NoneExtracted s.cleared := ⟨rfl, rfl⟩

theorem tjoinRule_noneExtracted {s : State} (h : NoneExtracted s) : (tjoinRule s).Ends NoneExtracted := by
  unfold tjoinRule
  split
  · dsimp only
    split_ifs
    · trivial
    · split
      · trivial
      · exact ⟨rfl, rfl⟩
  · exact h
  · exact h

theorem reduceLoop_noneExtracted (n : Nat) : ∀ {s : State}, NoneExtracted s → (reduceLoop n s).Ends NoneExtracted := by
  induction n with
  | zero => intro s _; trivial
  | succ n ih =>
    intro s h
    unfold reduceLoop
    split_ifs
    · exact h
    · exact Res.ends_andThen (tjoinRule_noneExtracted h) fun _ _ _ hu => ih hu

/-- `TREDUCE` gives up `XN` (R122), and leaves it where it raises. -/
theorem treduceRule_noneExtracted {s : State} (h : NoneExtracted s) : (treduceRule s).Ends NoneExtracted := by
  unfold treduceRule
  split_ifs
  · exact h
  · exact Res.ends_andThen (reduceLoop_noneExtracted _ h) fun _ _ _ _ => ⟨rfl, rfl⟩

/-- `ENCODE` extracts no node: none of its statements is `QEXT`. -/
theorem encodeRule_noneExtracted (s : State) : (encodeRule s).Ends NoneExtracted := by
  unfold encodeRule
  refine Res.ends_andThen (r := clrRule s) (noneExtracted_cleared s) fun _ u _ hu => ?_
  refine Res.ends_andThen ((srcRewind_frame u).imp fun t ⟨_, hc⟩ => hu.of_core (by rw [hc])) fun _ u _ hu => ?_
  refine Res.ends_andThen ((fscanRule_frame u).imp fun t ⟨_, hc, _⟩ => hu.of_core (by rw [hc])) fun _ u _ hu => ?_
  refine Res.ends_andThen ((qbuildRule_frame u).imp fun t ⟨_, hc⟩ => hu.of_core (by rw [hc])) fun _ u _ hu => ?_
  refine Res.ends_andThen (treduceRule_noneExtracted hu) fun _ u _ hu => ?_
  refine Res.ends_andThen ((sderiveRule_frame u).imp fun t ⟨_, hc⟩ => hu.of_core (by rw [hc])) fun _ u _ hu => ?_
  refine Res.ends_andThen ((hwriteRule_frame u).imp fun t ⟨_, hc⟩ => hu.of_core (by rw [hc])) fun _ u _ hu => ?_
  refine Res.ends_andThen ((srcRewind_frame u).imp fun t ⟨_, hc⟩ => hu.of_core (by rw [hc])) fun _ u _ hu => ?_
  refine Res.ends_andThen ((encodeLoop_frame _ u).imp fun t ⟨_, hc⟩ => hu.of_core (by rw [hc])) fun _ u _ hu => ?_
  exact (wflushRule_frame u).imp fun t ⟨_, hc⟩ => hu.of_core (by rw [hc])

/-- `DECODE` extracts no node: none of its statements is `QEXT`. -/
theorem decodeRule_noneExtracted (s : State) : (decodeRule s).Ends NoneExtracted := by
  rw [decodeRule_eq]
  refine Res.ends_andThen (r := clrRule s) (noneExtracted_cleared s) fun _ u _ hu => ?_
  refine Res.ends_andThen ((hreadRule_frame u).imp fun t ⟨_, hc, _⟩ => hu.of_core (by rw [hc])) fun _ u _ hu => ?_
  refine Res.ends_andThen ((qbuildRule_frame u).imp fun t ⟨_, hc⟩ => hu.of_core (by rw [hc])) fun _ u _ hu => ?_
  refine Res.ends_andThen (treduceRule_noneExtracted hu) fun _ u _ hu => ?_
  exact (readAll_frame u).imp fun t ⟨_, hc⟩ => hu.of_core (by rw [hc])

/-! ### The reader after `ENCODE`, the writer after `DECODE` -/

/-- The reader and `OUTB` are as `CLR` leaves them (R28). -/
abbrev ReaderCleared (s : State) : Prop :=
  s.core.racc = 0#8 ∧ s.core.rcnt = 0#3 ∧ s.core.rrem = 0#72 ∧ s.core.outb = 0#8 ∧
    s.core.status.rv = false ∧ s.core.status.eom = false ∧ s.core.status.outv = false

theorem encodeRule_readerCleared (s : State) : (encodeRule s).Ends ReaderCleared :=
  (encodeRule_frame s).imp fun _ ⟨_, hc⟩ => by rw [ReaderCleared, hc]; exact ⟨rfl, rfl, rfl, rfl, rfl, rfl, rfl⟩

/-- The symbol table and the writer are as `CLR` leaves them (R28). -/
abbrev WriterCleared (s : State) : Prop :=
  s.core.st = [] ∧ s.core.status.stv = false ∧ s.core.wacc = 0#8 ∧ s.core.wcnt = 0#3

theorem decodeRule_writerCleared (s : State) : (decodeRule s).Ends WriterCleared :=
  (decodeRule_frame s).imp fun _ ⟨_, hc⟩ => by rw [WriterCleared, hc]; exact ⟨rfl, rfl, rfl, rfl⟩

/-- Settles O57: the ends of the two rules, carried to the end of the command, which writes the fault registers only or
resets the CORE. -/
theorem frameOfTheWholeStreamCommands : Obligations.FrameOfTheWholeStreamCommands := by
  refine ⟨fun s t ht hf => ?_, fun s t ht hf => ?_⟩
  · obtain ⟨⟨hracc, hrcnt, hrrem, houtb, hrv, heom, houtv⟩, hxn, hxnv⟩ : ReaderCleared t ∧ NoneExtracted t :=
      exec_next_of_accepted (P := fun u => ReaderCleared u ∧ NoneExtracted u) ht ⟨hf, rfl⟩
        (fun _ _ hu => hu) (fun _ _ _ hu => hu)
        (fun u => ⟨⟨rfl, rfl, rfl, rfl, rfl, rfl, rfl⟩, noneExtracted_cleared u⟩)
        ((encodeRule_readerCleared s).and (encodeRule_noneExtracted s))
    exact ⟨hracc, hrcnt, hrrem, houtb, hxn, hrv, heom, houtv, hxnv⟩
  · obtain ⟨⟨hst, hstv, hwacc, hwcnt⟩, hxn, hxnv⟩ : WriterCleared t ∧ NoneExtracted t :=
      exec_next_of_accepted (P := fun u => WriterCleared u ∧ NoneExtracted u) ht ⟨hf, rfl⟩
        (fun _ _ hu => hu) (fun _ _ _ hu => hu) (fun u => ⟨⟨rfl, rfl, rfl, rfl⟩, noneExtracted_cleared u⟩)
        ((decodeRule_writerCleared s).and (decodeRule_noneExtracted s))
    exact ⟨hst, hstv, hwacc, hwcnt, hxn, hxnv⟩

end Sys2Proof.Machine
end

section
/-! SUPPORT. The system commands (R181, R182): the end of `CLR`, and those of `SREW` where the source answers the rewind
and where it fails. -/

namespace Sys2Proof.Machine

/-- Settles O18: the end of `CLR`, accepted in every state, is the cleared state answered `done`. -/
theorem clrResetsTheCore : Obligations.ClrResetsTheCore := fun s => exec_clr s

/-- Settles O19: the reply to the rewind decides; on either reply the rule leaves the CORE as it was, and entering the
fault writes the fault registers only. -/
theorem srewRewindsTheSource : Obligations.SrewRewindsTheSource := by
  refine ⟨fun s hready hserves => ?_, fun s e p b hready hfails => ?_⟩
  · have hrewound : srewRule s = .ok () (s.dropReply.withPos 0) := srcRewind_eq_ok.2 ⟨hserves, rfl⟩
    exact exec_done hready hrewound
  · have hraised : srewRule s = .raised .io e (s.dropReply.withPos (min p s.host.src.length)) :=
      srcRewind_eq_raised.2 ⟨rfl, p, b, hfails, rfl⟩
    exact ⟨_, exec_raises hready hraised, rfl, rfl⟩

end Sys2Proof.Machine
end

section
/-! SUPPORT. Acceptance (R77, R202, R203, R209, R211, R220): a step without a command, and what becomes of a word that is
not performed: reserved, refused while a fault is pending, or presented where its precondition fails. -/

namespace Sys2Proof.Machine

/-! ### A step without a command -/

theorem step_idle {s : State} (h : s.host.script = []) : step s = .next s := by
  unfold step; rw [h]

theorem step_streams {s : State} {bytes sink : List Byte} {pos : Nat} {es : List HostEvent}
    (h : s.host.script = .streams bytes pos sink :: es) :
    step s = .next ((s.withScript es).withStreams bytes pos sink) := by
  unfold step; rw [h]

/-- Settles O4: the three branches of `step` that present no word; a position inside the new source is kept. -/
theorem stepWithoutACommand : Obligations.StepWithoutACommand := by
  refine ⟨fun _ hs => step_idle hs, fun _ _ hs => step_reset hs, fun s bytes pos sink es hs hpos => ?_⟩
  rw [step_streams hs, State.withStreams, min_eq_left hpos]
  rfl

/-! ### Reserved words and refusals -/

theorem presentWord_reserved {w : CmdWord} {why : ReservedWhy} (h : decode w = .reserved why) (s : State) :
    presentWord w s = performReserved w s := by
  unfold presentWord; rw [h]

/-- Settles O8: a word that matches no row decodes as reserved, and no fault is pending that would refuse it. -/
theorem reservedWordRaisesIllegalCommand : Obligations.ReservedWordRaisesIllegalCommand := by
  intro s w es hs hf hno
  obtain ⟨-, -, hreserved⟩ := everyWordMatchesOneRowOrIsReserved
  obtain ⟨why, hd⟩ := (hreserved w).2 hno
  have hperform : performReserved w (s.withScript es) =
      .next (takeFault .illegalCommand (w.setWidth 32) (s.withScript es)) := if_neg (by simp [hf])
  rw [step_command hs, presentWord_reserved hd, hperform]
  rfl

/-- While a fault is pending, every word but that of `CLR` is refused, reserved or not (R77 step 1, R209). -/
theorem presentWord_faulted {w : CmdWord} {s : State} (hf : s.core.status.fault = true) (hw : w ≠ encode .clr) :
    presentWord w s = .next (s.answered .refused) := by
  cases hd : decode w with
  | instr i =>
    have hi : i ≠ .clr := by rintro rfl; exact hw (eq_encode_of_decode hd)
    rw [presentWord_instr hd, exec_refused hf hi]
  | reserved why => exact (presentWord_reserved hd s).trans (if_pos hf)

/-- Settles O9: a refusal leaves the CORE, and so `FAULT`, as it was; of the other steps only a reset does not. -/
theorem faultIsStickyUntilCleared : Obligations.FaultIsStickyUntilCleared := by
  refine ⟨fun s w es hf hs hw => ?_, fun s t hf ht hclear => ?_, fun s es hs => ?_⟩
  · exact (step_command hs).trans (presentWord_faulted hf hw)
  · have hkept (h : t.core = s.core) : False := by rw [h, hf] at hclear; cases hclear
    rcases step_next_cases ht with
      ⟨-, rfl⟩ | ⟨w, es, hs, hw⟩ | ⟨w, es, -, hs, -, -⟩ | ⟨es, hs, -⟩ | ⟨_, _, _, _, -, rfl⟩
    · exact (hkept rfl).elim
    · obtain rfl | hclr := eq_or_ne w (encode .clr)
      · exact ⟨es, .inl hs⟩
      · rw [presentWord_faulted (s := s.withScript es) hf hclr] at hw
        cases hw
        exact (hkept rfl).elim
    · exact ⟨es, .inr (.inr ⟨w, hs⟩)⟩
    · exact ⟨es, .inr (.inl hs)⟩
    · exact (hkept rfl).elim
  · exact ⟨_, (step_command hs).trans ((presentWord_instr (decode_encode .clr) _).trans (exec_clr _)), rfl⟩

/-! ### Preconditions -/

/-- `QINS` of a node that is not eligible raises before it looks at the order (R104). -/
theorem qinsRule_ineligible {s : State} {idx : NodeIdx} (h : eligible s.core idx = false) :
    qinsRule idx s = .raised .sequence ((encode (.qins idx)).setWidth 32) s := if_pos h

/-- Settles O10: each line of the table of R80 is a precondition that fails, and each way a node is not eligible makes
the rule of `QINS` raise. -/
theorem sequenceErrorWhereThePreconditionFails : Obligations.SequenceErrorWhereThePreconditionFails := by
  refine ⟨fun i idx sym s hf h => exec_sequence hf ?_, fun idx s hready h => ?_⟩
  · rcases h with ⟨hi, hp⟩ | ⟨hi, hp⟩ | ⟨hi, hp⟩ | ⟨rfl, hp⟩ | ⟨rfl, hp⟩
    · rcases hi with rfl | rfl | rfl <;> simp [precondition, hp]
    · rcases hi with rfl | rfl | rfl | rfl <;> simp [precondition, hp]
    · rcases hi with rfl | rfl <;> simp [precondition, hp]
    · rcases hp with hp | hp <;> simp [precondition, hp]
    · rcases hp with hp | hp | hp <;> simp [precondition, hp]
  · have he : eligible s.core idx = false := by
      rcases h with h | h | h | h <;> simp [eligible, h]
    exact exec_raises hready (qinsRule_ineligible he)

/-- Settles O11: `conclude` enters the fault and answers; a refused command changes neither register. -/
theorem raiseWritesOnlyTheFaultRegisters : Obligations.RaiseWritesOnlyTheFaultRegisters := by
  refine ⟨fun _ _ _ => rfl, rfl, fun i s t hf hi ht => ?_⟩
  rw [exec_refused hf hi] at ht
  cases ht
  exact ⟨rfl, rfl⟩

end Sys2Proof.Machine
end

section
/-! SUPPORT. The faults that commands raise (R191, R195, R207, R208): their kinds, the code that `IoError` carries, and
the state a fault of a command's first statement leaves. -/

namespace Sys2Proof.Machine

/-! ### The codes of the kinds (R191) -/

/-- The kinds of R191, in the order of their codes. -/
def allKinds : List ErrorKind :=
  [.emptyInput, .emptyQueue, .truncatedHeader, .io, .malformedHeader, .truncatedPayload, .headerCountOverflow,
    .countOverflow, .symbolNotInTable, .sequence, .illegalCommand]

theorem mem_allKinds (k : ErrorKind) : k ∈ allKinds := by cases k <;> decide

/-- A code stands for one kind. -/
theorem errCode_injective : Function.Injective errCode := fun k k' h =>
  List.inj_on_of_nodup_map (l := allKinds) (by decide) (mem_allKinds k) (mem_allKinds k') h

/-- A command that leaves a fault where none was pending: its precondition failed, or its pseudocode raised. -/
theorem exec_fault_cases {i : Instr} {s t : State} (h : exec i s = .next t) (hf : s.core.status.fault = false)
    (ht : t.core.status.fault = true) :
    (precondition i s.core.status = false ∧ t = takeFault .sequence ((encode i).setWidth 32) s) ∨
    ∃ k info u, ruleOf i s = .raised k info u ∧ t = takeFault k info u := by
  rcases exec_next_cases h with
    ⟨hs, -, -⟩ | ⟨-, hp, rfl⟩ | ⟨-, -, ⟨u, hu, rfl⟩ | ⟨k, info, u, hu, rfl⟩ | ⟨u, -, rfl⟩⟩
  · rw [hf] at hs; cases hs
  · exact .inl ⟨hp, rfl⟩
  · rw [State.answered_core, ruleOf_ok_noFault (.inl hf) hu] at ht; cases ht
  · exact .inr ⟨k, info, u, hu, rfl⟩
  · cases ht

/-- Settles O12: each rule raises the kinds of its column of the matrix, acceptance adds `SequenceError` and the
refusal, and `CLR` ends in the reset state. -/
theorem commandsRaiseOnlyTheirKinds : Obligations.CommandsRaiseOnlyTheirKinds := by
  refine ⟨fun i s t ht hf hfault => ?_, fun i s hf hi => exec_refused hf hi, fun s t ht => ?_⟩
  · rcases exec_fault_cases ht hf hfault with ⟨hp, rfl⟩ | ⟨k, info, u, hu, rfl⟩
    · exact .inr ⟨hp, rfl⟩
    · exact .inl ⟨k, (ruleOf_raises i s k info u hu).1, rfl⟩
  · rw [exec_clr] at ht
    cases ht
    rfl

/-! ### `IoError` (R195, R48) -/

/-- Settles O13: what a rule used up of the replies, for each way it ends; acceptance uses up none. -/
theorem ioErrorCarriesTheHostsCode : Obligations.IoErrorCarriesTheHostsCode := by
  refine ⟨fun i s t ht hf hfault hio => ?_, fun i s t a ht hans ha => ?_⟩
  · rcases exec_fault_cases ht hf hfault with ⟨-, rfl⟩ | ⟨k, info, u, hu, rfl⟩
    · exact absurd (errCode_injective (a₁ := .sequence) (a₂ := .io) hio) (by decide)
    · obtain rfl : k = .io := errCode_injective hio
      have huses := ruleOf_uses i s
      rw [hu] at huses
      obtain ⟨p, b, used, hused, hserved⟩ := huses.1 rfl
      exact ⟨used, p, b, hused, hserved⟩
  · have huses := ruleOf_uses i s
    have hrule := ruleOf_answers i s
    rcases exec_next_cases ht with
      ⟨-, -, rfl⟩ | ⟨-, -, rfl⟩ | ⟨-, -, ⟨u, hu, rfl⟩ | ⟨k, info, u, hu, rfl⟩ | ⟨u, hu, rfl⟩⟩
    · exact Served.refl s
    · exact Served.refl s
    · rw [hu] at huses; exact huses
    · rw [hu] at huses hrule
      rw [Res.ends_raised] at hrule
      obtain rfl : .fault (errCode k) = a := by simpa [takeFault, hrule] using hans
      exact huses.2 fun hk => ha (by rw [hk]; rfl)
    · rw [hu, Res.ends_abandoned] at hrule
      simp [hrule] at hans

/-! ### Faults of the first statement (R207) -/

/-- The kinds that a command raises, if at all, before it changes anything. -/
def firstStatementKinds : List ErrorKind :=
  [.emptyInput, .emptyQueue, .headerCountOverflow, .symbolNotInTable, .sequence]

/-- Where a rule run from `s` raises one of these kinds, it raises it in `s` itself. -/
def RaisesAtOnce (s : State) : Res Unit → Prop
  | .raised k _ u => k ∈ firstStatementKinds → u = s
  | .ok _ _ => True
  | .abandoned _ => True
  | .stopped _ => True

theorem raisesAtOnce_raised (s : State) (k : ErrorKind) (info : BitVec 32) : RaisesAtOnce s (.raised k info s) :=
  fun _ => rfl

/-- A rule that raises none of these kinds. -/
theorem RaisesOnly.atOnce {K : List ErrorKind} {s : State} {r : Res Unit} (h : RaisesOnly K s r)
    (hK : ∀ k ∈ K, k ∉ firstStatementKinds) : RaisesAtOnce s r := by
  cases r with
  | raised k info u => exact fun hk => absurd hk (hK k (h k info u rfl).1)
  | ok a u => trivial
  | abandoned u => trivial
  | stopped f => trivial

theorem qbuildRule_raisesAtOnce (s : State) : RaisesAtOnce s (qbuildRule s) := by
  unfold qbuildRule
  split_ifs
  · exact raisesAtOnce_raised s _ _
  · trivial

theorem qinsRule_raisesAtOnce (idx : NodeIdx) (s : State) : RaisesAtOnce s (qinsRule idx s) := by
  by_cases he : eligible s.core idx = false
  · rw [qinsRule_ineligible he]; exact raisesAtOnce_raised s _ _
  · unfold qinsRule
    rw [if_neg he]
    split
    · trivial
    · split_ifs
      · trivial
      · trivial

theorem qextRule_raisesAtOnce (s : State) : RaisesAtOnce s (qextRule s) := by
  unfold qextRule
  split
  · exact raisesAtOnce_raised s _ _
  · trivial

theorem tjoinRule_raisesAtOnce (s : State) : RaisesAtOnce s (tjoinRule s) := by
  unfold tjoinRule
  split
  · dsimp only
    split_ifs
    · trivial
    · split
      · trivial
      · trivial
  · exact raisesAtOnce_raised s _ _
  · exact raisesAtOnce_raised s _ _

theorem treduceRule_raisesAtOnce (s : State) : RaisesAtOnce s (treduceRule s) := by
  by_cases h : s.core.queue = []
  · rw [treduceRule, if_pos (by rw [h]; rfl)]
    exact raisesAtOnce_raised s _ _
  · exact (treduceRule_raises_nonempty h).atOnce nofun

theorem wsymRule_raisesAtOnce (sym : Byte) (s : State) : RaisesAtOnce s (wsymRule sym s) := by
  unfold wsymRule
  split
  · exact raisesAtOnce_raised s _ _
  · exact (writePath_raises _ s).atOnce (by decide)

theorem hwriteRule_raisesAtOnce (s : State) : RaisesAtOnce s (hwriteRule s) := by
  unfold hwriteRule
  split_ifs
  · exact raisesAtOnce_raised s _ _
  · exact (snkWriteAll_raises _ s).atOnce (by decide)

/-- A single command raises these kinds in its first statement only (R207). -/
theorem ruleOf_raisesAtOnce {i : Instr} (s : State) (h1 : i ≠ .encode) (h2 : i ≠ .decode) :
    RaisesAtOnce s (ruleOf i s) := by
  cases i with
  | qbuild => exact qbuildRule_raisesAtOnce s
  | qins idx => exact qinsRule_raisesAtOnce idx s
  | qext => exact qextRule_raisesAtOnce s
  | tjoin => exact tjoinRule_raisesAtOnce s
  | treduce => exact treduceRule_raisesAtOnce s
  | wbit d => exact (wbitRule_raises d s).atOnce (by decide)
  | wsym sym => exact wsymRule_raisesAtOnce sym s
  | hwrite => exact hwriteRule_raisesAtOnce s
  | encode => exact absurd rfl h1
  | decode => exact absurd rfl h2
  | _ => exact (ruleOf_raises _ s).atOnce (by decide)

/-- Settles O14: the codes listed are those of `firstStatementKinds`, and a rule raises these in the state it started
from. -/
theorem firstStatementFaultsChangeNothingElse : Obligations.FirstStatementFaultsChangeNothingElse := by
  intro i s t h1 h2 ht hf hfault herr
  rcases exec_fault_cases ht hf hfault with ⟨-, rfl⟩ | ⟨k, info, u, hu, rfl⟩
  · exact ⟨rfl, rfl⟩
  · have hk : k ∈ firstStatementKinds := (List.mem_map_of_injective errCode_injective).1 herr
    have honce := ruleOf_raisesAtOnce s h1 h2
    rw [hu] at honce
    obtain rfl := honce hk
    exact ⟨rfl, rfl⟩

/-! ### `EmptyQueueError` (R193), `SymbolNotInTableError` (R204) -/

theorem qextRule_empty {s : State} (h : s.core.queue.length = 0) :
    qextRule s = .raised .emptyQueue ((qlen s.core).setWidth 32) s := by
  rw [qextRule, qlen, List.length_eq_zero_iff.1 h]; rfl

theorem treduceRule_empty {s : State} (h : s.core.queue.length = 0) :
    treduceRule s = .raised .emptyQueue ((qlen s.core).setWidth 32) s := by
  rw [treduceRule, qlen, if_pos h, h]; rfl

theorem tjoinRule_short {s : State} (h : s.core.queue.length < 2) :
    tjoinRule s = .raised .emptyQueue ((qlen s.core).setWidth 32) s := by
  rw [tjoinRule, qlen]
  match hq : s.core.queue with
  | [] => rfl
  | [_] => rfl
  | _ :: _ :: q => rw [hq, List.length_cons, List.length_cons] at h; omega

/-- `ENCODE` and `DECODE` start from their own `CLR`, and no statement of theirs writes `ERR` (R163, R164, R196). -/
theorem wholeStreamRule_err {i : Instr} (hi : i = .encode ∨ i = .decode) (s : State) :
    (ruleOf i s).Ends fun t => t.core.err = 0#4 := by
  rcases hi with rfl | rfl
  · exact (encodeRule_frame s).imp fun t ⟨_, hc⟩ => by rw [hc]; rfl
  · exact (decodeRule_frame s).imp fun t ⟨_, hc⟩ => by rw [hc]; rfl

/-- An accepted `ENCODE` or `DECODE` leaves `ERR` as its `CLR` left it, or raised a kind of its column of the matrix. -/
theorem exec_wholeStream_err {i : Instr} {s t : State} (hi : i = .encode ∨ i = .decode) (hready : Ready i s)
    (ht : exec i s = .next t) : t.core.err = 0#4 ∨ ∃ k ∈ raisable i, t.core.err = errCode k := by
  have hend := wholeStreamRule_err hi s
  rw [exec_ready hready.1 hready.2] at ht
  cases hr : ruleOf i s with
  | ok _ u => rw [hr] at ht hend; cases ht; exact .inl hend
  | raised k info u => rw [hr] at ht; cases ht; exact .inr ⟨k, (ruleOf_raises i s k info u hr).1, rfl⟩
  | abandoned u => rw [hr] at ht; cases ht; exact .inl rfl
  | stopped f => rw [hr] at ht; cases ht

/-- Settles O27: the three rules on a short queue; `QBUILD` leaves `ENCODE` and `DECODE` a queue that is not empty, so
the kind is not in their columns of the matrix. -/
theorem emptyQueueErrorOnAShortQueue : Obligations.EmptyQueueErrorOnAShortQueue := by
  refine ⟨fun i s hready h => ?_, fun i s t hi hf ht herr => ?_⟩
  · rcases h with ⟨rfl | rfl, hlen⟩ | ⟨rfl, hlen⟩
    · exact exec_raises hready (qextRule_empty hlen)
    · exact exec_raises hready (treduceRule_empty hlen)
    · exact exec_raises hready (tjoinRule_short hlen)
  · have hready : Ready i s := ⟨hf, by rcases hi with rfl | rfl <;> rfl⟩
    have hcolumn : ErrorKind.emptyQueue ∉ raisable i := by rcases hi with rfl | rfl <;> decide
    rcases exec_wholeStream_err hi hready ht with hzero | ⟨k, hk, hcode⟩
    · exact absurd (hzero.symm.trans herr) (by decide)
    · obtain rfl : k = .emptyQueue := errCode_injective (hcode.symm.trans herr)
      exact hcolumn hk

theorem wsymRule_noEntry {s : State} {sym : Byte} (h : pathAt s.core.st sym = none) :
    wsymRule sym s = .raised .symbolNotInTable (sym.setWidth 32) s := by
  rw [wsymRule, h]

/-- Settles O36: the entry is looked up before the first bit. -/
theorem wsymWithoutAnEntryRaises : Obligations.WsymWithoutAnEntryRaises :=
  fun _ _ hready h => exec_raises hready (wsymRule_noEntry h)

end Sys2Proof.Machine
end

section
/-! SUPPORT. The faults of the source (R192, R197 to R201) and the header `HWRITE` writes (R52, R161), on a host that
serves. -/

namespace Sys2Proof.Machine

/-! ### `CountOverflowError` (R92, R201) -/

theorem countByte_overflow {s : State} {b : Byte} (h : countAt s.core.ft b = BitVec.allOnes 64) :
    countByte b s = .raised .countOverflow (b.setWidth 32) s := if_pos h

/-- `FSCAN` that meets a byte whose count has reached its limit: the bytes before it are counted, and it is consumed. -/
theorem fscanRule_overflow {s : State} (h : Serving s) {seen rest : List Byte} {b : Byte}
    (hr : s.rest = seen ++ b :: rest) (hcounts : ∀ x, (countAt s.core.ft x).toNat + seen.count x < 2 ^ 64)
    (hb : (countAt s.core.ft b).toNat + seen.count b = 2 ^ 64 - 1) :
    ∃ ft, fscanRule s = .raised .countOverflow (b.setWidth 32) ((s.withFt ft).took (seen.length + 1)) ∧
      countAt ft b = BitVec.allOnes 64 ∧
      ∀ x, (countAt ft x).toNat = (countAt s.core.ft x).toNat + seen.count x := by
  obtain ⟨ft, hloop, hft, -⟩ := fscanLoop_took seen (rest.length + 2) (b :: rest) h hr hcounts
  have hfull : countAt ft b = BitVec.allOnes 64 := BitVec.eq_of_toNat_eq ((hft b).trans hb)
  have hturns : s.unread + 1 = seen.length + (rest.length + 2) := by
    rw [unread_eq, hr, List.length_append, List.length_cons]; omega
  have hnext : ((s.withFt ft).took seen.length).rest = b :: rest := by simp [hr]
  refine ⟨ft, ?_, hfull, hft⟩
  rw [fscanRule, hturns, hloop, fscanLoop, srcRead_cons ((h.withFt ft).took _) hnext, Res.andThen_ok, State.took_took]
  exact congrArg (Res.andThen · _) (countByte_overflow hfull)

/-- Settles O21: the loop counts the bytes before, and the turn that meets `b` raises after its read. -/
theorem fscanCountOverflowKeepsTheCount : Obligations.FscanCountOverflowKeepsTheCount := by
  intro s seen b rest hready h hr hcounts hb
  obtain ⟨ft, hraised, hfull, hft⟩ := fscanRule_overflow h hr hcounts hb
  exact ⟨_, exec_raises hready hraised, rfl, rfl, rfl, rfl, hfull, hft⟩

/-! ### `TruncatedPayloadError` (R198) -/

/-- Settles O41: the walk reaches the internal node with no bit left; at a leaf it needs none, and at the end of the
message it does not start. -/
theorem truncatedPayloadIsRaised : Obligations.TruncatedPayloadIsRaised := by
  refine ⟨fun s p j l r w hready h hwf hrrem hbits hj hn => ?_, fun s b w hready hroot hleaf => ?_⟩
  · obtain ⟨u, hu, hnone, hcore⟩ := rnextRule_truncated h hwf hrrem hj hn hbits
    refine ⟨_, exec_raises hready hu, rfl, rfl, hnone, ?_⟩
    rw [takeFault, State.answered_core, State.enterFault, hcore]
    rfl
  · by_cases hrrem : s.core.rrem = 0#72
    · exact ⟨_, exec_done hready (rnextRule_endOfMessage hrrem), rfl⟩
    · exact ⟨_, exec_done hready (rnextRule_leaf hrrem hroot hleaf), rfl⟩

/-! ### `HWRITE` (R161, R200) -/

theorem hwriteRule_full {s : State} (h : nsym s.core.ft = 256) :
    hwriteRule s = .raised .headerCountOverflow 256#32 s := if_pos h

theorem hwriteRule_moved {s : State} (h : Serving s) (hn : nsym s.core.ft ≠ 256) : hwriteRule s =
    .ok () (s.moved (headerBytes s.core.ft).length s.host.pos (s.host.snk ++ headerBytes s.core.ft)) :=
  (if_neg hn).trans (snkWriteAll_moved _ h)

/-- The entries of the present bytes, read off all 256 byte values in order (R52). -/
theorem flatMap_presentBytes {α : Type} (ft : Memory Count) (f : Byte → List α) :
    (presentBytes ft).flatMap f = allBytes.flatMap fun b => if countAt ft b = 0#64 then [] else f b := by
  rw [presentBytes]
  induction allBytes with
  | nil => rfl
  | cons b bs ih =>
    rw [List.flatMap_cons, ← ih, List.filter_cons]
    by_cases hb : countAt ft b = 0#64
    · simp [present, hb]
    · simp [present, hb]

/-- Settles O43: the overflow is tested before the first write; on a host that serves all the header's bytes are
appended. -/
theorem hwriteWritesTheHeader : Obligations.HwriteWritesTheHeader := by
  refine ⟨fun s hready hn => exec_raises hready (hwriteRule_full hn), fun s hready h hn => ?_⟩
  refine ⟨_, exec_done hready (hwriteRule_moved h hn), rfl, ?_, ?_, rfl⟩
  · exact congrArg (s.host.snk ++ _ :: ·) (flatMap_presentBytes s.core.ft _)
  · rw [State.answered_snk, State.moved_snk, List.length_append, headerBytes_length, Nat.add_assoc]

/-! ### `HREAD` of a header that is cut short or malformed (R162, R197, R199) -/

/-- `HREAD` up to the first entry that is not good: the good ones before it are stored. -/
theorem hreadRule_good {u : State} (h : Serving u) {n : Byte} {es : List (Byte × Count)} {post : List Byte} {k : Nat}
    (hn : n.toNat = es.length + k) (ha : Ascending none es) (hr : u.rest = n :: (entriesBytes es ++ post)) :
    hreadRule u = headerEntries k es.length (lastByte none es)
      ((u.withFt (putCounts [] es)).took (1 + 9 * es.length)) := by
  have hcleared : u.withCore { u.core with ft := [] } = u.withFt [] := rfl
  have hentries := headerEntries_took es k 0 none (s := (u.withFt []).took 1) post ((h.withFt []).took 1) ha
    (by simp [hr])
  rw [hreadRule, hcleared, headerGet_cons 0 (h.withFt []) hr, Res.andThen_ok, hn, hentries]
  simp

/-- The source after the good entries of a header. -/
theorem rest_after_good {u : State} {n : Byte} {es : List (Byte × Count)} {post : List Byte}
    (hr : u.rest = n :: (entriesBytes es ++ post)) :
    ((u.withFt (putCounts [] es)).took (1 + 9 * es.length)).rest = post := by
  rw [State.took_rest, State.withFt_rest, hr, Nat.add_comm, List.drop_succ_cons, ← entriesBytes_length, List.drop_left]

/-- A source that ends inside the next entry: the bytes read before its end are reported (R197). -/
theorem headerEntries_cut {s : State} (h : Serving s) {cut : List Byte} (hr : s.rest = cut) (hlen : cut.length < 9)
    (k i : Nat) (prev : Option Byte) : headerEntries (k + 1) i prev s =
      .raised .truncatedHeader (BitVec.ofNat 32 (1 + 9 * i + cut.length))
        (s.moved (cut.length + 1) (s.host.pos + cut.length) s.host.snk) := by
  cases cut with
  | nil =>
    rw [headerEntries, headerGet_nil _ h hr, Res.andThen_raised]
    rfl
  | cons v cut =>
    have hcut : (s.took 1).rest = cut := by rw [State.took_rest, hr]; rfl
    have hshort : cut.length < Config.cntBytes := Nat.lt_of_succ_lt_succ hlen
    have hread := headerCount_short cut Config.cntBytes (2 + 9 * i) 0#64 (h.took 1) hcut hshort
    have hbytes : 2 + 9 * i + cut.length = 1 + 9 * i + (v :: cut).length := by rw [List.length_cons]; omega
    rw [headerEntries, headerGet_cons _ h hr, Res.andThen_ok, hread, Res.andThen_raised, hbytes]
    simp [State.took, Nat.add_assoc, Nat.add_comm 1 cut.length]

/-- The next entry read whole: the order is tested first, then the count (R162, R199). -/
theorem headerEntries_entry {s : State} (h : Serving s) {v : Byte} {c : Count} {post : List Byte}
    (hr : s.rest = v :: (countBytes c ++ post)) (k i : Nat) (prev : Option Byte) :
    headerEntries (k + 1) i prev s =
      if notAscending prev v = true then .raised .malformedHeader (0x100#32 ||| BitVec.ofNat 32 i) (s.took 9)
      else if c = 0#64 then .raised .malformedHeader (0x200#32 ||| BitVec.ofNat 32 i) (s.took 9)
      else headerEntries k (i + 1) (some v) ((s.took 9).withFt (setCount s.core.ft v c)) := by
  have hcount := headerCount_took (countBytes c) (2 + 9 * i) 0#64 (s := s.took 1) post (h.took 1) (by simp [hr])
  rw [countBytes_length, pushBytes_countBytes, State.took_took] at hcount
  rw [headerEntries, headerGet_cons _ h hr, Res.andThen_ok, hcount]
  rfl

theorem lastByte_concat (prev : Option Byte) (es : List (Byte × Count)) (e : Byte × Count) :
    lastByte prev (es ++ [e]) = some e.1 := by
  rw [lastByte, List.getLast?_concat]

/-- In an ascending list the last byte is the greatest, so a byte not above it is one not above some byte listed. -/
theorem notAscending_lastByte {es : List (Byte × Count)} (h : es.Pairwise fun e e' => e.1.toNat < e'.1.toNat)
    (v : Byte) : notAscending (lastByte none es) v = true ↔ ∃ e ∈ es, v.toNat ≤ e.1.toNat := by
  rcases List.eq_nil_or_concat' es with rfl | ⟨init, last, rfl⟩
  · simp [lastByte, notAscending]
  · obtain ⟨-, -, hlast⟩ := List.pairwise_append.1 h
    rw [lastByte_concat, notAscending, BitVec.ule, decide_eq_true_iff]
    constructor
    · intro hv
      exact ⟨last, by simp, hv⟩
    · rintro ⟨e, he, hv⟩
      rcases List.mem_append.1 he with he | he
      · exact hv.trans (hlast e he last (by simp)).le
      · rwa [List.mem_singleton.1 he] at hv

/-- Settles O45: no header-length byte at all, or the good entries stored and then an entry cut short, the first byte of
which may already be missing. -/
theorem truncatedHeaderIsRaised : Obligations.TruncatedHeaderIsRaised := by
  refine ⟨fun u hready h hr => ?_, fun u n es cut hready h hr hn hcut hlt hne => ?_⟩
  · have hraised : hreadRule u =
        .raised .truncatedHeader (BitVec.ofNat 32 0) ((u.withFt []).moved 1 u.host.pos u.host.snk) :=
      congrArg (Res.andThen · _) (headerGet_nil 0 (s := u.withFt []) (h.withFt []) hr)
    exact ⟨_, exec_raises hready hraised, rfl, rfl, rfl, rfl, countAt_nil⟩
  · have ha : Ascending none es := ⟨hlt, hne, nofun⟩
    obtain ⟨hin, hout⟩ := countAt_putCounts es [] ha.nodup_bytes
    obtain ⟨k, hk⟩ : ∃ k, n.toNat = es.length + (k + 1) := ⟨n.toNat - es.length - 1, by omega⟩
    have hraised := headerEntries_cut ((h.withFt _).took _) (rest_after_good hr) hcut k es.length (lastByte none es)
    have hend : u.host.pos + (1 + 9 * es.length) + cut.length = u.host.src.length := by
      have hlen := congrArg List.length hr
      rw [List.length_drop, List.length_cons, List.length_append, entriesBytes_length] at hlen
      omega
    exact ⟨_, exec_raises hready ((hreadRule_good h hk ha hr).trans hraised), rfl, rfl, rfl, hend, hin, hout⟩

/-- Settles O46: after the good entries the next one is read whole, and its tests come in the order of the claim. -/
theorem malformedHeaderIsRaised : Obligations.MalformedHeaderIsRaised := by
  intro u n es v c post hready h hr hn hlt hne hbad
  have ha : Ascending none es := ⟨hlt, hne, nofun⟩
  obtain ⟨hin, hout⟩ := countAt_putCounts es [] ha.nodup_bytes
  obtain ⟨k, hk⟩ : ∃ k, n.toNat = es.length + (k + 1) := ⟨n.toNat - es.length - 1, by omega⟩
  have hr' : u.rest = n :: (entriesBytes es ++ v :: (countBytes c ++ post)) := by rw [State.rest, hr]; simp
  have hrule := (hreadRule_good h hk ha hr').trans
    (headerEntries_entry ((h.withFt _).took _) (rest_after_good hr') k es.length (lastByte none es))
  by_cases hv : ∃ e ∈ es, v.toNat ≤ e.1.toNat
  · rw [if_pos ((notAscending_lastByte hlt v).2 hv)] at hrule
    exact ⟨_, exec_raises hready hrule, rfl, by rw [if_pos hv]; rfl, hin, hout⟩
  · rw [if_neg (hv ∘ (notAscending_lastByte hlt v).1), if_pos (hbad.resolve_left hv)] at hrule
    exact ⟨_, exec_raises hready hrule, rfl, by rw [if_neg hv]; rfl, hin, hout⟩

/-! ### `EmptyInputError` (R192) -/

theorem qbuildRule_empty {s : State} (h : nsym s.core.ft = 0) : qbuildRule s = .raised .emptyInput 0#32 s := if_pos h

theorem qbuildRule_noTable {s : State} (h : s.core.ft = []) : qbuildRule s = .raised .emptyInput 0#32 s :=
  qbuildRule_empty (by rw [h, nsym_nil])

/-- `FSCAN` at the end of the source counts nothing. -/
theorem fscanRule_nil {s : State} (h : Serving s) (hr : s.rest = []) :
    fscanRule s = .ok () (s.moved 1 s.host.pos s.host.snk) := by
  rw [fscanRule, unread_eq, hr, List.length_nil, fscanLoop, srcRead_nil h hr, Res.andThen_ok]

/-- Out of `CLR`, `ENCODE` of an empty source has no entry to queue (R163). -/
theorem encodeRule_empty {s : State} (h : Serving s) (hsrc : s.host.src = []) :
    encodeRule s = .raised .emptyInput 0#32 (s.cleared.moved 2 0 s.host.snk) := by
  have hclr : clrRule s = .ok () s.cleared := rfl
  have hcleared : Serving s.cleared := h
  have hrewind : srcRewind s.cleared = .ok () (s.cleared.moved 1 0 s.host.snk) := srcRewind_moved hcleared
  have hrest : (s.cleared.moved 1 0 s.host.snk).rest = [] := by
    rw [State.rest, State.moved_src, State.cleared_src, hsrc]; rfl
  have hscan : fscanRule (s.cleared.moved 1 0 s.host.snk) = .ok () (s.cleared.moved 2 0 s.host.snk) := by
    rw [fscanRule_nil (hcleared.moved 1 0 s.host.snk) hrest, State.moved_moved]
    rfl
  have hbuild := qbuildRule_noTable (s := s.cleared.moved 2 0 s.host.snk) rfl
  rw [encodeRule, hclr, Res.andThen_ok, hrewind, Res.andThen_ok, hscan, Res.andThen_ok, hbuild, Res.andThen_raised]

/-- Out of `CLR`, `DECODE` of a header without entries has no entry to queue (R164). -/
theorem decodeRule_empty {s : State} (h : Serving s) {post : List Byte} (hr : s.rest = 0x00#8 :: post) :
    decodeRule s = .raised .emptyInput 0#32 (s.cleared.took 1) := by
  have hclr : clrRule s = .ok () s.cleared := rfl
  have hread : hreadRule s.cleared = .ok () (s.cleared.took 1) :=
    hreadRule_entries (u := s.cleared) (es := []) (post := post) h (by decide) ⟨.nil, nofun, nofun⟩ hr
  have hbuild := qbuildRule_noTable (s := s.cleared.took 1) rfl
  rw [decodeRule_eq, hclr, Res.andThen_ok, hread, Res.andThen_ok, hbuild, Res.andThen_raised]

/-- Settles O49: `QBUILD` raises on an empty table, which is the table that `ENCODE` and `DECODE` give it here. -/
theorem emptyInputErrorCases : Obligations.EmptyInputErrorCases := by
  refine ⟨fun s hready hn => ?_, fun s hready h hsrc => ?_, fun s post hready h hr => ?_⟩
  · exact exec_raises hready (qbuildRule_empty hn)
  · exact ⟨_, exec_raises hready (encodeRule_empty h hsrc), rfl, rfl, rfl⟩
  · exact ⟨_, exec_raises hready (decodeRule_empty h hr), rfl, rfl, rfl⟩

end Sys2Proof.Machine
end

section
/-! SUPPORT. Reset during a command (R220) and a host that answers (R231): where a rule is abandoned and what it moved before,
a reset after the last request, and that every command ends where the host answers its requests. -/

namespace Sys2Proof.Machine

/-! ### Commands end where the host answers (R231) -/

/-- A command gives no next state only where its pseudocode stops. -/
theorem exec_next_of_not_stopped {i : Instr} {s : State}
    (h : precondition i s.core.status = true → ∀ f, ruleOf i s ≠ .stopped f) : ∃ t, exec i s = .next t := by
  rw [exec_eq_perform, perform]
  split_ifs with _ hp
  · exact ⟨_, rfl⟩
  · cases hr : ruleOf i s with
    | ok _ u => exact ⟨_, rfl⟩
    | raised k info u => exact ⟨_, rfl⟩
    | abandoned u => exact ⟨_, rfl⟩
    | stopped f => exact absurd hr (h hp f)
  · exact ⟨_, rfl⟩

/-- Settles O17: in a state that meets R24 a rule stops only at a request that is never answered. -/
theorem commandsAnswerWhenTheHostDoes : Obligations.CommandsAnswerWhenTheHostDoes := by
  intro i s hinv hanswering
  obtain ⟨hsound, -, -⟩ := (inv_iff s).1 hinv
  obtain ⟨t, ht⟩ := exec_next_of_not_stopped fun hp f hf =>
    absurd rfl (hanswering _ (ruleOf_stops i hsound hp f hf).2)
  exact ⟨t, ht, fun hreset => ⟨_, everyCommandIsAnsweredOnce i s t ht hreset⟩⟩

/-! ### A command that ends without an answer (R220) -/

/-- Only reset ends a command without an answer. -/
theorem exec_unanswered {i : Instr} {s t : State} (ht : exec i s = .next t) (hans : t.host.answers = s.host.answers) :
    ∃ u, ruleOf i s = .abandoned u ∧ t = u.cleared := by
  have hrule := ruleOf_answers i s
  rcases exec_next_cases ht with
    ⟨-, -, rfl⟩ | ⟨-, -, rfl⟩ | ⟨-, -, ⟨u, hu, rfl⟩ | ⟨k, info, u, hu, rfl⟩ | ⟨u, hu, rfl⟩⟩
  · simp at hans
  · simp [takeFault] at hans
  · simp [hrule.of_ok hu] at hans
  · rw [hu, Res.ends_raised] at hrule
    simp [takeFault, hrule] at hans
  · exact ⟨u, hu, rfl⟩

/-! ### Where a rule is abandoned -/

/-- The rule is abandoned by reset and leaves the host's side as `h`. -/
def AbandonedWith {α : Type} (h : HostSide) (r : Res α) : Prop := ∃ u, r = .abandoned u ∧ u.host = h

theorem AbandonedWith.andThen {α β : Type} {h : HostSide} {r : Res α} (hr : AbandonedWith h r)
    (f : α → State → Res β) : AbandonedWith h (r.andThen f) := by
  obtain ⟨u, rfl, hu⟩ := hr
  exact ⟨u, rfl, hu⟩

/-- An accepted command whose rule is abandoned leaves the CORE reset and the host's side as the rule did. -/
theorem exec_abandoned {i : Instr} {s : State} {h : HostSide} (hready : Ready i s) (hr : AbandonedWith h (ruleOf i s)) :
    exec i s = .next { core := CoreState.reset, host := h } := by
  obtain ⟨u, hu, rfl⟩ := hr
  exact (exec_ready hready.1 hready.2).trans (congrArg conclude hu)

section NextRequest

variable {s : State} (h : s.nextReply = .resets)

include h

theorem srcRead_resets : AbandonedWith s.dropReply.host (srcRead s) := ⟨s.dropReply, by rw [srcRead, h], rfl⟩

theorem srcRewind_resets : AbandonedWith s.dropReply.host (srcRewind s) := ⟨s.dropReply, by rw [srcRewind, h], rfl⟩

theorem snkWrite_resets (v : Byte) : AbandonedWith s.dropReply.host (snkWrite v s) :=
  ⟨s.dropReply, by rw [snkWrite, h], rfl⟩

theorem fscanRule_resets : AbandonedWith s.dropReply.host (fscanRule s) := (srcRead_resets h).andThen _

theorem hreadRule_resets : AbandonedWith s.dropReply.host (hreadRule s) :=
  ((srcRead_resets (s := s.withCore { s.core with ft := [] }) h).andThen _).andThen _

theorem encodeRule_resets : AbandonedWith s.dropReply.host (encodeRule s) :=
  (srcRewind_resets (s := s.cleared) h).andThen _

theorem decodeRule_resets : AbandonedWith s.dropReply.host (decodeRule s) := by
  rw [decodeRule_eq]
  exact (hreadRule_resets (s := s.cleared) h).andThen _

theorem hwriteRule_resets (hn : nsym s.core.ft ≠ 256) : AbandonedWith s.dropReply.host (hwriteRule s) := by
  rw [hwriteRule, if_neg hn]
  exact (snkWrite_resets h _).andThen _

theorem emitByte_resets (v : Byte) : AbandonedWith s.dropReply.host (emitByte v s) := (snkWrite_resets h v).andThen _

theorem wflushRule_resets (h0 : s.core.wcnt ≠ 0#3) : AbandonedWith s.dropReply.host (wflushRule s) := by
  rw [wflushRule_pending h0]
  exact emitByte_resets h _

theorem wbitRule_resets (h7 : s.core.wcnt = 7#3) (d : Decision) : AbandonedWith s.dropReply.host (wbitRule d s) := by
  rw [wbitRule_eighth h7]
  generalize pushBit s.core.wacc 7#3 d = acc
  exact emitByte_resets (s := s.withCore { s.core with wacc := acc }) h acc

/-- A path that completes a byte meets the reset at its eighth pending bit. -/
theorem writePath_resets {p : Path} (hp : 8 ≤ s.core.wcnt.toNat + p.length) :
    AbandonedWith s.dropReply.host (writePath p s) := by
  induction p generalizing s with
  | nil =>
    have := s.core.wcnt.isLt
    simp only [List.length_nil] at hp
    omega
  | cons d p ih =>
    by_cases h7 : s.core.wcnt = 7#3
    · exact (wbitRule_resets h h7 d).andThen _
    · have hlt : s.core.wcnt.toNat + 1 < 8 := by
        have := s.core.wcnt.isLt
        have : s.core.wcnt.toNat ≠ 7 := fun hc => h7 (BitVec.eq_of_toNat_eq hc)
        omega
      rw [writePath, wbitRule_pending h7, Res.andThen_ok]
      refine ih (s := s.withCore _) h ?_
      rw [List.length_cons] at hp
      rw [State.withCore_core, BitVec.toNat_add, BitVec.toNat_ofNat, Nat.mod_eq_of_lt hlt]
      omega

theorem wsymRule_resets {sym : Byte} {p : Path} (hsym : pathAt s.core.st sym = some p)
    (hp : 8 ≤ s.core.wcnt.toNat + p.length) : AbandonedWith s.dropReply.host (wsymRule sym s) := by
  rw [wsymRule, hsym]
  exact writePath_resets h hp

theorem readBit_resets (h0 : s.core.rcnt = 0#3) : AbandonedWith s.dropReply.host (readBit s) := by
  rw [readBit, if_pos h0]
  exact (srcRead_resets h).andThen _

/-- With no bit held, the walk from an internal root asks the source first. -/
theorem rnextRule_resets {w : Weight} {l r : NodeIdx} (hrrem : s.core.rrem ≠ 0#72) (h0 : s.core.rcnt = 0#3)
    (hroot : s.core.root ≠ 511#9) (hn : nodeAt s.core.tm s.core.root = some (.internal w l r)) :
    AbandonedWith s.dropReply.host (rnextRule s) := by
  rw [rnextRule, if_neg hrrem, walkBits, if_neg hroot, hn]
  exact ((readBit_resets h h0).andThen _).andThen _

end NextRequest

/-! ### The bytes moved before the reset -/

/-- The host serves the next `k` requests and asserts reset at the one after them. -/
def ResetsAfter (k : Nat) (rest : List HostReply) (s : State) : Prop :=
  s.host.replies = List.replicate k HostReply.serves ++ .resets :: rest

theorem ResetsAfter.nextReply_zero {rest : List HostReply} {s : State} (h : ResetsAfter 0 rest s) :
    s.nextReply = .resets := by rw [State.nextReply, h]; rfl

theorem ResetsAfter.tail_zero {rest : List HostReply} {s : State} (h : ResetsAfter 0 rest s) :
    s.host.replies.tail = rest := by rw [h]; rfl

theorem ResetsAfter.nextReply_succ {k : Nat} {rest : List HostReply} {s : State} (h : ResetsAfter (k + 1) rest s) :
    s.nextReply = .serves := by rw [State.nextReply, h]; rfl

theorem ResetsAfter.dropReply {k : Nat} {rest : List HostReply} {s : State} (h : ResetsAfter (k + 1) rest s) :
    ResetsAfter k rest s.dropReply := by rw [ResetsAfter, State.dropReply_replies, h]; rfl

/-- The bytes written before the reset stay in the sink. -/
theorem snkWriteAll_resetsAfter {rest : List HostReply} (k : Nat) : ∀ {s : State} {vs : List Byte},
    ResetsAfter k rest s → k < vs.length →
    AbandonedWith { s.host with snk := s.host.snk ++ vs.take k, replies := rest } (snkWriteAll vs s) := by
  induction k with
  | zero =>
    intro s vs h hk
    obtain ⟨v, vs, rfl⟩ := List.exists_cons_of_length_pos hk
    rw [List.take_zero, List.append_nil, ← h.tail_zero]
    exact (snkWrite_resets h.nextReply_zero v).andThen _
  | succ k ih =>
    intro s vs h hk
    obtain ⟨v, vs, rfl⟩ := List.exists_cons_of_length_pos (Nat.zero_lt_of_lt hk)
    have hrest := ih (s := s.dropReply.withSnk (s.host.snk ++ [v])) h.dropReply (Nat.lt_of_succ_lt_succ hk)
    rw [State.withSnk_snk, List.append_assoc] at hrest
    rw [snkWriteAll, snkWrite_eq_ok.2 ⟨h.nextReply_succ, rfl⟩]
    exact hrest

theorem hwriteRule_resetsAfter {s : State} {k : Nat} {rest : List HostReply} (h : ResetsAfter k rest s)
    (hn : nsym s.core.ft ≠ 256) (hk : k < (headerBytes s.core.ft).length) :
    AbandonedWith { s.host with snk := s.host.snk ++ (headerBytes s.core.ft).take k, replies := rest }
      (hwriteRule s) := by
  rw [hwriteRule, if_neg hn]
  exact snkWriteAll_resetsAfter k h hk

/-- The bytes read before the reset stay read, where each of them could be counted. -/
theorem fscanLoop_resetsAfter {rest : List HostReply} {post : List Byte} (bs : List Byte) : ∀ {n : Nat} {s : State},
    ResetsAfter bs.length rest s → s.rest = bs ++ post → bs.length < n →
    (∀ b, (countAt s.core.ft b).toNat + bs.count b < 2 ^ 64) →
    AbandonedWith { s.host with pos := s.host.pos + bs.length, replies := rest } (fscanLoop n s) := by
  induction bs with
  | nil =>
    intro n s h _ hn _
    obtain ⟨n, rfl⟩ := Nat.exists_eq_add_one.2 hn
    rw [← h.tail_zero]
    exact (srcRead_resets h.nextReply_zero).andThen _
  | cons b bs ih =>
    intro n s h hr hn hc
    obtain ⟨n, rfl⟩ := Nat.exists_eq_add_one.2 (Nat.zero_lt_of_lt hn)
    have hread : srcRead s = .ok (some b) (s.dropReply.withPos (s.host.pos + 1)) :=
      srcRead_eq_ok.2 ⟨h.nextReply_succ, (rest_cons hr).symm, rfl⟩
    have hrest : s.host.src.drop (s.host.pos + 1) = bs ++ post := by rw [← List.tail_drop]; exact congrArg List.tail hr
    have hbelow : (countAt s.core.ft b).toNat + 1 < 2 ^ 64 := by
      have := hc b
      rw [List.count_cons_self] at this
      omega
    obtain ⟨ft, hcount, -, hft⟩ := countByte_ok (s := s.dropReply.withPos (s.host.pos + 1)) hbelow
    have hcounts (x : Byte) : (countAt ft x).toNat + bs.count x < 2 ^ 64 := by
      have := hc x
      simp only [List.count_cons, beq_iff_eq, eq_comm (a := b)] at this
      rw [hft, State.withPos_core, State.dropReply_core]
      omega
    have hloop := ih (s := (s.dropReply.withPos (s.host.pos + 1)).withFt ft) h.dropReply hrest
      (Nat.lt_of_succ_lt_succ hn) hcounts
    rw [State.withFt_host, State.withPos_pos, Nat.add_right_comm] at hloop
    rw [fscanLoop, hread, Res.andThen_ok]
    simp only [hcount, Res.andThen_ok]
    exact hloop

theorem fscanRule_resetsAfter {s : State} {k : Nat} {rest : List HostReply} (h : ResetsAfter k rest s)
    (hpos : s.host.pos + k ≤ s.host.src.length)
    (hc : ∀ b, (countAt s.core.ft b).toNat + ((s.host.src.drop s.host.pos).take k).count b < 2 ^ 64) :
    AbandonedWith { s.host with pos := s.host.pos + k, replies := rest } (fscanRule s) := by
  have hunread : k ≤ s.unread := Nat.le_sub_of_add_le' hpos
  have hlen : (s.rest.take k).length = k := by rw [List.length_take, ← unread_eq, min_eq_left hunread]
  have hloop := fscanLoop_resetsAfter (s.rest.take k) (n := s.unread + 1) (by rwa [hlen])
    (List.take_append_drop k s.rest).symm (by rw [hlen]; exact Nat.lt_succ_of_le hunread) hc
  rwa [hlen] at hloop

/-! ### Reset after the last request -/

theorem step_commandReset {s : State} {w : CmdWord} {es : List HostEvent} (h : s.host.script = .commandReset w :: es) :
    step s = cutShort s.host.answers (presentWord w (s.withScript es)) := by
  unfold step; rw [h]

/-- A reset before the answer takes back nothing of what the same command without it moved. -/
theorem step_commandReset_of_command {s t : State} {w : CmdWord} {es : List HostEvent}
    (hs : s.host.script = .commandReset w :: es) (ht : step (s.withScript (.command w :: es)) = .next t) :
    step s = .next { core := CoreState.reset, host := { t.host with answers := s.host.answers } } := by
  have hpresent : presentWord w (s.withScript es) = .next t :=
    (step_command (s := s.withScript (.command w :: es)) rfl).symm.trans ht
  rw [step_commandReset hs, hpresent]
  rfl

/-- `WFLUSH` with bits pending, on a sink that takes the byte, presented and then abandoned before its answer. -/
theorem step_commandReset_wflush {s : State} {es : List HostEvent}
    (hs : s.host.script = .commandReset (encode .wflush) :: es) (hready : Ready .wflush s) (h0 : s.core.wcnt ≠ 0#3)
    (hserves : s.nextReply = .serves) :
    step s = .next
      { core := CoreState.reset
        host := { s.host with
          snk := s.host.snk ++ [s.core.wacc], replies := s.host.replies.tail, script := es } } := by
  have hrule := (wflushRule_pending (s := s.withScript es) h0).trans (emitByte_serves (s := s.withScript es) hserves _)
  have hexec : exec .wflush (s.withScript es) = _ := exec_done hready hrule
  exact step_commandReset_of_command hs ((presentWord_instr (decode_encode .wflush) _).trans hexec)

/-- Settles O16: only reset ends a command without an answer, and a rule is abandoned at the first request that a reset
meets, with what the requests before it moved. -/
theorem abandonedCommandLeavesTheCoreReset : Obligations.AbandonedCommandLeavesTheCoreReset := by
  refine ⟨fun i s t ht hans => ?_, fun i s hready hreset hi => exec_abandoned hready ?_,
    fun s k rest hready hn hk hreplies => exec_abandoned hready ?_,
    fun s k rest hready hpos hcounts hreplies => exec_abandoned hready ?_,
    fun s t w es hs ht => step_commandReset_of_command hs ht,
    fun s es hs hready h0 hserves => step_commandReset_wflush hs hready h0 hserves⟩
  · obtain ⟨u, hu, rfl⟩ := exec_unanswered ht hans
    have huses := ruleOf_uses i s
    rw [hu] at huses
    exact ⟨rfl, huses⟩
  · rcases hi with rfl | rfl | rfl | rfl | rfl | ⟨rfl, hn⟩ | ⟨rfl, h0⟩ | ⟨⟨d, rfl⟩, h7⟩ | ⟨sym, p, rfl, hsym, hp⟩ |
      ⟨w, l, r, rfl, hrrem, h0, hroot, hnode⟩
    · exact fscanRule_resets hreset
    · exact hreadRule_resets hreset
    · exact encodeRule_resets hreset
    · exact decodeRule_resets hreset
    · exact srcRewind_resets hreset
    · exact hwriteRule_resets hreset hn
    · exact wflushRule_resets hreset h0
    · exact wbitRule_resets hreset h7 d
    · exact wsymRule_resets hreset hsym hp
    · exact rnextRule_resets hreset hrrem h0 hroot hnode
  · exact hwriteRule_resetsAfter hreplies hn hk
  · exact fscanRule_resetsAfter hreplies hpos hcounts

end Sys2Proof.Machine
end
